-- ==== Sys2Proof/Word.lean ====
section
/-! DEFINITION. The widths of the engine's values: bytes, u16 and u32 (00_scope.md R14). -/

namespace Sys2Proof

/-- `u8`, one byte of a buffer (00_scope.md R14). -/
abbrev Byte := BitVec 8

/-- `u16` (00_scope.md R14). -/
abbrev Half := BitVec 16

/-- `u32`, also the width of every register and command word (00_scope.md R14, 30_encoding.md R90). -/
abbrev Word := BitVec 32

end Sys2Proof
end

