-- ==== Sys2Proof/Syntax.lean ====
section
/-! DEFINITION. The engine's 18 commands, one constructor per row of spec/opcode_table.json
(30_encoding.md R91). -/

namespace Sys2Proof

/-- A command with the fields its word carries (30_encoding.md R90, R94). The operands that stand in
ARG0 and ARG1 are state and are read when the command runs. -/
inductive Instr
  | nop
  | hdrLoad
  | hdrStore
  | hdrHash
  | fhdrLoad
  | fhdrStore
  | optDecode
  | cpDecode
  | cpFragSelect
  /-- `n` is the field N, bits [10:8] of a CN word. -/
  | cpFragRead (n : BitVec 3)
  | cpChecksum
  | cpVerify
  | spNew
  | spAppend (n : BitVec 3)
  | spFinalize
  /-- `o` is the field O, bit 8 of the CF word: an opcode is present in ARG1. -/
  | sfNew (o : Bool)
  | sfAppend (n : BitVec 3)
  | sfEmit
  deriving DecidableEq, Repr

end Sys2Proof
end

