-- ==== Sys2Proof/WellFormed.lean ====
section
/-! DEFINITION. Which command terms stand for a legal command word (30_encoding.md R90, R92). -/

namespace Sys2Proof

/-- A CN word's byte count is legal: 1 to 4 (30_encoding.md R90, R92). -/
abbrev countLegal (n : BitVec 3) : Prop := 1 ≤ n.toNat ∧ n.toNat ≤ 4

/-- The command stands for a legal command word: its byte count, where it has one, is 1 to 4. -/
def Instr.wellFormed : Instr → Bool
  | .cpFragRead n => decide (countLegal n)
  | .spAppend n   => decide (countLegal n)
  | .sfAppend n   => decide (countLegal n)
  | .nop | .hdrLoad | .hdrStore | .hdrHash | .fhdrLoad | .fhdrStore | .optDecode | .cpDecode
  | .cpFragSelect | .cpChecksum | .cpVerify | .spNew | .spFinalize | .sfNew _ | .sfEmit => true

/-- `Instr.wellFormed` as a proposition. -/
abbrev Instr.WellFormed (i : Instr) : Prop := i.wellFormed = true

end Sys2Proof
end

