-- ==== Sys2Proof/Decode.lean ====
section
/-! DEFINITION. Command words: the decoder, total on every 32-bit word and rejecting by name
(30_encoding.md R90 to R92), and the encoder written from the same map. -/

namespace Sys2Proof

/-- Why a word is no legal command word (30_encoding.md R92). Each of them ends the command with
IllegalCommand. -/
inductive DecodeError
  /-- The opcode is not in the map of R91. -/
  | unknownOpcode
  /-- A bit the word's format requires to be 0 is 1. -/
  | reservedBit
  /-- A CN word has N = 0 or N > 4. -/
  | badCount
  deriving DecidableEq, Repr

/-- `OPC`, bits [7:0] of a command word (R90). -/
def opcField (w : Word) : BitVec 8 := w.extractLsb' 0 8

/-- `N`, bits [10:8] of a command word (R90). -/
def countField (w : Word) : BitVec 3 := w.extractLsb' 8 3

/-- Bits [31:8], all zero in a C0 word (R90). -/
def aboveOpc (w : Word) : BitVec 24 := w.extractLsb' 8 24

/-- Bits [31:11], all zero in a CN word (R90). -/
def aboveCount (w : Word) : BitVec 21 := w.extractLsb' 11 21

/-- Bits [31:9], all zero in a CF word (R90). -/
def aboveO (w : Word) : BitVec 23 := w.extractLsb' 9 23

/-- A word of format C0 (R90). -/
def decodeC0 (i : Instr) (w : Word) : Except DecodeError Instr :=
  if aboveOpc w = 0#24 then .ok i else .error .reservedBit

/-- A word of format CN (R90, R92). -/
def decodeCN (mk : BitVec 3 → Instr) (w : Word) : Except DecodeError Instr :=
  if aboveCount w = 0#21 then
    if countLegal (countField w) then .ok (mk (countField w)) else .error .badCount
  else .error .reservedBit

/-- A word of format CF (R90). -/
def decodeCF (mk : Bool → Instr) (w : Word) : Except DecodeError Instr :=
  if aboveO w = 0#23 then .ok (mk (w.getLsbD 8)) else .error .reservedBit

/-- The decoder: the opcode map of R91, each opcode read in its format. -/
def decode (w : Word) : Except DecodeError Instr :=
  match (opcField w).toNat with
  | 0x00 => decodeC0 .nop w
  | 0x01 => decodeC0 .hdrLoad w
  | 0x02 => decodeC0 .hdrStore w
  | 0x03 => decodeC0 .hdrHash w
  | 0x04 => decodeC0 .fhdrLoad w
  | 0x05 => decodeC0 .fhdrStore w
  | 0x08 => decodeC0 .optDecode w
  | 0x10 => decodeC0 .cpDecode w
  | 0x11 => decodeC0 .cpFragSelect w
  | 0x12 => decodeCN .cpFragRead w
  | 0x13 => decodeC0 .cpChecksum w
  | 0x14 => decodeC0 .cpVerify w
  | 0x20 => decodeC0 .spNew w
  | 0x21 => decodeCN .spAppend w
  | 0x22 => decodeC0 .spFinalize w
  | 0x28 => decodeCF .sfNew w
  | 0x29 => decodeCN .sfAppend w
  | 0x2A => decodeC0 .sfEmit w
  | _    => .error .unknownOpcode

/-- A C0 word equals its opcode (R90, R97). -/
def encodeC0 (opc : BitVec 8) : Word := 0#24 ++ opc

/-- A CN word (R90). -/
def encodeCN (opc : BitVec 8) (n : BitVec 3) : Word := 0#21 ++ n ++ opc

/-- A CF word (R90). -/
def encodeCF (opc : BitVec 8) (o : Bool) : Word := 0#23 ++ BitVec.ofBool o ++ opc

/-- The command word of a command (R90, R91). -/
def encode : Instr → Word
  | .nop          => encodeC0 0x00#8
  | .hdrLoad      => encodeC0 0x01#8
  | .hdrStore     => encodeC0 0x02#8
  | .hdrHash      => encodeC0 0x03#8
  | .fhdrLoad     => encodeC0 0x04#8
  | .fhdrStore    => encodeC0 0x05#8
  | .optDecode    => encodeC0 0x08#8
  | .cpDecode     => encodeC0 0x10#8
  | .cpFragSelect => encodeC0 0x11#8
  | .cpFragRead n => encodeCN 0x12#8 n
  | .cpChecksum   => encodeC0 0x13#8
  | .cpVerify     => encodeC0 0x14#8
  | .spNew        => encodeC0 0x20#8
  | .spAppend n   => encodeCN 0x21#8 n
  | .spFinalize   => encodeC0 0x22#8
  | .sfNew o      => encodeCF 0x28#8 o
  | .sfAppend n   => encodeCN 0x29#8 n
  | .sfEmit       => encodeC0 0x2A#8

/-- The command word given by the low `nbits` bits of `w`, every higher bit 0. A command word is one
32-bit value written whole to CMD (R90), so there are no further words and no byte order in it. -/
def tableWord (nbits w : Nat) : Word := BitVec.ofNat 32 (w % 2 ^ nbits)

/-- What the decoder reads from an opcode-table word of `nbits` bits. -/
def decodeTableWord (nbits w : Nat) : Option Instr :=
  match decode (tableWord nbits w) with
  | .ok i    => some i
  | .error _ => none

end Sys2Proof
end

