-- ==== Sys2Proof/Config.lean ====
section
/-! DEFINITION. What is fixed for a whole run (10_state.md R21): the constants of 00_scope.md R7, the
parameters of R8 to R13, and the two ports to the external collaborators (10_state.md R52, R53). -/

namespace Sys2Proof

/-- The fifteen named packet flags (00_scope.md R9). -/
inductive Flag
  | encryptedChecksum | blobFragments | serverSwitch | requestRetransmit | rejectRetransmit
  | ackSequence | disconnect | loginRequest | connectRequest | connectResponse | cicmdCommand
  | timeSync | echoRequest | echoResponse | flow
  deriving DecidableEq, Repr

/-- Every named flag once, in the order of 00_scope.md R9. -/
def Flag.all : List Flag :=
  [.encryptedChecksum, .blobFragments, .serverSwitch, .requestRetransmit, .rejectRetransmit,
   .ackSequence, .disconnect, .loginRequest, .connectRequest, .connectResponse, .cicmdCommand,
   .timeSync, .echoRequest, .echoResponse, .flow]

/-- The direction of a packet, one of None, Client and Server (00_scope.md R18). No command queries
the keystream with `none` (10_state.md R54). -/
inductive Direction
  | none | client | server
  deriving DecidableEq, Repr

/-- `PH_SIZE`: bytes in an encoded packet header (00_scope.md R7). -/
def Config.phSize : Nat := 20

/-- `FH_SIZE`: bytes in an encoded fragment header (00_scope.md R7). -/
def Config.fhSize : Nat := 16

/-- `MaxPacketSize`: bytes in a whole server packet, the size of TX (00_scope.md R7, 10_state.md R36). -/
def Config.maxPacketSize : Nat := 484

/-- `MaxDataSize`: bytes of server packet payload (00_scope.md R7). -/
def Config.maxDataSize : Nat := 448

/-- `MaxFragmentSize`: fragment size, header included (00_scope.md R7). -/
def Config.maxFragmentSize : Nat := 464

/-- Capacity of SFB: the payload bytes of a server fragment (10_state.md R37, 90_conflicts.md C4). -/
def Config.sfbSize : Nat := 448

/-- Size of CPD, the client packet's data copy (10_state.md R34). -/
def Config.cpdSize : Nat := 65535

/-- Size of OBUF (10_state.md R38). -/
def Config.obufSize : Nat := 20

/-- Size of the register window (10_state.md R40). -/
def Config.windowSize : Nat := 256

/-- `HASH32`, the rolling checksum primitive: any total function of its byte list (00_scope.md R12,
10_state.md R52, D5). It has no body, so nothing holds of it but that it is a function. Log entry 2. -/
opaque Config.hash32 : List Byte → Word

/-- One draw of the keystream port: the value the oracle answers to the query `(dir, seq)` that is the
`n`-th query of the run (10_state.md R53, D6). It has no body: a free value. Log entry 1. -/
opaque Config.keystreamDraw : Direction → Word → Nat → Word

/-- The configuration of an engine (00_scope.md R8 to R13) with its two ports. -/
structure Config.Params where
  /-- `FLAG_MASK(f)` (R9). -/
  flagMask : Flag → Word
  /-- `EXCL_MASK`, the second reserved bit (R9). -/
  exclMask : Word
  /-- `ENFORCE_EXCL` (R10). -/
  enforceExcl : Bool
  /-- `CHECKSUM_SENTINEL` (R8). -/
  sentinel : Word
  /-- `RETX_UNIT` (R11). -/
  retxUnit : Nat
  /-- `RX_CAP` (R13). -/
  rxCap : Nat
  /-- `HASH32` (R12). -/
  hash32 : List Byte → Word
  /-- The keystream port's answers: direction, sequence, number of the query (10_state.md R53). -/
  keystream : Direction → Word → Nat → Word

/-- The default flag masks of 92_eei_decisions.md D2. PRESUMED, unsafe: the spec marks them as general
knowledge. Log entry 3. -/
def Config.defaultFlagMask : Flag → Word
  | .encryptedChecksum => 0x00000002#32
  | .blobFragments     => 0x00000004#32
  | .serverSwitch      => 0x00000100#32
  | .requestRetransmit => 0x00001000#32
  | .rejectRetransmit  => 0x00002000#32
  | .ackSequence       => 0x00004000#32
  | .disconnect        => 0x00008000#32
  | .loginRequest      => 0x00010000#32
  | .connectRequest    => 0x00040000#32
  | .connectResponse   => 0x00080000#32
  | .cicmdCommand      => 0x00400000#32
  | .timeSync          => 0x01000000#32
  | .echoRequest       => 0x02000000#32
  | .echoResponse      => 0x04000000#32
  | .flow              => 0x08000000#32

/-- The configuration the machine runs at: every parameter at the spec's default (R8, R10, R11, R13,
D2, D3), the two ports free. Log entries 1 to 5. -/
def Config.params : Config.Params where
  flagMask := Config.defaultFlagMask
  exclMask := 0x00000001#32
  enforceExcl := true
  sentinel := 0x0BADD70D#32
  retxUnit := 1
  rxCap := 65555
  hash32 := Config.hash32
  keystream := Config.keystreamDraw

/-- Exactly one bit of the word is set. -/
def Config.oneBit (w : Word) : Prop := ∃ i : Fin 32, w = 1#32 <<< i.val

/-- What 00_scope.md R9 and R13 ask of a configuration: single-bit masks, all different, and room for
one packet header in RX. -/
structure Config.Params.Valid (P : Config.Params) : Prop where
  flag_oneBit : ∀ f, Config.oneBit (P.flagMask f)
  excl_oneBit : Config.oneBit P.exclMask
  flags_differ : ∀ f g, f ≠ g → P.flagMask f ≠ P.flagMask g
  excl_differs : ∀ f, P.exclMask ≠ P.flagMask f
  rxCap_ge : 20 ≤ P.rxCap

end Sys2Proof
end

