-- ==== Sys2Proof/Machine/State.lean ====
section
/-! DEFINITION. The state of the engine and of its host (10_state.md, 20_memory.md R60), the reasons a
step can stop, and the state after reset (70_reset_and_hazards.md R230). -/

namespace Sys2Proof.Machine

open Sys2Proof

/-- The address spaces, each byte-addressed from 0 (20_memory.md R60, R61). -/
inductive Space
  | regs | rx | obuf | tx | cpd | sfb
  deriving DecidableEq, Repr

/-- Why a run stops. A command's error code is no fault: the machine goes on (60_exceptions.md R208). -/
inductive Fault
  /-- The byte at `addr` of `sp` has no defined value (20_memory.md R75). Raised by a command that reads
  an RX byte below RXLEN the host never wrote, by a host read of an RX, OBUF or TX byte with no defined
  value, and by an engine read of another buffer in a state no run reaches. Safe. -/
  | noValue (sp : Space) (addr : Nat)
  /-- The address is past the end of the space (20_memory.md R60, R67: no access wraps). Raised by a
  host access. Safe. -/
  | outsideSpace (sp : Space) (addr : Nat)
  deriving DecidableEq, Repr

/-- Why a step has no meaning. -/
inductive Refusal
  /-- A command without a meaning yet. Raised by `exec` only. Safe. -/
  | notModelled (mnemonic : String)
  /-- A register-window access that is not an aligned 32-bit one (20_memory.md R64, I15). Raised by a
  host access. Safe. -/
  | registerAccessNotWord (addr : Nat)
  /-- An access to RX, OBUF or TX that is not a byte access (20_memory.md R64, D8). Raised by a host
  access. Safe. -/
  | bufferAccessNotByte (sp : Space) (addr : Nat)
  /-- A host write to OBUF or TX, which the host can only read (20_memory.md R60, D8). Raised by a host
  write. Safe. -/
  | bufferReadOnly (sp : Space) (addr : Nat)
  /-- A host access to CPD or SFB, which the host cannot reach (20_memory.md R60, D8). Raised by a host
  access. Safe. -/
  | bufferInternal (sp : Space) (addr : Nat)
  deriving DecidableEq, Repr

/-- The error codes 1 to 8, in the order of 60_exceptions.md R200. -/
inductive Err
  | truncatedInput | oversizedPayload | checksumMismatch | invalidFlagCombination
  | invalidFragmentSize | illegalCommand | stateError | outOfRange
  deriving DecidableEq, Repr

/-- STATUS.SP_STATE; the value 3 never occurs (10_state.md R25). -/
inductive SpState
  | empty | filling | final
  deriving DecidableEq, Repr

/-- STATUS.SF_STATE (10_state.md R25). -/
inductive SfState
  | empty | filling
  deriving DecidableEq, Repr

/-- A packet header record or register set (00_scope.md R17, 10_state.md R28, R29). -/
structure PacketHeader where
  sequence : Word
  flags    : Word
  checksum : Word
  id       : Half
  time     : Half
  size     : Half
  table    : Half
  deriving DecidableEq, Repr

/-- A fragment header record or register set (00_scope.md R17, 10_state.md R28, R32). -/
structure FragmentHeader where
  sequence : Word
  id       : Word
  count    : Half
  size     : Half
  index    : Half
  group    : Half
  deriving DecidableEq, Repr

/-- One entry of the fragment table (10_state.md R35). -/
structure FragEntry where
  /-- Offset in CPD of the fragment's first header byte. -/
  off : Nat
  /-- The fragment's header. -/
  hdr : FragmentHeader
  /-- The payload read cursor. -/
  cur : Nat
  deriving DecidableEq, Repr

/-- The bytes of one buffer that hold a value, by rising address. An unlisted byte has no value
(20_memory.md R75), so no entry can equal what an unlisted address reads as. -/
abbrev Memory := List Host.Cell

/-- The canonical form: addresses strictly rising. -/
abbrev Memory.wf (m : Memory) : Prop := m.Pairwise (fun a b => a.1 < b.1)

/-- The width of a host access (20_memory.md R64). -/
inductive AccessWidth
  | byte | half | word
  deriving DecidableEq, Repr

/-- One action of the host (10_state.md R20, 70_reset_and_hazards.md R232, R241). -/
inductive HostAction
  /-- Read `width` bytes of `sp` at `addr`. -/
  | read (sp : Space) (addr : Nat) (width : AccessWidth)
  /-- Write the low `width` bytes of `value` to `sp` at `addr`. -/
  | write (sp : Space) (addr : Nat) (width : AccessWidth) (value : Word)
  /-- Assert reset, between commands. -/
  | reset
  deriving DecidableEq, Repr

/-- What a host read returned. -/
inductive HostValue
  | word (v : Word)
  | byte (b : Byte)
  deriving DecidableEq, Repr

/-- The whole state. -/
structure State where
  /-- STATUS.ERR (R25): the error of the last command, `none` for code 0, OK. -/
  err : Option Err
  /-- STATUS.CP_VALID (R25, R34). -/
  cpValid : Bool
  /-- STATUS.SP_STATE (R25, R36). -/
  spState : SpState
  /-- STATUS.SF_STATE (R25, R37). -/
  sfState : SfState
  /-- ERRSEEN (R26). -/
  errseen : Word
  /-- RES (R23). -/
  res : Word
  /-- ARG0 (R23). -/
  arg0 : Word
  /-- ARG1 (R23). -/
  arg1 : Word
  /-- RXLEN (R27). -/
  rxlen : Word
  /-- HDR, the scratch packet header (R29). -/
  hdr : PacketHeader
  /-- FH, the scratch fragment header (R32). -/
  fh : FragmentHeader
  /-- CP_HDR, the decoded client packet's header (R30). -/
  cpHdr : PacketHeader
  /-- CP_OPTLEN (R34). -/
  cpOptlen : Word
  /-- FRAG, the fragment table, in arrival order (R35). CP_NFRAG is its length. -/
  frags : List FragEntry
  /-- CP_FSEL (R34). -/
  cpFsel : Word
  /-- SP_HDR, the server packet's header (R31). -/
  spHdr : PacketHeader
  /-- SP_WP, the server packet's payload cursor (R36). -/
  spWp : Word
  /-- TX_LEN, the number of valid TX bytes (R36). -/
  txLen : Word
  /-- SF_HDR, the server fragment builder's header (R33). -/
  sfHdr : FragmentHeader
  /-- SF_WP, the server fragment's payload cursor (R37). -/
  sfWp : Word
  /-- RX, the receive buffer (R39). -/
  rx : Memory
  /-- OBUF, the encode output buffer (R38). -/
  obuf : Memory
  /-- TX, the transmit arena (R36). -/
  tx : Memory
  /-- CPD, the client packet's data copy (R34). -/
  cpd : Memory
  /-- SFB, the server fragment's payload buffer (R37). -/
  sfb : Memory
  /-- The model's own: how many keystream queries the run has made. Log entry 1. -/
  ksDraws : Nat
  /-- The model's own: the host's actions still to come, the next one first. Log entry 6. -/
  host : List HostAction
  /-- The model's own: what the host's latest read returned. Log entry 7. -/
  observed : Option HostValue
  deriving DecidableEq, Repr

/-- A packet header with every field 0. -/
def PacketHeader.zero : PacketHeader := ⟨0#32, 0#32, 0#32, 0#16, 0#16, 0#16, 0#16⟩

/-- A fragment header with every field 0. -/
def FragmentHeader.zero : FragmentHeader := ⟨0#32, 0#32, 0#16, 0#16, 0#16, 0#16⟩

/-- The state after reset (70_reset_and_hazards.md R230): every register 0, every object empty, every
buffer without defined contents. -/
def State.reset : State where
  err := none
  cpValid := false
  spState := .empty
  sfState := .empty
  errseen := 0#32
  res := 0#32
  arg0 := 0#32
  arg1 := 0#32
  rxlen := 0#32
  hdr := .zero
  fh := .zero
  cpHdr := .zero
  cpOptlen := 0#32
  frags := []
  cpFsel := 0#32
  spHdr := .zero
  spWp := 0#32
  txLen := 0#32
  sfHdr := .zero
  sfWp := 0#32
  rx := []
  obuf := []
  tx := []
  cpd := []
  sfb := []
  ksDraws := 0
  host := []
  observed := none

end Sys2Proof.Machine
end

