-- ==== Sys2Proof/Machine/Ops.lean ====
section
/-! DEFINITION. The named operations over memory, byte sources and registers that every command shares,
and the one way a command ends (40_control.md R110, 60_exceptions.md R205). The engine has no trap: an
error is a status code (60_exceptions.md R208), so ending a command with an error is what other hardware
calls taking an exception, and there is no return from it (R209). -/

namespace Sys2Proof.Machine

open Sys2Proof

/-! ### How a command's body can stop -/

/-- Why a command's body stops before its end: it raises an error code (00_scope.md R16, `raise`), or it
needs a byte with no value (20_memory.md R75). -/
inductive Stop
  | err (e : Err)
  | fault (f : Fault)
  deriving DecidableEq, Repr

/-- `raise E` (00_scope.md R16). -/
def raise {α : Type} (e : Err) : Except Stop α := .error (.err e)

/-- Goes on if `c` holds, else raises `e`. -/
def require (c : Prop) [Decidable c] (e : Err) : Except Stop Unit :=
  if c then .ok () else raise e

/-! ### Memory -/

/-- The byte at address `i`, if it has a value. -/
def Memory.read : Memory → Nat → Option Byte
  | [], _ => none
  | (a, b) :: m, i => if i = a then some b else Memory.read m i

/-- `m` with the byte at `i` set to `v`; keeps addresses strictly rising. -/
def Memory.write : Memory → Nat → Byte → Memory
  | [], i, v => [(i, v)]
  | (a, b) :: m, i, v =>
    if i < a then (i, v) :: (a, b) :: m
    else if i = a then (i, v) :: m
    else (a, b) :: Memory.write m i v

/-- `MemWrite(space, addr, len(bs), bs)` (00_scope.md R16). -/
def Memory.writeList (m : Memory) (addr : Nat) : List Byte → Memory
  | []      => m
  | b :: bs => Memory.writeList (Memory.write m addr b) (addr + 1) bs

/-! ### Byte sources: what the decoders read from -/

/-- A byte list a decoder reads from: `get i` is its byte `i`, if that has a value. `space` names it in
the fault of a byte without one. -/
structure Source where
  space : Space
  get : Nat → Option Byte

/-- A buffer, read in place. -/
def Memory.source (m : Memory) (sp : Space) : Source := ⟨sp, Memory.read m⟩

/-- A byte list that was read from `sp`. -/
def listSource (sp : Space) (bs : List Byte) : Source := ⟨sp, fun i => bs[i]?⟩

/-- `bs[i]` (00_scope.md R14). A byte without a value is a fault (20_memory.md R75). -/
def Source.byte (src : Source) (i : Nat) : Except Stop Byte :=
  match src.get i with
  | some b => .ok b
  | none   => .error (.fault (.noValue src.space i))

/-- `MemRead(space, addr, n)`: the bytes `[addr, addr + n)` (00_scope.md R16). -/
def Source.bytes (src : Source) (addr : Nat) : Nat → Except Stop (List Byte)
  | 0     => .ok []
  | n + 1 => do
    let b ← src.byte addr
    let bs ← Source.bytes src (addr + 1) n
    return b :: bs

/-! ### The buffers of the engine -/

/-- The bytes of a space that is a buffer; the register window has none. -/
def State.buffer (s : State) : Space → Memory
  | .regs => []
  | .rx   => s.rx
  | .obuf => s.obuf
  | .tx   => s.tx
  | .cpd  => s.cpd
  | .sfb  => s.sfb

/-- The size of a space in bytes (20_memory.md R60). -/
def spaceSize (P : Config.Params) : Space → Nat
  | .regs => Config.windowSize
  | .rx   => P.rxCap
  | .obuf => Config.obufSize
  | .tx   => Config.maxPacketSize
  | .cpd  => Config.cpdSize
  | .sfb  => Config.sfbSize

/-- RX as a source. -/
def State.rxSource (s : State) : Source := s.rx.source .rx

/-- CP_NFRAG: the number of fragments in the table (10_state.md R34, R35). -/
def State.cpNfrag (s : State) : Nat := s.frags.length

/-! ### How a command ends -/

/-- The number of an error code (60_exceptions.md R200). -/
def Err.code : Err → Nat
  | .truncatedInput         => 1
  | .oversizedPayload       => 2
  | .checksumMismatch       => 3
  | .invalidFlagCombination => 4
  | .invalidFragmentSize    => 5
  | .illegalCommand         => 6
  | .stateError             => 7
  | .outOfRange             => 8

/-- ERRSEEN with the bit of an error set; OK sets none (10_state.md R26). -/
def noteError (seen : Word) : Option Err → Word
  | none   => seen
  | some e => seen ||| (1#32 <<< e.code)

/-- `Finish(e)` (40_control.md R110): STATUS.ERR takes the code, ERRSEEN its bit. -/
def State.finish (s : State) (e : Option Err) : State :=
  { s with err := e, errseen := noteError s.errseen e }

/-- How every command ends (40_control.md R110, 60_exceptions.md R205). A body that came to its end gives
the state with its writes committed; one that raised an error is discarded for `rollback`, the state
before it with only the writes its rule names "on error". -/
def endCommand (rollback : State) : Except Stop State → Host.Outcome State Fault Refusal
  | .ok t             => .next (t.finish none)
  | .error (.err e)   => .next (rollback.finish (some e))
  | .error (.fault f) => .fault f

/-- The client packet state emptied, as a failed CP_DECODE leaves it (45_packet_assembler.md R171,
"on error"). -/
def State.clearClient (s : State) : State :=
  { s with cpValid := false, cpHdr := .zero, cpOptlen := 0#32, frags := [], cpFsel := 0#32 }

/-- Reset of the engine between commands (70_reset_and_hazards.md R230, R232). The session behind the
keystream port, the host's pending actions and what it has read are not the engine's and stay. -/
def State.resetEngine (s : State) : State :=
  { State.reset with ksDraws := s.ksDraws, host := s.host, observed := s.observed }

/-- One query of the keystream port (10_state.md R53): the value drawn, and the state in which that
query has been made. -/
def drawKeystream (P : Config.Params) (dir : Direction) (sequence : Word) (s : State) : Word × State :=
  (P.keystream dir sequence s.ksDraws, { s with ksDraws := s.ksDraws + 1 })

end Sys2Proof.Machine
end

