-- ==== Sys2Proof/Machine/Flags.lean ====
section
/-! DEFINITION. Every flag computation: the packet flags word (00_scope.md R9, 10_state.md R42,
60_exceptions.md R203) and the STATUS word (10_state.md R25). -/

namespace Sys2Proof.Machine

open Sys2Proof

/-- `has(flags, f)` (00_scope.md R9). -/
def has (P : Config.Params) (flags : Word) (f : Flag) : Bool := flags &&& P.flagMask f != 0#32

/-- `flagsValid(f)` (60_exceptions.md R203). -/
def flagsValid (P : Config.Params) (flags : Word) : Bool :=
  !(P.enforceExcl && has P flags .encryptedChecksum && flags &&& P.exclMask != 0#32)

/-- STATUS.ERR as its 8 bits: 0 for OK (10_state.md R25, 60_exceptions.md R200). -/
def errBits : Option Err → BitVec 8
  | none   => 0#8
  | some e => BitVec.ofNat 8 e.code

/-- STATUS.SP_STATE as its 2 bits (10_state.md R25). -/
def SpState.bits : SpState → BitVec 2
  | .empty   => 0#2
  | .filling => 1#2
  | .final   => 2#2

/-- STATUS.SF_STATE as its bit (10_state.md R25). -/
def SfState.bits : SfState → BitVec 1
  | .empty   => 0#1
  | .filling => 1#1

/-- The STATUS word (10_state.md R25): [31:12] reserved 0, SF_STATE [11], SP_STATE [10:9], CP_VALID [8],
ERR [7:0]. -/
def State.statusWord (s : State) : Word :=
  0#20 ++ s.sfState.bits ++ s.spState.bits ++ BitVec.ofBool s.cpValid ++ errBits s.err

end Sys2Proof.Machine
end

