-- ==== Sys2Proof/Machine/Operands.lean ====
section
/-! DEFINITION. Where each command takes its operands from (30_encoding.md R94), with the bounds of an RX
offset (20_memory.md R67) and the byte order of register transfers (20_memory.md R63). -/

namespace Sys2Proof.Machine

open Sys2Proof

/-- ARG0 as an RX offset, u32 (R94: HDR_LOAD, FHDR_LOAD, OPT_DECODE). -/
def State.rxOffset (s : State) : Nat := s.arg0.toNat

/-- ARG0 as a fragment index, u32 (R94: CP_FRAG_SELECT). -/
def State.fragIndex (s : State) : Nat := s.arg0.toNat

/-- ARG0[15:0], the id of SP_NEW and the group of SF_NEW; ARG0[31:16] is ignored (R94, D42). -/
def State.arg0Half (s : State) : Half := s.arg0.setWidth 16

/-- N of a CN word as a byte count. A count outside 1 to 4 is IllegalCommand (R92); the decoder has
refused it before. Log entry 13. -/
def byteCount (n : BitVec 3) : Except Stop Nat :=
  if countLegal n then .ok n.toNat else raise .illegalCommand

/-- The low `n` bytes of a register: byte `j` is bits [8j+7:8j] (20_memory.md R63). -/
def wordBytes (v : Word) (n : Nat) : List Byte :=
  (List.range n).map (fun j => v.extractLsb' (8 * j) 8)

/-- Up to 4 bytes put into a register, zero-extended: byte `j` is bits [8j+7:8j] (20_memory.md R63). -/
def bytesWord : List Byte → Word
  | []      => 0#32
  | b :: bs => b.setWidth 32 ||| (bytesWord bs <<< 8)

/-- The bounds of a command that reads RX from `o` for `n` bytes (20_memory.md R67): an offset past RXLEN
is OutOfRange, too few bytes TruncatedInput. -/
def checkRxSpan (s : State) (o n : Nat) : Except Stop Unit := do
  require (o ≤ s.rxlen.toNat) .outOfRange
  require (n ≤ s.rxlen.toNat - o) .truncatedInput

end Sys2Proof.Machine
end

