-- ==== Sys2Proof/Machine/Wire.lean ====
section
/-! DEFINITION. The wire layouts: little-endian integers (00_scope.md R15), the fragment header
(30_encoding.md R81, 41_fragment_header_codec.md R120, R121) and the packet header (30_encoding.md R80,
42_packet_header_codec.md R130). -/

namespace Sys2Proof.Machine

open Sys2Proof

/-- `le16(bs, o)` (00_scope.md R15). -/
def le16 (src : Source) (o : Nat) : Except Stop Half := do
  let b0 ← src.byte o
  let b1 ← src.byte (o + 1)
  return b0.setWidth 16 ||| b1.setWidth 16 <<< 8

/-- `le32(bs, o)` (00_scope.md R15). -/
def le32 (src : Source) (o : Nat) : Except Stop Word := do
  let b0 ← src.byte o
  let b1 ← src.byte (o + 1)
  let b2 ← src.byte (o + 2)
  let b3 ← src.byte (o + 3)
  return b0.setWidth 32 ||| b1.setWidth 32 <<< 8 ||| b2.setWidth 32 <<< 16 ||| b3.setWidth 32 <<< 24

/-- `bytes16(v)` (00_scope.md R15). -/
def bytes16 (v : Half) : List Byte := [v.extractLsb' 0 8, v.extractLsb' 8 8]

/-- `bytes32(v)` (00_scope.md R15). -/
def bytes32 (v : Word) : List Byte :=
  [v.extractLsb' 0 8, v.extractLsb' 8 8, v.extractLsb' 16 8, v.extractLsb' 24 8]

/-- `decodeFH(bs, o)` (41_fragment_header_codec.md R120). -/
def decodeFH (src : Source) (o : Nat) : Except Stop FragmentHeader := do
  let sequence ← le32 src (o + 0)
  let id ← le32 src (o + 4)
  let count ← le16 src (o + 8)
  let size ← le16 src (o + 10)
  let index ← le16 src (o + 12)
  let group ← le16 src (o + 14)
  return { sequence, id, count, size, index, group }

/-- `encodeFH(h)` (41_fragment_header_codec.md R121). -/
def encodeFH (h : FragmentHeader) : List Byte :=
  bytes32 h.sequence ++ bytes32 h.id ++ bytes16 h.count ++ bytes16 h.size ++ bytes16 h.index
    ++ bytes16 h.group

/-- `decodePH(bs, o)` (42_packet_header_codec.md R130). -/
def decodePH (src : Source) (o : Nat) : Except Stop PacketHeader := do
  let sequence ← le32 src (o + 0)
  let flags ← le32 src (o + 4)
  let checksum ← le32 src (o + 8)
  let id ← le16 src (o + 12)
  let time ← le16 src (o + 14)
  let size ← le16 src (o + 16)
  let table ← le16 src (o + 18)
  return { sequence, flags, checksum, id, time, size, table }

/-- `encodePH(h)` (42_packet_header_codec.md R130). -/
def encodePH (h : PacketHeader) : List Byte :=
  bytes32 h.sequence ++ bytes32 h.flags ++ bytes32 h.checksum ++ bytes16 h.id ++ bytes16 h.time
    ++ bytes16 h.size ++ bytes16 h.table

/-- `bs[a, b)` (00_scope.md R14). -/
def slice (bs : List Byte) (a b : Nat) : List Byte := (bs.drop a).take (b - a)

end Sys2Proof.Machine
end

