-- ==== Sys2Proof/Machine/PacketHeaderCodec.lean ====
section
/-! DEFINITION. The packet header codec's commands HDR_LOAD, HDR_STORE and HDR_HASH, and the header hash
(42_packet_header_codec.md). -/

namespace Sys2Proof.Machine

open Sys2Proof

/-- The body of HDR_LOAD (42_packet_header_codec.md R131). No flag combination is checked. -/
def hdrLoadBody (s : State) : Except Stop State := do
  checkRxSpan s s.rxOffset Config.phSize
  let h ← decodePH s.rxSource s.rxOffset
  return { s with hdr := h }

/-- HDR_LOAD (42_packet_header_codec.md R131). -/
def execHdrLoad (s : State) : Host.Outcome State Fault Refusal := endCommand s (hdrLoadBody s)

/-- HDR_STORE (42_packet_header_codec.md R132). -/
def execHdrStore (s : State) : Host.Outcome State Fault Refusal :=
  endCommand s (.ok { s with obuf := s.obuf.writeList 0 (encodePH s.hdr) })

/-- `headerHash(h)` (42_packet_header_codec.md R133): the real checksum is never hashed, the sentinel
stands in its place (90_conflicts.md C6). -/
def headerHash (P : Config.Params) (h : PacketHeader) : Word :=
  P.hash32 (encodePH { h with checksum := P.sentinel })

/-- HDR_HASH under a configuration (42_packet_header_codec.md R134). -/
def runHdrHash (P : Config.Params) (s : State) : Host.Outcome State Fault Refusal :=
  endCommand s (.ok { s with res := headerHash P s.hdr })

/-- HDR_HASH (42_packet_header_codec.md R134). -/
def execHdrHash (s : State) : Host.Outcome State Fault Refusal := runHdrHash Config.params s

end Sys2Proof.Machine
end

