-- ==== Sys2Proof/Machine/Checksum.lean ====
section
/-! DEFINITION. The checksum engine with keystream folding, and its commands CP_CHECKSUM and CP_VERIFY
(46_checksum.md). -/

namespace Sys2Proof.Machine

open Sys2Proof

/-- What a parsed data region consists of: the optional-header length and the fragments with their
offsets (45_packet_assembler.md R170). -/
structure Region where
  optLen : Nat
  frags : List (Nat × FragmentHeader)
  deriving DecidableEq, Repr

/-- The hash of one fragment's 16 header bytes plus the hash of its payload (46_checksum.md R190). -/
def fragHash (P : Config.Params) (data : List Byte) (p : Nat) (h : FragmentHeader) : Word :=
  P.hash32 (slice data p (p + 16)) + P.hash32 (slice data (p + 16) (p + h.size.toNat))

/-- `payloadHash(flags, data, n, L)` (46_checksum.md R190); sums are modulo 2^32. -/
def payloadHash (P : Config.Params) (flags : Word) (data : List Byte) (r : Region) : Word :=
  if has P flags .blobFragments then
    r.frags.foldl (fun acc f => acc + fragHash P data f.1 f.2) (P.hash32 (slice data 0 r.optLen))
  else P.hash32 data

/-- `packetChecksum` with the draw `xorMask` given (46_checksum.md R191, R194): the mask is folded into
the payload hash before the header hash is added. -/
def packetChecksum (P : Config.Params) (h : PacketHeader) (data : List Byte) (r : Region)
    (xorMask : Word) : Word :=
  headerHash P h + (payloadHash P h.flags data r ^^^ xorMask)

/-- `xorMask` of 46_checksum.md R191: one keystream draw if the flags have EncryptedChecksum, else 0 and
no query; with it the state in which the query has been made. -/
def drawMask (P : Config.Params) (dir : Direction) (h : PacketHeader) (s : State) : Word × State :=
  if has P h.flags .encryptedChecksum then drawKeystream P dir h.sequence s else (0#32, s)

/-- The client packet's parsed region, from CP_OPTLEN and the fragment table (46_checksum.md R192). -/
def State.clientRegion (s : State) : Region :=
  { optLen := s.cpOptlen.toNat, frags := s.frags.map (fun f => (f.off, f.hdr)) }

/-- The client packet's checksum and the state after its keystream query, which CP_CHECKSUM and CP_VERIFY
share (46_checksum.md R192, R193, R196). -/
def clientChecksum (P : Config.Params) (s : State) : Except Stop (Word × State) := do
  require (s.cpValid = true) .stateError
  let data ← (s.cpd.source .cpd).bytes 0 s.cpHdr.size.toNat
  let draw := drawMask P .client s.cpHdr s
  return (packetChecksum P s.cpHdr data s.clientRegion draw.1, draw.2)

/-- The body of CP_CHECKSUM (46_checksum.md R192). -/
def cpChecksumBody (P : Config.Params) (s : State) : Except Stop State := do
  let c ← clientChecksum P s
  return { c.2 with res := c.1 }

/-- CP_CHECKSUM under a configuration (46_checksum.md R192). -/
def runCpChecksum (P : Config.Params) (s : State) : Host.Outcome State Fault Refusal :=
  endCommand s (cpChecksumBody P s)

/-- CP_CHECKSUM (46_checksum.md R192). -/
def execCpChecksum (s : State) : Host.Outcome State Fault Refusal := runCpChecksum Config.params s

/-- CP_VERIFY under a configuration (46_checksum.md R193). RES is the one write a ChecksumMismatch
keeps; the keystream query has been made all the same. Log entry 14. -/
def runCpVerify (P : Config.Params) (s : State) : Host.Outcome State Fault Refusal :=
  match clientChecksum P s with
  | .error stop => endCommand s (.error stop)
  | .ok c =>
    let t : State := { c.2 with res := c.1 }
    endCommand t (if c.1 = s.cpHdr.checksum then .ok t else raise .checksumMismatch)

/-- CP_VERIFY (46_checksum.md R193). -/
def execCpVerify (s : State) : Host.Outcome State Fault Refusal := runCpVerify Config.params s

end Sys2Proof.Machine
end

