-- ==== Sys2Proof/Machine/Control.lean ====
section
/-! DEFINITION. The control command NOP (40_control.md). -/

namespace Sys2Proof.Machine

open Sys2Proof

/-- NOP (40_control.md R111): no writes; STATUS.ERR becomes 0. -/
def execNop (s : State) : Host.Outcome State Fault Refusal := endCommand s (.ok s)

end Sys2Proof.Machine
end

