-- ==== Sys2Proof/Machine/FragmentCodec.lean ====
section
/-! DEFINITION. The fragment codec (44_fragment_codec.md): the client direction's `fragDecode`,
`fragList`, CP_FRAG_SELECT and CP_FRAG_READ, and the server direction's SF_NEW, SF_APPEND and SF_EMIT. -/

namespace Sys2Proof.Machine

open Sys2Proof

/-! ### Client direction -/

/-- `fragDecode(bs, p, end)` (44_fragment_codec.md R150, R152): header room, then size < 16, then payload
room (60_exceptions.md R206). -/
def fragDecode (src : Source) (p stop : Nat) : Except Stop FragmentHeader := do
  require (16 ≤ stop - p) .truncatedInput
  let h ← decodeFH src p
  require (16 ≤ h.size.toNat) .invalidFragmentSize
  require (h.size.toNat - 16 ≤ stop - (p + 16)) .truncatedInput
  return h

/-- The loop of 44_fragment_codec.md R151, in at most `fuel` turns. -/
def fragLoop (src : Source) (stop : Nat) : Nat → Nat → Except Stop (List (Nat × FragmentHeader))
  | 0, _ => .ok []
  | fuel + 1, p =>
    if p < stop then do
      let h ← fragDecode src p stop
      let rest ← fragLoop src stop fuel (p + h.size.toNat)
      return (p, h) :: rest
    else .ok []

/-- `fragList(bs, start, end)` (44_fragment_codec.md R151). Each fragment takes at least 16 bytes, so
`end - start` turns are more than the loop can take. -/
def fragList (src : Source) (start stop : Nat) : Except Stop (List (Nat × FragmentHeader)) :=
  fragLoop src stop (stop - start) start

/-- Payload bytes of a fragment still to read: `(hdr.size - 16) - cur` (44_fragment_codec.md R153). -/
def FragEntry.left (f : FragEntry) : Nat := f.hdr.size.toNat - 16 - f.cur

/-- The body of CP_FRAG_SELECT (44_fragment_codec.md R153). -/
def cpFragSelectBody (s : State) : Except Stop State := do
  require (s.cpValid = true) .stateError
  match s.frags[s.fragIndex]? with
  | none   => raise .outOfRange
  | some f => return { s with fh := f.hdr, cpFsel := s.arg0, res := BitVec.ofNat 32 f.left }

/-- CP_FRAG_SELECT (44_fragment_codec.md R153). -/
def execCpFragSelect (s : State) : Host.Outcome State Fault Refusal := endCommand s (cpFragSelectBody s)

/-- The body of CP_FRAG_READ (44_fragment_codec.md R154). -/
def cpFragReadBody (n : BitVec 3) (s : State) : Except Stop State := do
  let count ← byteCount n
  require (s.cpValid = true) .stateError
  match s.frags[s.cpFsel.toNat]? with
  | none   => raise .outOfRange
  | some f => do
    require (count ≤ f.left) .truncatedInput
    let bs ← (s.cpd.source .cpd).bytes (f.off + 16 + f.cur) count
    return { s with
      res := bytesWord bs
      frags := s.frags.set s.cpFsel.toNat { f with cur := f.cur + count } }

/-- CP_FRAG_READ (44_fragment_codec.md R154). -/
def execCpFragRead (n : BitVec 3) (s : State) : Host.Outcome State Fault Refusal :=
  endCommand s (cpFragReadBody n s)

/-! ### Server direction -/

/-- SF_NEW (44_fragment_codec.md R156): `o` says whether ARG1 is an opcode. -/
def execSfNew (o : Bool) (s : State) : Host.Outcome State Fault Refusal :=
  endCommand s (.ok { s with
    sfHdr := { FragmentHeader.zero with group := s.arg0Half }
    sfb := if o then s.sfb.writeList 0 (bytes32 s.arg1) else s.sfb
    sfWp := if o then 4#32 else 0#32
    sfState := .filling })

/-- The body of SF_APPEND (44_fragment_codec.md R157). -/
def sfAppendBody (n : BitVec 3) (s : State) : Except Stop State := do
  let count ← byteCount n
  require (s.sfState = .filling) .stateError
  require (s.sfWp.toNat + count ≤ Config.sfbSize) .oversizedPayload
  return { s with
    sfb := s.sfb.writeList s.sfWp.toNat (wordBytes s.arg1 count)
    sfWp := BitVec.ofNat 32 (s.sfWp.toNat + count) }

/-- SF_APPEND (44_fragment_codec.md R157). -/
def execSfAppend (n : BitVec 3) (s : State) : Host.Outcome State Fault Refusal :=
  endCommand s (sfAppendBody n s)

/-- Bytes of the server fragment's encoding: header and payload (44_fragment_codec.md R158). -/
def State.sfTotal (s : State) : Nat := Config.fhSize + s.sfWp.toNat

/-- The body of SF_EMIT (44_fragment_codec.md R158). -/
def sfEmitBody (s : State) : Except Stop State := do
  require (s.sfState = .filling ∧ s.spState = .filling) .stateError
  require (s.spWp.toNat + s.sfTotal ≤ Config.maxDataSize) .oversizedPayload
  let payload ← (s.sfb.source .sfb).bytes 0 s.sfWp.toNat
  let h : FragmentHeader := { s.sfHdr with size := BitVec.ofNat 16 s.sfTotal }
  return { s with
    tx := s.tx.writeList (20 + s.spWp.toNat) (encodeFH h ++ payload)
    spWp := BitVec.ofNat 32 (s.spWp.toNat + s.sfTotal)
    sfHdr := h
    sfState := .empty
    sfWp := 0#32 }

/-- SF_EMIT (44_fragment_codec.md R158). -/
def execSfEmit (s : State) : Host.Outcome State Fault Refusal := endCommand s (sfEmitBody s)

end Sys2Proof.Machine
end

