-- ==== Sys2Proof/Machine/FragmentHeaderCodec.lean ====
section
/-! DEFINITION. The fragment header codec's commands FHDR_LOAD and FHDR_STORE
(41_fragment_header_codec.md). -/

namespace Sys2Proof.Machine

open Sys2Proof

/-- The body of FHDR_LOAD (41_fragment_header_codec.md R122). -/
def fhdrLoadBody (s : State) : Except Stop State := do
  checkRxSpan s s.rxOffset Config.fhSize
  let h ← decodeFH s.rxSource s.rxOffset
  return { s with fh := h }

/-- FHDR_LOAD (41_fragment_header_codec.md R122). -/
def execFhdrLoad (s : State) : Host.Outcome State Fault Refusal := endCommand s (fhdrLoadBody s)

/-- FHDR_STORE (41_fragment_header_codec.md R123): OBUF[16,20) keeps its bytes. -/
def execFhdrStore (s : State) : Host.Outcome State Fault Refusal :=
  endCommand s (.ok { s with obuf := s.obuf.writeList 0 (encodeFH s.fh) })

end Sys2Proof.Machine
end

