-- ==== Sys2Proof/Machine/OptionalHeader.lean ====
section
/-! DEFINITION. The optional header decoder `optLen` and its command OPT_DECODE
(43_optional_header.md). -/

namespace Sys2Proof.Machine

open Sys2Proof

/-- The size of an optional block (43_optional_header.md R140). -/
inductive OptKind
  /-- So many opaque bytes. -/
  | fixed (n : Nat)
  /-- A u32 count, then that many units of `RETX_UNIT` opaque bytes. -/
  | prefixed
  deriving DecidableEq, Repr

/-- `OPT_TABLE` (43_optional_header.md R140, 30_encoding.md R82). -/
def optTable : List (Flag × OptKind) :=
  [(.serverSwitch,      .fixed 8),
   (.requestRetransmit, .prefixed),
   (.rejectRetransmit,  .prefixed),
   (.ackSequence,       .fixed 4),
   (.cicmdCommand,      .fixed 8),
   (.timeSync,          .fixed 8),
   (.echoRequest,       .fixed 4),
   (.echoResponse,      .fixed 8),
   (.flow,              .fixed 6)]

/-- `n` opaque bytes at cursor `p`, never past `stop`: the cursor after them (43_optional_header.md R140).
They are read whole, once they fit (20_memory.md R66), and not kept. Log entry 9. -/
def optSkip (src : Source) (stop p n : Nat) : Except Stop Nat := do
  require (n ≤ stop - p) .truncatedInput
  let _ ← src.bytes p n
  return p + n

/-- One block at cursor `p`, never past `stop`: the cursor after it (43_optional_header.md R140). -/
def optBlock (P : Config.Params) (src : Source) (stop p : Nat) : OptKind → Except Stop Nat
  | .fixed n => optSkip src stop p n
  | .prefixed => do
    require (4 ≤ stop - p) .truncatedInput
    let n ← le32 src p
    optSkip src stop (p + 4) (n.toNat * P.retxUnit)

/-- One entry of the table at cursor `p`: its block if its flag is set, else nothing
(43_optional_header.md R140). -/
def optEntry (P : Config.Params) (flags : Word) (src : Source) (stop p : Nat) (entry : Flag × OptKind) :
    Except Stop Nat :=
  if has P flags entry.1 then optBlock P src stop p entry.2 else .ok p

/-- The walk over a table's entries, in list order: the cursor at the end (43_optional_header.md R140). -/
def optWalk (P : Config.Params) (flags : Word) (src : Source) (stop : Nat) :
    List (Flag × OptKind) → Nat → Except Stop Nat
  | [], p => .ok p
  | entry :: rest, p => do
    let q ← optEntry P flags src stop p entry
    optWalk P flags src stop rest q

/-- `optLen(flags, bs, start, end)` (43_optional_header.md R140). -/
def optLen (P : Config.Params) (flags : Word) (src : Source) (start stop : Nat) : Except Stop Nat := do
  let p ← optWalk P flags src stop optTable start
  return p - start

/-- The body of OPT_DECODE (43_optional_header.md R142): the region ends at RXLEN. -/
def optDecodeBody (P : Config.Params) (s : State) : Except Stop State := do
  require (s.rxOffset ≤ s.rxlen.toNat) .outOfRange
  let n ← optLen P s.hdr.flags s.rxSource s.rxOffset s.rxlen.toNat
  return { s with res := BitVec.ofNat 32 n }

/-- OPT_DECODE under a configuration (43_optional_header.md R142). -/
def runOptDecode (P : Config.Params) (s : State) : Host.Outcome State Fault Refusal :=
  endCommand s (optDecodeBody P s)

/-- OPT_DECODE (43_optional_header.md R142). -/
def execOptDecode (s : State) : Host.Outcome State Fault Refusal := runOptDecode Config.params s

end Sys2Proof.Machine
end

