-- ==== Sys2Proof/Machine/PacketAssembler.lean ====
section
/-! DEFINITION. The packet assembler and disassembler (45_packet_assembler.md): `regionParse`, CP_DECODE,
SP_NEW, SP_APPEND and SP_FINALIZE. -/

namespace Sys2Proof.Machine

open Sys2Proof

/-- The fragments of a data region from the end `n` of its optional header region on: none without
BlobFragments (45_packet_assembler.md R170). -/
def regionFrags (P : Config.Params) (flags : Word) (src : Source) (n stop : Nat) :
    Except Stop (List (Nat × FragmentHeader)) :=
  if has P flags .blobFragments then fragList src n stop else .ok []

/-- `regionParse(flags, data)` (45_packet_assembler.md R170). The data region is read as it lies in CPD. -/
def regionParse (P : Config.Params) (flags : Word) (data : List Byte) : Except Stop Region := do
  let n ← optLen P flags (listSource .cpd data) 0 data.length
  let frags ← regionFrags P flags (listSource .cpd data) n data.length
  return { optLen := n, frags := frags }

/-! ### Client direction -/

/-- The fragment table of a parsed region: every cursor at 0 (45_packet_assembler.md R171). -/
def Region.entries (r : Region) : List FragEntry :=
  r.frags.map (fun f => { off := f.1, hdr := f.2, cur := 0 })

/-- The body of CP_DECODE (45_packet_assembler.md R171). -/
def cpDecodeBody (P : Config.Params) (s : State) : Except Stop State := do
  require (Config.phSize ≤ s.rxlen.toNat) .truncatedInput
  let h ← decodePH s.rxSource 0
  require (flagsValid P h.flags = true) .invalidFlagCombination
  require (h.size.toNat ≤ s.rxlen.toNat - Config.phSize) .truncatedInput
  let data ← s.rxSource.bytes 20 h.size.toNat
  let r ← regionParse P h.flags data
  return { s with
    cpd := s.cpd.writeList 0 data
    cpHdr := h
    cpOptlen := BitVec.ofNat 32 r.optLen
    frags := r.entries
    cpFsel := 0#32
    cpValid := true }

/-- CP_DECODE under a configuration (45_packet_assembler.md R171): an error clears the client packet. -/
def runCpDecode (P : Config.Params) (s : State) : Host.Outcome State Fault Refusal :=
  endCommand s.clearClient (cpDecodeBody P s)

/-- CP_DECODE (45_packet_assembler.md R171). -/
def execCpDecode (s : State) : Host.Outcome State Fault Refusal := runCpDecode Config.params s

/-! ### Server direction -/

/-- The body of SP_NEW (45_packet_assembler.md R175). TX keeps its bytes. -/
def spNewBody (P : Config.Params) (s : State) : Except Stop State := do
  require (flagsValid P s.arg1 = true) .invalidFlagCombination
  return { s with
    spHdr := { PacketHeader.zero with flags := s.arg1, id := s.arg0Half }
    spWp := 0#32
    txLen := 0#32
    spState := .filling }

/-- SP_NEW under a configuration (45_packet_assembler.md R175). -/
def runSpNew (P : Config.Params) (s : State) : Host.Outcome State Fault Refusal :=
  endCommand s (spNewBody P s)

/-- SP_NEW (45_packet_assembler.md R175). -/
def execSpNew (s : State) : Host.Outcome State Fault Refusal := runSpNew Config.params s

/-- The body of SP_APPEND (45_packet_assembler.md R177). -/
def spAppendBody (n : BitVec 3) (s : State) : Except Stop State := do
  let count ← byteCount n
  require (s.spState = .filling) .stateError
  require (s.spWp.toNat + count ≤ Config.maxDataSize) .oversizedPayload
  return { s with
    tx := s.tx.writeList (20 + s.spWp.toNat) (wordBytes s.arg1 count)
    spWp := BitVec.ofNat 32 (s.spWp.toNat + count) }

/-- SP_APPEND (45_packet_assembler.md R177). -/
def execSpAppend (n : BitVec 3) (s : State) : Host.Outcome State Fault Refusal :=
  endCommand s (spAppendBody n s)

/-- The header SP_FINALIZE checks and hashes: SP_HDR with `size` the payload cursor
(45_packet_assembler.md R178). -/
def State.sizedHeader (s : State) : PacketHeader := { s.spHdr with size := s.spWp.setWidth 16 }

/-- The body of SP_FINALIZE (45_packet_assembler.md R178). -/
def spFinalizeBody (P : Config.Params) (s : State) : Except Stop State := do
  require (s.spState = .filling) .stateError
  let data ← (s.tx.source .tx).bytes 20 s.spWp.toNat
  let r ← regionParse P s.sizedHeader.flags data
  let draw := drawMask P .server s.sizedHeader s
  let h : PacketHeader :=
    { s.sizedHeader with checksum := packetChecksum P s.sizedHeader data r draw.1 }
  return { draw.2 with
    tx := s.tx.writeList 0 (encodePH h)
    spHdr := h
    txLen := 20#32 + s.spWp
    spState := .final }

/-- SP_FINALIZE under a configuration (45_packet_assembler.md R178). -/
def runSpFinalize (P : Config.Params) (s : State) : Host.Outcome State Fault Refusal :=
  endCommand s (spFinalizeBody P s)

/-- SP_FINALIZE (45_packet_assembler.md R178). -/
def execSpFinalize (s : State) : Host.Outcome State Fault Refusal := runSpFinalize Config.params s

end Sys2Proof.Machine
end

