-- ==== Sys2Proof/Machine/Dispatch.lean ====
section
/-! DEFINITION. One arm per command: which meaning runs (30_encoding.md R91). -/

namespace Sys2Proof.Machine

open Sys2Proof

def exec (i : Instr) (s : State) : Host.Outcome State Fault Refusal :=
  match i with
  -- 40_control.md
  | .nop => Sys2Proof.Machine.execNop s
  -- 42_packet_header_codec.md
  | .hdrLoad => Sys2Proof.Machine.execHdrLoad s
  | .hdrStore => Sys2Proof.Machine.execHdrStore s
  | .hdrHash => Sys2Proof.Machine.execHdrHash s
  -- 41_fragment_header_codec.md
  | .fhdrLoad => Sys2Proof.Machine.execFhdrLoad s
  | .fhdrStore => Sys2Proof.Machine.execFhdrStore s
  -- 43_optional_header.md
  | .optDecode => Sys2Proof.Machine.execOptDecode s
  -- 45_packet_assembler.md, client direction
  | .cpDecode => Sys2Proof.Machine.execCpDecode s
  -- 44_fragment_codec.md, client direction
  | .cpFragSelect => Sys2Proof.Machine.execCpFragSelect s
  | .cpFragRead n => Sys2Proof.Machine.execCpFragRead n s
  -- 46_checksum.md
  | .cpChecksum => Sys2Proof.Machine.execCpChecksum s
  | .cpVerify => Sys2Proof.Machine.execCpVerify s
  -- 45_packet_assembler.md, server direction
  | .spNew => Sys2Proof.Machine.execSpNew s
  | .spAppend n => Sys2Proof.Machine.execSpAppend n s
  | .spFinalize => Sys2Proof.Machine.execSpFinalize s
  -- 44_fragment_codec.md, server direction
  | .sfNew o => Sys2Proof.Machine.execSfNew o s
  | .sfAppend n => Sys2Proof.Machine.execSfAppend n s
  | .sfEmit => Sys2Proof.Machine.execSfEmit s

end Sys2Proof.Machine
end

