-- ==== Sys2Proof/Machine/HostPort.lean ====
section
/-! DEFINITION. What the host can do to the engine besides starting a command: the register window
(10_state.md R40) and the byte accesses to RX, OBUF and TX (20_memory.md R60, R64, R75). -/

namespace Sys2Proof.Machine

open Sys2Proof

/-! ### The register map -/

/-- The fields of a packet header register set, in the order of their registers (10_state.md R29, R40). -/
inductive PacketField
  | seq | flags | cksum | id | time | size | table
  deriving DecidableEq, Repr

/-- The fields of a fragment header register set, in the order of their registers (10_state.md R32, R40). -/
inductive FragmentField
  | seq | id | count | size | index | group
  deriving DecidableEq, Repr

/-- Every register of the window (10_state.md R40). -/
inductive Reg
  | cmd | status | errseen | res | arg0 | arg1 | rxlen | cpOptlen | cpNfrag | cpFsel | spWp | sfWp
  | txLen
  | hdr (f : PacketField)
  | cpHdr (f : PacketField)
  | spHdr (f : PacketField)
  | fh (f : FragmentField)
  | sf (f : FragmentField)
  deriving DecidableEq, Repr

/-- A packet header register's place in its set. -/
def PacketField.offset : PacketField → Nat
  | .seq => 0x00 | .flags => 0x04 | .cksum => 0x08 | .id => 0x0C | .time => 0x10 | .size => 0x14
  | .table => 0x18

/-- A fragment header register's place in its set. -/
def FragmentField.offset : FragmentField → Nat
  | .seq => 0x00 | .id => 0x04 | .count => 0x08 | .size => 0x0C | .index => 0x10 | .group => 0x14

/-- A register's offset in the window (10_state.md R40). -/
def Reg.offset : Reg → Nat
  | .cmd => 0x00 | .status => 0x04 | .errseen => 0x08 | .res => 0x0C | .arg0 => 0x10 | .arg1 => 0x14
  | .rxlen => 0x18 | .cpOptlen => 0x1C | .cpNfrag => 0x20 | .cpFsel => 0x24 | .spWp => 0x28
  | .sfWp => 0x2C | .txLen => 0x30
  | .hdr f   => 0x40 + f.offset
  | .cpHdr f => 0x60 + f.offset
  | .spHdr f => 0x80 + f.offset
  | .fh f    => 0xA0 + f.offset
  | .sf f    => 0xC0 + f.offset

/-- The seven packet header fields. -/
def PacketField.all : List PacketField := [.seq, .flags, .cksum, .id, .time, .size, .table]

/-- The six fragment header fields. -/
def FragmentField.all : List FragmentField := [.seq, .id, .count, .size, .index, .group]

/-- Every register once. -/
def Reg.all : List Reg :=
  [[Reg.cmd, Reg.status, Reg.errseen, Reg.res, Reg.arg0, Reg.arg1, Reg.rxlen, Reg.cpOptlen,
    Reg.cpNfrag, Reg.cpFsel, Reg.spWp, Reg.sfWp, Reg.txLen],
   PacketField.all.map Reg.hdr, PacketField.all.map Reg.cpHdr, PacketField.all.map Reg.spHdr,
   FragmentField.all.map Reg.fh, FragmentField.all.map Reg.sf].flatten

/-- The register at an offset; `none` at a reserved offset (10_state.md R40). -/
def regAt (offset : Nat) : Option Reg := Reg.all.find? (fun r => r.offset == offset)

/-- A packet header field as its 32-bit register: a u16 field in bits [15:0], the rest 0 (R28). -/
def PacketHeader.get (h : PacketHeader) : PacketField → Word
  | .seq   => h.sequence
  | .flags => h.flags
  | .cksum => h.checksum
  | .id    => h.id.setWidth 32
  | .time  => h.time.setWidth 32
  | .size  => h.size.setWidth 32
  | .table => h.table.setWidth 32

/-- A packet header with one register written: bits [31:16] of a u16 register are ignored (R28). -/
def PacketHeader.put (h : PacketHeader) (v : Word) : PacketField → PacketHeader
  | .seq   => { h with sequence := v }
  | .flags => { h with flags := v }
  | .cksum => { h with checksum := v }
  | .id    => { h with id := v.setWidth 16 }
  | .time  => { h with time := v.setWidth 16 }
  | .size  => { h with size := v.setWidth 16 }
  | .table => { h with table := v.setWidth 16 }

/-- A fragment header field as its 32-bit register (R28). -/
def FragmentHeader.get (h : FragmentHeader) : FragmentField → Word
  | .seq   => h.sequence
  | .id    => h.id
  | .count => h.count.setWidth 32
  | .size  => h.size.setWidth 32
  | .index => h.index.setWidth 32
  | .group => h.group.setWidth 32

/-- A fragment header with one register written (R28). -/
def FragmentHeader.put (h : FragmentHeader) (v : Word) : FragmentField → FragmentHeader
  | .seq   => { h with sequence := v }
  | .id    => { h with id := v }
  | .count => { h with count := v.setWidth 16 }
  | .size  => { h with size := v.setWidth 16 }
  | .index => { h with index := v.setWidth 16 }
  | .group => { h with group := v.setWidth 16 }

/-- What a host read of a register returns (10_state.md R23 to R40). CMD has no storage and reads 0. -/
def State.readReg (s : State) : Reg → Word
  | .cmd      => 0#32
  | .status   => s.statusWord
  | .errseen  => s.errseen
  | .res      => s.res
  | .arg0     => s.arg0
  | .arg1     => s.arg1
  | .rxlen    => s.rxlen
  | .cpOptlen => s.cpOptlen
  | .cpNfrag  => BitVec.ofNat 32 s.cpNfrag
  | .cpFsel   => s.cpFsel
  | .spWp     => s.spWp
  | .sfWp     => s.sfWp
  | .txLen    => s.txLen
  | .hdr f    => s.hdr.get f
  | .cpHdr f  => s.cpHdr.get f
  | .spHdr f  => s.spHdr.get f
  | .fh f     => s.fh.get f
  | .sf f     => s.sfHdr.get f

/-- A write to SP_HDR: only SEQ, TIME and TABLE are writable (10_state.md R31, R40). -/
def writeSpHdr (h : PacketHeader) (v : Word) : PacketField → PacketHeader
  | .seq   => h.put v .seq
  | .time  => h.put v .time
  | .table => h.put v .table
  | .flags | .cksum | .id | .size => h

/-- A write to SF_HDR: every field but SIZE is writable (10_state.md R33, R40). -/
def writeSfHdr (h : FragmentHeader) (v : Word) : FragmentField → FragmentHeader
  | .size  => h
  | .seq   => h.put v .seq
  | .id    => h.put v .id
  | .count => h.put v .count
  | .index => h.put v .index
  | .group => h.put v .group

/-- RXLEN's write-any-read-legal rule (10_state.md R27). -/
def clampRxlen (P : Config.Params) (v : Word) : Word := BitVec.ofNat 32 (min v.toNat P.rxCap)

/-- A host write to a register other than CMD: writes to read-only registers are ignored
(10_state.md R25 to R40). A write to CMD starts a command and is taken before this. -/
def State.writeReg (P : Config.Params) (s : State) (v : Word) : Reg → State
  | .arg0    => { s with arg0 := v }
  | .arg1    => { s with arg1 := v }
  | .rxlen   => { s with rxlen := clampRxlen P v }
  | .hdr f   => { s with hdr := s.hdr.put v f }
  | .spHdr f => { s with spHdr := writeSpHdr s.spHdr v f }
  | .fh f    => { s with fh := s.fh.put v f }
  | .sf f    => { s with sfHdr := writeSfHdr s.sfHdr v f }
  | .cmd | .status | .errseen | .res | .cpOptlen | .cpNfrag | .cpFsel | .spWp | .sfWp | .txLen
  | .cpHdr _ => s

/-! ### Host accesses -/

/-- The value of a byte the host may read (20_memory.md R75): a TX byte at or above `20 + SP_WP` has
none, even if it was written before. -/
def State.hostByte (s : State) : Space → Nat → Option Byte
  | .tx, a => if a < 20 + s.spWp.toNat then s.tx.read a else none
  | sp, a  => (s.buffer sp).read a

/-- A register-window access is aligned and 32 bits wide (20_memory.md R64). -/
abbrev wordAccess (a : Nat) (w : AccessWidth) : Prop := w = .word ∧ a % 4 = 0

/-- A host read (10_state.md R40, 20_memory.md R60, R64, R75): no space has a side effect on read. -/
def hostRead (P : Config.Params) (sp : Space) (a : Nat) (w : AccessWidth) (s : State) :
    Host.Outcome State Fault Refusal :=
  match sp with
  | .regs =>
    if wordAccess a w then
      if a < spaceSize P .regs then
        match regAt a with
        | some r => .next { s with observed := some (.word (s.readReg r)) }
        | none   => .next { s with observed := some (.word 0#32) }
      else .fault (.outsideSpace .regs a)
    else .refused (.registerAccessNotWord a)
  | .cpd | .sfb => .refused (.bufferInternal sp a)
  | .rx | .obuf | .tx =>
    if w = .byte then
      if a < spaceSize P sp then
        match s.hostByte sp a with
        | some b => .next { s with observed := some (.byte b) }
        | none   => .fault (.noValue sp a)
      else .fault (.outsideSpace sp a)
    else .refused (.bufferAccessNotByte sp a)

/-- A host write other than the one that starts a command (10_state.md R40, 20_memory.md R60, R64). -/
def hostWrite (P : Config.Params) (sp : Space) (a : Nat) (w : AccessWidth) (v : Word) (s : State) :
    Host.Outcome State Fault Refusal :=
  match sp with
  | .regs =>
    if wordAccess a w then
      if a < spaceSize P .regs then
        match regAt a with
        | some r => .next (s.writeReg P v r)
        | none   => .next s
      else .fault (.outsideSpace .regs a)
    else .refused (.registerAccessNotWord a)
  | .cpd | .sfb => .refused (.bufferInternal sp a)
  | .obuf | .tx => .refused (.bufferReadOnly sp a)
  | .rx =>
    if w = .byte then
      if a < spaceSize P .rx then .next { s with rx := s.rx.write a (v.setWidth 8) }
      else .fault (.outsideSpace .rx a)
    else .refused (.bufferAccessNotByte .rx a)

/-! ### The platform binding -/

/-- The base addresses a platform gives the four spaces the host reaches (20_memory.md R61,
92_eei_decisions.md D8: `REG_BASE`, `RX_BASE`, `OBUF_BASE`, `TX_BASE`). Log entry 16. -/
structure PlatformBases where
  regBase : Nat
  rxBase : Nat
  obufBase : Nat
  txBase : Nat
  deriving DecidableEq, Repr

/-- A space's offset for a platform address, if the address lies in the space placed at `base`. -/
def offsetIn (P : Config.Params) (sp : Space) (base addr : Nat) : Option (Space × Nat) :=
  if base ≤ addr ∧ addr < base + spaceSize P sp then some (sp, addr - base) else none

/-- The space and the offset a platform address stands for (20_memory.md R61). -/
def platformTarget (P : Config.Params) (B : PlatformBases) (addr : Nat) : Option (Space × Nat) :=
  [offsetIn P .regs B.regBase addr, offsetIn P .rx B.rxBase addr, offsetIn P .obuf B.obufBase addr,
   offsetIn P .tx B.txBase addr].findSome? id

end Sys2Proof.Machine
end

