-- ==== Sys2Proof/Machine/Command.lean ====
section
/-! DEFINITION. The engine step (40_control.md R110) and the host's actions (10_state.md R20, R24,
70_reset_and_hazards.md R241). -/

namespace Sys2Proof.Machine

open Sys2Proof

/-- `Step(w)` (40_control.md R110): a word that is not legal ends with IllegalCommand and changes nothing
else (30_encoding.md R92), any other runs its command. -/
def runCommand (w : Word) (s : State) : Host.Outcome State Fault Refusal :=
  match decode w with
  | .ok i    => exec i s
  | .error _ => endCommand s (raise .illegalCommand)

/-- The host write that starts a command: an aligned 32-bit write to CMD (10_state.md R24, R40). -/
abbrev startsCommand (sp : Space) (a : Nat) (w : AccessWidth) : Prop :=
  sp = .regs ∧ a = Reg.cmd.offset ∧ w = .word

/-- One action of the host, done whole (20_memory.md R70). -/
def hostAct (act : HostAction) (s : State) : Host.Outcome State Fault Refusal :=
  match act with
  | .read sp a w    => hostRead Config.params sp a w s
  | .write sp a w v =>
    if startsCommand sp a w then runCommand v s else hostWrite Config.params sp a w v s
  | .reset          => .next s.resetEngine

/-- The next action of the run, and what happens when there is none: the engine holds its state and does
nothing (60_exceptions.md R224, 70_reset_and_hazards.md R241). -/
def takeAction (s : State) : Host.Outcome State Fault Refusal :=
  match s.host with
  | []          => .next s
  | act :: rest => hostAct act { s with host := rest }

/-- The host action that writes a command word to CMD. -/
def commandWrite (w : Word) : HostAction := .write .regs Reg.cmd.offset .word w

end Sys2Proof.Machine
end

