-- ==== Sys2Proof/Machine/Step.lean ====
section
/-! DEFINITION. One step of the machine: the next action of the host (70_reset_and_hazards.md R241: each
action is one step). -/

namespace Sys2Proof.Machine

open Sys2Proof

/-- One step. -/
def step (s : State) : Host.Outcome State Fault Refusal := takeAction s

/-- `s` with the write of an opcode-table word to CMD as the host's next action. The engine fetches no
instructions (20_memory.md R73): this is where its next command comes from. Log entry 6. -/
def State.withFetchWord (s : State) (nbits w : Nat) : State :=
  { s with host := commandWrite (tableWord nbits w) :: s.host }

end Sys2Proof.Machine
end

