-- ==== Sys2Proof/Machine/Assembler.lean ====
section
/-! DEFINITION. Host programs: the lines of 30_encoding.md R95 and the pseudo-instructions of R96, as
what they make the host do. Text is not parsed. Log entry 17. -/

namespace Sys2Proof.Machine

open Sys2Proof

/-- One line of a host program (30_encoding.md R95), or a raw command word (95_test_vectors.md P5). -/
inductive AsmLine
  /-- `wr <REG>, <value>` -/
  | wr (r : Reg) (v : Word)
  /-- `rd <REG>` -/
  | rd (r : Reg)
  /-- `rxw <offset>: <byte> <byte> ...` -/
  | rxw (offset : Nat) (bytes : List Byte)
  /-- `<mnemonic>`, `<mnemonic> <N>`, `SF_NEW` or `SF_NEW.OP` -/
  | command (i : Instr)
  /-- a command word written as a number -/
  | raw (w : Word)
  deriving DecidableEq, Repr

/-- The host writes of `rxw`: consecutive bytes. -/
def rxWrites (offset : Nat) : List Byte → List HostAction
  | []      => []
  | b :: bs => .write .rx offset .byte (b.setWidth 32) :: rxWrites (offset + 1) bs

/-- What one line makes the host do (30_encoding.md R95). -/
def AsmLine.actions : AsmLine → List HostAction
  | .wr r v       => [.write .regs r.offset .word v]
  | .rd r         => [.read .regs r.offset .word]
  | .rxw o bytes  => rxWrites o bytes
  | .command i    => [commandWrite (encode i)]
  | .raw w        => [commandWrite w]

/-- The sizes `.B`, `.H` and `.W` of an append pseudo-instruction (30_encoding.md R96). -/
inductive AppendSize
  | b | h | w
  deriving DecidableEq, Repr

/-- The byte count of an append size (30_encoding.md R96). -/
def AppendSize.count : AppendSize → BitVec 3
  | .b => 1#3
  | .h => 2#3
  | .w => 4#3

/-- The pseudo-instructions (30_encoding.md R96). -/
inductive Pseudo
  | hdrLoadAt (o : Word)
  | fhdrLoadAt (o : Word)
  | optDecodeAt (o : Word)
  | cpFragSelectAt (i : Word)
  | spNewWith (id flags : Word)
  | spAppendSized (size : AppendSize) (v : Word)
  | sfAppendSized (size : AppendSize) (v : Word)
  | sfNewGroup (g : Word)
  | sfNewGroupOp (g op : Word)
  deriving DecidableEq, Repr

/-- A pseudo-instruction's expansion (30_encoding.md R96). -/
def Pseudo.expand : Pseudo → List AsmLine
  | .hdrLoadAt o          => [.wr .arg0 o, .command .hdrLoad]
  | .fhdrLoadAt o         => [.wr .arg0 o, .command .fhdrLoad]
  | .optDecodeAt o        => [.wr .arg0 o, .command .optDecode]
  | .cpFragSelectAt i     => [.wr .arg0 i, .command .cpFragSelect]
  | .spNewWith id flags   => [.wr .arg0 id, .wr .arg1 flags, .command .spNew]
  | .spAppendSized size v => [.wr .arg1 v, .command (.spAppend size.count)]
  | .sfAppendSized size v => [.wr .arg1 v, .command (.sfAppend size.count)]
  | .sfNewGroup g         => [.wr .arg0 g, .command (.sfNew false)]
  | .sfNewGroupOp g op    => [.wr .arg0 g, .wr .arg1 op, .command (.sfNew true)]

/-- The host actions of a program. -/
def assemble (lines : List AsmLine) : List HostAction := lines.flatMap AsmLine.actions

end Sys2Proof.Machine
end

