-- ==== Sys2Proof/Safety.lean ====
section
/-! DEFINITION. The terms claims are stated in: the invariants of 10_state.md R56, the whole invariant of
the machine, and what the spec's formulas say of bytes and checksums, written without the machine's own
codecs. -/

namespace Sys2Proof.Machine

open Sys2Proof

/-! ### Bytes in a buffer -/

/-- Buffer `m` holds the bytes `bs` from address `a` on. -/
def Memory.holds (m : Memory) (a : Nat) (bs : List Byte) : Prop :=
  ∀ j, j < bs.length → m.read (a + j) = bs[j]?

/-- `m'` is `m` with the bytes `bs` from address `a` on and no other byte changed. -/
def Memory.storedAt (m m' : Memory) (a : Nat) (bs : List Byte) : Prop :=
  m'.holds a bs ∧ ∀ x, (x < a ∨ a + bs.length ≤ x) → m'.read x = m.read x

/-- Every byte of `[a, b)` of the buffer has a value. -/
def Memory.definedOn (m : Memory) (a b : Nat) : Prop := ∀ x, a ≤ x → x < b → (m.read x).isSome = true

/-- Every byte of `[a, b)` of the source has a value. -/
def Source.definedOn (src : Source) (a b : Nat) : Prop :=
  ∀ x, a ≤ x → x < b → (src.get x).isSome = true

/-- No listed address is at or past `size`. -/
def Memory.below (m : Memory) (size : Nat) : Prop := ∀ c ∈ m, c.1 < size

/-- No byte of any buffer differs between the two states. -/
def sameBytes (s t : State) : Prop := ∀ sp x, (t.buffer sp).read x = (s.buffer sp).read x

/-! ### States an error leaves -/

/-- `s` after a command that raised `e` and changed nothing else (60_exceptions.md R205). -/
def State.failed (s : State) (e : Err) : State :=
  { s with err := some e, errseen := s.errseen ||| 1#32 <<< e.code }

/-- `s` after a CP_DECODE that raised `e`: the client packet is gone (45_packet_assembler.md R171). -/
def State.clientGone (s : State) (e : Err) : State :=
  { s with
    err := some e, errseen := s.errseen ||| 1#32 <<< e.code
    cpValid := false, cpHdr := ⟨0#32, 0#32, 0#32, 0#16, 0#16, 0#16, 0#16⟩, cpOptlen := 0#32
    frags := [], cpFsel := 0#32 }

/-- The commands 60_exceptions.md R200 names for an error code. IllegalCommand is named for any write to
CMD; a command that has been decoded never raises it. -/
def Err.raisedBy (e : Err) (i : Instr) : Prop :=
  match e with
  | .truncatedInput =>
    i = .hdrLoad ∨ i = .fhdrLoad ∨ i = .optDecode ∨ i = .cpDecode ∨ (∃ n, i = .cpFragRead n)
      ∨ i = .spFinalize
  | .oversizedPayload => (∃ n, i = .spAppend n) ∨ (∃ n, i = .sfAppend n) ∨ i = .sfEmit
  | .checksumMismatch => i = .cpVerify
  | .invalidFlagCombination => i = .cpDecode ∨ i = .spNew
  | .invalidFragmentSize => i = .cpDecode ∨ i = .spFinalize
  | .illegalCommand => False
  | .stateError =>
    i = .cpFragSelect ∨ (∃ n, i = .cpFragRead n) ∨ i = .cpChecksum ∨ i = .cpVerify
      ∨ (∃ n, i = .spAppend n) ∨ i = .spFinalize ∨ (∃ n, i = .sfAppend n) ∨ i = .sfEmit
  | .outOfRange =>
    i = .hdrLoad ∨ i = .fhdrLoad ∨ i = .optDecode ∨ i = .cpFragSelect ∨ ∃ n, i = .cpFragRead n

/-! ### Wire bytes and checksums as the rules write them -/

/-- The four bytes of a u32, the lowest first (00_scope.md R15). -/
def wordLE (v : Word) : List Byte :=
  [v.extractLsb' 0 8, v.extractLsb' 8 8, v.extractLsb' 16 8, v.extractLsb' 24 8]

/-- The low `n` bytes of a register: byte `j` is bits [8j+7:8j] (20_memory.md R63). -/
def lowBytes (v : Word) (n : Nat) : List Byte := (wordLE v).take n

/-- The 20 bytes of a packet header (30_encoding.md R80), its checksum field holding `c`. -/
def packetBytes (h : PacketHeader) (c : Word) : List Byte :=
  [h.sequence.extractLsb' 0 8, h.sequence.extractLsb' 8 8, h.sequence.extractLsb' 16 8,
   h.sequence.extractLsb' 24 8, h.flags.extractLsb' 0 8, h.flags.extractLsb' 8 8,
   h.flags.extractLsb' 16 8, h.flags.extractLsb' 24 8, c.extractLsb' 0 8, c.extractLsb' 8 8,
   c.extractLsb' 16 8, c.extractLsb' 24 8, h.id.extractLsb' 0 8, h.id.extractLsb' 8 8,
   h.time.extractLsb' 0 8, h.time.extractLsb' 8 8, h.size.extractLsb' 0 8, h.size.extractLsb' 8 8,
   h.table.extractLsb' 0 8, h.table.extractLsb' 8 8]

/-- The 16 bytes of a fragment header (30_encoding.md R81). -/
def fragmentBytes (h : FragmentHeader) : List Byte :=
  [h.sequence.extractLsb' 0 8, h.sequence.extractLsb' 8 8, h.sequence.extractLsb' 16 8,
   h.sequence.extractLsb' 24 8, h.id.extractLsb' 0 8, h.id.extractLsb' 8 8, h.id.extractLsb' 16 8,
   h.id.extractLsb' 24 8, h.count.extractLsb' 0 8, h.count.extractLsb' 8 8, h.size.extractLsb' 0 8,
   h.size.extractLsb' 8 8, h.index.extractLsb' 0 8, h.index.extractLsb' 8 8, h.group.extractLsb' 0 8,
   h.group.extractLsb' 8 8]

/-- The checksum of a packet as 46_checksum.md R190 and R191 compute it: `optLen` bytes of optional
header, fragments `(offset, size)`, and the mask given. -/
def checksumFormula (h : PacketHeader) (data : List Byte) (optLen : Nat) (frags : List (Nat × Nat))
    (mask : Word) : Word :=
  Config.hash32 (packetBytes h 0x0BADD70D#32) +
    ((if has Config.params h.flags .blobFragments then
        Config.hash32 (data.take optLen) +
          (frags.map (fun f => Config.hash32 ((data.drop f.1).take 16)
            + Config.hash32 ((data.drop (f.1 + 16)).take (f.2 - 16)))).sum
      else Config.hash32 data) ^^^ mask)

/-- The mask a checksum command folds in, in state `s` (46_checksum.md R191): the draw of the query, or
0 without EncryptedChecksum. -/
def maskIn (s : State) (dir : Direction) (h : PacketHeader) : Word :=
  if has Config.params h.flags .encryptedChecksum then Config.keystreamDraw dir h.sequence s.ksDraws
  else 0#32

/-- How many keystream queries have been made after a checksum command on `h` in state `s`. -/
def drawsAfter (s : State) (h : PacketHeader) : Nat :=
  if has Config.params h.flags .encryptedChecksum then s.ksDraws + 1 else s.ksDraws

/-- The offset and size of each fragment of the table. -/
def State.fragSpans (s : State) : List (Nat × Nat) := s.frags.map (fun f => (f.off, f.hdr.size.toNat))

/-- The bytes a flag adds to the optional header region, `n` of them if it is set. -/
def optPart (flags : Word) (f : Flag) (n : Nat) : Nat := if has Config.params flags f then n else 0

/-- The bytes of the optional header region under `flags` (30_encoding.md R82), the counts of its two
retransmit blocks given. -/
def optTotal (flags : Word) (req rej : Nat) : Nat :=
  optPart flags .serverSwitch 8 + optPart flags .requestRetransmit (4 + req)
    + optPart flags .rejectRetransmit (4 + rej) + optPart flags .ackSequence 4
    + optPart flags .cicmdCommand 8 + optPart flags .timeSync 8 + optPart flags .echoRequest 4
    + optPart flags .echoResponse 8 + optPart flags .flow 6

/-- The spans of the optional header region in the order in which they are read whole (20_memory.md R66,
30_encoding.md R82): each block of a flag that is set, a retransmit block as its prefix and its bytes. -/
def optSpans (flags : Word) (req rej : Nat) : List Nat :=
  [optPart flags .serverSwitch 8, optPart flags .requestRetransmit 4,
   optPart flags .requestRetransmit req, optPart flags .rejectRetransmit 4,
   optPart flags .rejectRetransmit rej, optPart flags .ackSequence 4, optPart flags .cicmdCommand 8,
   optPart flags .timeSync 8, optPart flags .echoRequest 4, optPart flags .echoResponse 8,
   optPart flags .flow 6]

/-- Where the first `k` spans of the region OPT_DECODE measures end. -/
def State.optEnd (s : State) (req rej : Word) (k : Nat) : Nat :=
  s.arg0.toNat + ((optSpans s.hdr.flags req.toNat rej.toNat).take k).sum

/-- The prefixes of the retransmit blocks OPT_DECODE meets, those that end at or before `limit`, hold the
counts `req` and `rej`. -/
def State.optCounts (s : State) (limit : Nat) (req rej : Word) : Prop :=
  (has Config.params s.hdr.flags .requestRetransmit = true → s.optEnd req rej 2 ≤ limit →
    s.rx.holds (s.optEnd req rej 1) (wordLE req))
  ∧ (has Config.params s.hdr.flags .rejectRetransmit = true → s.optEnd req rej 4 ≤ limit →
    s.rx.holds (s.optEnd req rej 3) (wordLE rej))

/-- No flag of the optional-header table is set (43_optional_header.md R140). -/
def noOptions (P : Config.Params) (flags : Word) : Prop := ∀ c ∈ optTable, has P flags c.1 = false

/-! ### Registers -/

/-- The registers the host can write and read back (10_state.md R40: RW), but RXLEN, whose write is
clamped, with the bits they keep (10_state.md R28). -/
def Reg.storesMask : Reg → Option Word
  | .arg0 | .arg1 => some 0xFFFFFFFF#32
  | .hdr .seq | .hdr .flags | .hdr .cksum => some 0xFFFFFFFF#32
  | .hdr .id | .hdr .time | .hdr .size | .hdr .table => some 0x0000FFFF#32
  | .spHdr .seq => some 0xFFFFFFFF#32
  | .spHdr .time | .spHdr .table => some 0x0000FFFF#32
  | .fh .seq | .fh .id => some 0xFFFFFFFF#32
  | .fh .count | .fh .size | .fh .index | .fh .group => some 0x0000FFFF#32
  | .sf .seq | .sf .id => some 0xFFFFFFFF#32
  | .sf .count | .sf .index | .sf .group => some 0x0000FFFF#32
  | _ => none

/-- The registers whose host writes are ignored (10_state.md R40: RO). -/
def Reg.readOnly : Reg → Prop
  | .status | .errseen | .res | .cpOptlen | .cpNfrag | .cpFsel | .spWp | .sfWp | .txLen => True
  | .cpHdr _ => True
  | .spHdr .flags | .spHdr .cksum | .spHdr .id | .spHdr .size => True
  | .sf .size => True
  | _ => False

/-- What a packet header register set shows from its first offset on (10_state.md R28, R29, R40). -/
def packetRegisters (base : Nat) (h : PacketHeader) : List (Nat × Word) :=
  [(base, h.sequence), (base + 0x04, h.flags), (base + 0x08, h.checksum), (base + 0x0C, 0#16 ++ h.id),
   (base + 0x10, 0#16 ++ h.time), (base + 0x14, 0#16 ++ h.size), (base + 0x18, 0#16 ++ h.table)]

/-- What a fragment header register set shows from its first offset on (10_state.md R28, R32, R40). -/
def fragmentRegisters (base : Nat) (h : FragmentHeader) : List (Nat × Word) :=
  [(base, h.sequence), (base + 0x04, h.id), (base + 0x08, 0#16 ++ h.count),
   (base + 0x0C, 0#16 ++ h.size), (base + 0x10, 0#16 ++ h.index), (base + 0x14, 0#16 ++ h.group)]

/-- Every register but CMD, which reads 0, and STATUS, whose fields are laid out on their own: its offset
and what it holds (10_state.md R40). -/
def State.registerValues (s : State) : List (Nat × Word) :=
  [(0x08, s.errseen), (0x0C, s.res), (0x10, s.arg0), (0x14, s.arg1), (0x18, s.rxlen), (0x1C, s.cpOptlen),
   (0x20, BitVec.ofNat 32 s.frags.length), (0x24, s.cpFsel), (0x28, s.spWp), (0x2C, s.sfWp),
   (0x30, s.txLen)]
    ++ packetRegisters 0x40 s.hdr ++ packetRegisters 0x60 s.cpHdr ++ packetRegisters 0x80 s.spHdr
    ++ fragmentRegisters 0xA0 s.fh ++ fragmentRegisters 0xC0 s.sfHdr

/-- The reserved offsets of the window (10_state.md R40). -/
def reservedOffsets : List Nat :=
  [0x34, 0x38, 0x3C, 0x5C, 0x7C, 0x9C, 0xB8, 0xBC, 0xD8, 0xDC, 0xE0, 0xE4, 0xE8, 0xEC, 0xF0, 0xF4,
   0xF8, 0xFC]

/-! ### Legal command words -/

/-- The words 30_encoding.md R92 makes illegal, by the number the word is: an opcode outside the map of
R91, a bit the format requires to be 0, or a count of 0 or more than 4. -/
def illegalWord (w : Word) : Prop :=
  let opc := w.toNat % 256
  let n := w.toNat / 256 % 8
  opc ∉ [0x00, 0x01, 0x02, 0x03, 0x04, 0x05, 0x08, 0x10, 0x11, 0x12, 0x13, 0x14, 0x20, 0x21, 0x22,
      0x28, 0x29, 0x2A]
    ∨ (opc ∉ [0x12, 0x21, 0x28, 0x29] ∧ w.toNat / 256 ≠ 0)
    ∨ (opc ∈ [0x12, 0x21, 0x29] ∧ (w.toNat / 2048 ≠ 0 ∨ n = 0 ∨ 4 < n))
    ∨ (opc = 0x28 ∧ w.toNat / 512 ≠ 0)

/-! ### Invariants -/

/-- The bytes the fragments of the table take. -/
def fragSum (fs : List FragEntry) : Nat := (fs.map (fun f => f.hdr.size.toNat)).sum

/-- The fragments lie back to back from offset `p` on, each at least 16 bytes, with every cursor inside
its payload (10_state.md R35, 44_fragment_codec.md R151). -/
def fragsTile : Nat → List FragEntry → Prop
  | _, []      => True
  | p, f :: fs =>
    f.off = p ∧ 16 ≤ f.hdr.size.toNat ∧ f.cur ≤ f.hdr.size.toNat - 16
      ∧ fragsTile (p + f.hdr.size.toNat) fs

/-- The invariants of 10_state.md R56, as listed there. -/
structure State.R56 (P : Config.Params) (s : State) : Prop where
  spWp_le : s.spWp.toNat ≤ 448
  sfWp_le : s.sfWp.toNat ≤ 448
  final_size : s.spState = .final → s.spHdr.size.toNat = s.spWp.toNat
  final_txLen : s.spState = .final → s.txLen.toNat = 20 + s.spWp.toNat
  invalid_frags : s.cpValid = false → s.cpNfrag = 0
  valid_sum : s.cpValid = true → has P s.cpHdr.flags .blobFragments = true →
    s.cpOptlen.toNat + fragSum s.frags = s.cpHdr.size.toNat
  valid_opt : s.cpValid = true → s.cpOptlen.toNat ≤ s.cpHdr.size.toNat
  rxlen_le : s.rxlen.toNat ≤ P.rxCap

/-- The whole invariant of the machine: R56, and what the rules imply of the buffers, the fragment
table, the builders and the error history. -/
structure State.Inv (P : Config.Params) (s : State) : Prop where
  r56 : s.R56 P
  /-- Every buffer is in canonical form and inside its space (20_memory.md R60). -/
  wf : ∀ sp, (s.buffer sp).wf
  inside : ∀ sp, (s.buffer sp).below (spaceSize P sp)
  /-- TX_LEN is 0 unless Final (10_state.md R36). -/
  txLen_zero : s.spState ≠ .final → s.txLen = 0#32
  sp_empty : s.spState = .empty → s.spWp = 0#32
  sf_empty : s.sfState = .empty → s.sfWp = 0#32
  /-- A server packet was constructed with valid flags (60_exceptions.md R203). -/
  sp_flags : s.spState ≠ .empty → flagsValid P s.spHdr.flags = true
  /-- The fragments lie back to back from the end of the optional region (45_packet_assembler.md R170). -/
  tiled : s.cpValid = true → fragsTile s.cpOptlen.toNat s.frags
  /-- Without BlobFragments there are none. -/
  plain : s.cpValid = true → has P s.cpHdr.flags .blobFragments = false → s.frags = []
  /-- The selected fragment exists, or none was selected yet. -/
  fsel : s.cpFsel = 0#32 ∨ s.cpFsel.toNat < s.cpNfrag
  /-- The bytes the engine may read of its own buffers have values (20_memory.md R75). -/
  cpd_defined : s.cpValid = true → s.cpd.definedOn 0 s.cpHdr.size.toNat
  tx_defined : s.spState ≠ .empty → s.tx.definedOn 20 (20 + s.spWp.toNat)
  sfb_defined : s.sfb.definedOn 0 s.sfWp.toNat
  /-- ERRSEEN uses only bits [8:1] (10_state.md R26). -/
  errseen_bits : s.errseen &&& 0xFFFFFE01#32 = 0#32
  /-- The last error is in the history (60_exceptions.md R205, R209). -/
  err_noted : ∀ e, s.err = some e → s.errseen.getLsbD e.code = true

end Sys2Proof.Machine
end

