-- ==== Sys2Proof/Certificates/Slice0/Obligations.lean ====
section
/-! DEFINITION. The statements about the engine, each from the rules of spec/ its docstring names. -/

open Sys2Proof Sys2Proof.Machine

/-! ### Command words and the engine step -/

/-- The command words of 30_encoding.md R97. -/
def Obligations.CommandWordsDecodeAsListed : Prop :=
  (decode 0x00000421#32 = .ok (.spAppend 4#3) ∧ decode 0x00000121#32 = .ok (.spAppend 1#3)
    ∧ decode 0x00000429#32 = .ok (.sfAppend 4#3) ∧ decode 0x00000412#32 = .ok (.cpFragRead 4#3))
  ∧ (decode 0x00000028#32 = .ok (.sfNew false) ∧ decode 0x00000128#32 = .ok (.sfNew true))
  ∧ (decode 0x00000000#32 = .ok .nop ∧ decode 0x00000001#32 = .ok .hdrLoad
    ∧ decode 0x00000002#32 = .ok .hdrStore ∧ decode 0x00000003#32 = .ok .hdrHash
    ∧ decode 0x00000004#32 = .ok .fhdrLoad ∧ decode 0x00000005#32 = .ok .fhdrStore
    ∧ decode 0x00000008#32 = .ok .optDecode ∧ decode 0x00000010#32 = .ok .cpDecode
    ∧ decode 0x00000011#32 = .ok .cpFragSelect ∧ decode 0x00000013#32 = .ok .cpChecksum
    ∧ decode 0x00000014#32 = .ok .cpVerify ∧ decode 0x00000020#32 = .ok .spNew
    ∧ decode 0x00000022#32 = .ok .spFinalize ∧ decode 0x0000002A#32 = .ok .sfEmit)

/-- Every word has at most one reading and every legal command exactly one word: a word decodes to a
command exactly when that command is well-formed and encodes to the word (30_encoding.md R90 to R92). -/
def Obligations.DecodeAgreesWithEncode : Prop :=
  ∀ (w : Word) (i : Instr), decode w = .ok i ↔ i.WellFormed ∧ encode i = w

/-- 30_encoding.md R92: an illegal word ends with IllegalCommand and changes nothing else; every other
word is a command. -/
def Obligations.IllegalWordChangesNothingElse : Prop :=
  (∀ (s : State) (w : Word) (rest : List HostAction),
    s.host = .write .regs 0x00 .word w :: rest → illegalWord w →
      step s = .next { s with
        host := rest, err := some .illegalCommand, errseen := s.errseen ||| 0x00000040#32 })
  ∧ ∀ w : Word, ¬ illegalWord w → ∃ i, decode w = .ok i

/-- 10_state.md R24: a write of `w` to CMD runs the command of `w`, or ends as an illegal one, and CMD
reads 0. -/
def Obligations.CmdWriteRunsTheCommand : Prop :=
  ∀ (s : State) (rest : List HostAction),
    (∀ (w : Word) (i : Instr), s.host = .write .regs 0x00 .word w :: rest → decode w = .ok i →
      step s = exec i { s with host := rest })
    ∧ (∀ (w : Word) (e : DecodeError), s.host = .write .regs 0x00 .word w :: rest →
      decode w = .error e → step s = .next (State.failed { s with host := rest } .illegalCommand))
    ∧ (s.host = .read .regs 0x00 .word :: rest →
      step s = .next { s with host := rest, observed := some (.word 0#32) })

/-- A placed opcode-table word is the very next thing that runs (10_state.md R24, 20_memory.md R73, log entry
6). -/
def Obligations.PlacedWordRunsNext : Prop :=
  ∀ (s : State) (nbits w : Nat) (i : Instr), decodeTableWord nbits w = some i →
    step (s.withFetchWord nbits w) = exec i s

/-- With no action left the engine holds its state (60_exceptions.md R224, 70_reset_and_hazards.md R241).
That a step then answers the same state is the model's choice (log entry 6). -/
def Obligations.IdleStepHoldsState : Prop := ∀ s : State, s.host = [] → step s = .next s

/-- 40_control.md R111: NOP sets STATUS.ERR to 0 and changes nothing else; its opcode with any other bit
set is no command. -/
def Obligations.NopClearsTheErrorCode : Prop :=
  (∀ s : State, exec .nop s = .next { s with err := none })
  ∧ decode 0x00000000#32 = .ok .nop
  ∧ ∀ w : Word, w.toNat % 256 = 0 → w ≠ 0#32 → illegalWord w

/-! ### Header codecs -/

/-- 42_packet_header_codec.md R131: every outcome of HDR_LOAD. -/
def Obligations.HdrLoadReadsAPacketHeader : Prop :=
  decode 0x00000001#32 = .ok .hdrLoad ∧ ∀ s : State,
    (s.rxlen.toNat < s.arg0.toNat → exec .hdrLoad s = .next (s.failed .outOfRange))
    ∧ (s.arg0.toNat ≤ s.rxlen.toNat → s.rxlen.toNat < s.arg0.toNat + 20 →
      exec .hdrLoad s = .next (s.failed .truncatedInput))
    ∧ ∀ b : Nat → Byte, s.arg0.toNat + 20 ≤ s.rxlen.toNat →
      (∀ j, j < 20 → s.rx.read (s.arg0.toNat + j) = some (b j)) →
      exec .hdrLoad s = .next { s with
        err := none
        hdr := ⟨b 3 ++ b 2 ++ b 1 ++ b 0, b 7 ++ b 6 ++ b 5 ++ b 4, b 11 ++ b 10 ++ b 9 ++ b 8,
          b 13 ++ b 12, b 15 ++ b 14, b 17 ++ b 16, b 19 ++ b 18⟩ }

/-- 42_packet_header_codec.md R132: HDR_STORE. -/
def Obligations.HdrStoreWritesTwentyBytes : Prop :=
  decode 0x00000002#32 = .ok .hdrStore ∧ ∀ s : State, ∃ m,
    exec .hdrStore s = .next { s with err := none, obuf := m }
    ∧ s.obuf.storedAt m 0 (packetBytes s.hdr s.hdr.checksum)

/-- 42_packet_header_codec.md R133, R134: HDR_HASH hashes the 20 header bytes with the sentinel in the
checksum's place. -/
def Obligations.HdrHashUsesTheSentinel : Prop :=
  decode 0x00000003#32 = .ok .hdrHash ∧ ∀ s : State,
    exec .hdrHash s = .next { s with
      err := none, res := Config.hash32 (packetBytes s.hdr 0x0BADD70D#32) }

/-- 41_fragment_header_codec.md R122: every outcome of FHDR_LOAD. -/
def Obligations.FhdrLoadReadsAFragmentHeader : Prop :=
  decode 0x00000004#32 = .ok .fhdrLoad ∧ ∀ s : State,
    (s.rxlen.toNat < s.arg0.toNat → exec .fhdrLoad s = .next (s.failed .outOfRange))
    ∧ (s.arg0.toNat ≤ s.rxlen.toNat → s.rxlen.toNat < s.arg0.toNat + 16 →
      exec .fhdrLoad s = .next (s.failed .truncatedInput))
    ∧ ∀ b : Nat → Byte, s.arg0.toNat + 16 ≤ s.rxlen.toNat →
      (∀ j, j < 16 → s.rx.read (s.arg0.toNat + j) = some (b j)) →
      exec .fhdrLoad s = .next { s with
        err := none
        fh := ⟨b 3 ++ b 2 ++ b 1 ++ b 0, b 7 ++ b 6 ++ b 5 ++ b 4, b 9 ++ b 8, b 11 ++ b 10,
          b 13 ++ b 12, b 15 ++ b 14⟩ }

/-- 41_fragment_header_codec.md R123: FHDR_STORE; OBUF[16,20) is among the bytes it leaves. -/
def Obligations.FhdrStoreWritesSixteenBytes : Prop :=
  decode 0x00000005#32 = .ok .fhdrStore ∧ ∀ s : State, ∃ m,
    exec .fhdrStore s = .next { s with err := none, obuf := m }
    ∧ s.obuf.storedAt m 0 (fragmentBytes s.fh)

/-- 41_fragment_header_codec.md R124: the fragment header codec's round trips, and as the host sees it. -/
def Obligations.FragmentHeaderRoundTrip : Prop :=
  (∀ (h : FragmentHeader) (sp : Space), decodeFH (listSource sp (encodeFH h)) 0 = .ok h)
  ∧ (∀ (b : List Byte) (sp : Space), b.length = 16 →
    ∃ h, decodeFH (listSource sp b) 0 = .ok h ∧ encodeFH h = b)
  ∧ ∀ s t u : State, exec .fhdrStore s = .next t → u.fh = t.fh →
    u.arg0.toNat + 16 ≤ u.rxlen.toNat →
    (∀ j, j < 16 → u.rx.read (u.arg0.toNat + j) = t.obuf.read j) →
    ∃ v, exec .fhdrLoad u = .next v ∧ v.fh = s.fh

/-- 42_packet_header_codec.md R135: the packet header codec's round trips. -/
def Obligations.PacketHeaderRoundTrip : Prop :=
  (∀ (h : PacketHeader) (sp : Space), decodePH (listSource sp (encodePH h)) 0 = .ok h)
  ∧ ∀ (b : List Byte) (sp : Space), b.length = 20 →
    ∃ h, decodePH (listSource sp b) 0 = .ok h ∧ encodePH h = b

/-- 42_packet_header_codec.md R136: the header hash does not depend on the checksum field, under any
configuration. -/
def Obligations.HeaderHashIgnoresTheChecksum : Prop :=
  ∀ (P : Config.Params) (h : PacketHeader) (c : Word),
    headerHash P { h with checksum := c } = headerHash P h

/-! ### Optional header and fragments -/

/-- 43_optional_header.md R140, R142: every outcome of OPT_DECODE where the spans it reads whole, those that
fit below RXLEN, have values (20_memory.md R66). The two counts are what the prefixes hold wherever the
prefix is inside the region. A unit of one byte is the model's configuration (log entry 5). -/
def Obligations.OptDecodeMeasuresTheRegion : Prop :=
  decode 0x00000008#32 = .ok .optDecode ∧ ∀ s : State,
    (s.rxlen.toNat < s.arg0.toNat → exec .optDecode s = .next (s.failed .outOfRange))
    ∧ ∀ req rej : Word, s.arg0.toNat ≤ s.rxlen.toNat → s.optCounts s.rxlen.toNat req rej →
      (∀ k, s.optEnd req rej k ≤ s.rxlen.toNat →
        s.rx.definedOn s.arg0.toNat (s.optEnd req rej k)) →
      exec .optDecode s = .next
        (if s.arg0.toNat + optTotal s.hdr.flags req.toNat rej.toNat ≤ s.rxlen.toNat then
          { s with err := none, res := BitVec.ofNat 32 (optTotal s.hdr.flags req.toNat rej.toNat) }
        else s.failed .truncatedInput)

/-- 43_optional_header.md R141: the properties of `optLen`, under any configuration. The rule is about a
list of bytes, so where a result is promised the bytes of the region have values. -/
def Obligations.OptLenProperties : Prop :=
  (∀ (P Q : Config.Params) (f g : Word) (src : Source) (start stop : Nat),
    P.retxUnit = Q.retxUnit → (∀ c ∈ optTable, has P f c.1 = has Q g c.1) →
    optLen P f src start stop = optLen Q g src start stop)
  ∧ (∀ (P : Config.Params) (f : Word) (src : Source) (start stop : Nat),
    (∀ c ∈ optTable, has P f c.1 = true ↔ (c.1 = .ackSequence ∨ c.1 = .timeSync)) →
    start + 12 ≤ stop → src.definedOn start stop → optLen P f src start stop = .ok 12)
  ∧ (∀ (P : Config.Params) (f : Word) (src : Source) (start stop n : Nat), start ≤ stop →
    has P f .requestRetransmit = false → has P f .rejectRetransmit = false →
    optLen P f src start stop = .ok n →
    n = (optTable.map (fun c => match c with
      | (fl, .fixed k) => if has P f fl then k else 0
      | (_, .prefixed) => 0)).sum ∧ n ≤ 46)
  ∧ (∀ (P : Config.Params) (src : Source) (stop p : Nat) (n : Word), p + 4 ≤ stop →
    src.definedOn p stop → le32 src p = .ok n →
    optBlock P src stop p .prefixed =
      if p + (4 + n.toNat * P.retxUnit) ≤ stop then .ok (p + (4 + n.toNat * P.retxUnit))
      else .error (.err .truncatedInput))
  ∧ (∀ (P : Config.Params) (f : Word) (src : Source) (start stop : Nat), noOptions P f →
    optLen P f src start stop = .ok 0)
  ∧ ∀ (P : Config.Params) (f : Word) (src : Source) (start stop n : Nat), start ≤ stop →
    optLen P f src start stop = .ok n → start + n ≤ stop

/-- 44_fragment_codec.md R150 to R152, 60_exceptions.md R206: one fragment's checks in their order, and the
loop over them. On success the fragments lie back to back from the start, each at least 16 bytes and its
header decoded where it lies, and their sizes sum to exactly the span; the first that fails decides. -/
def Obligations.FragListFillsTheSpan : Prop :=
  (∀ (src : Source) (p stop : Nat),
    (stop < p + 16 → fragDecode src p stop = .error (.err .truncatedInput))
    ∧ ∀ h : FragmentHeader, p + 16 ≤ stop → decodeFH src p = .ok h →
      (h.size.toNat < 16 → fragDecode src p stop = .error (.err .invalidFragmentSize))
      ∧ (16 ≤ h.size.toNat → stop < p + h.size.toNat →
        fragDecode src p stop = .error (.err .truncatedInput))
      ∧ (16 ≤ h.size.toNat → p + h.size.toNat ≤ stop → fragDecode src p stop = .ok h))
  ∧ (∀ (src : Source) (start stop : Nat) (l : List (Nat × FragmentHeader)), start ≤ stop →
    fragList src start stop = .ok l →
    start + (l.map (fun f => f.2.size.toNat)).sum = stop
    ∧ l.length ≤ (stop - start) / 16
    ∧ ∀ i f, l[i]? = some f →
      f.1 = start + ((l.take i).map (fun g => g.2.size.toNat)).sum
      ∧ 16 ≤ f.2.size.toNat ∧ decodeFH src f.1 = .ok f.2)
  ∧ ∀ (src : Source) (start stop : Nat) (l : List (Nat × FragmentHeader)),
    (∀ i f, l[i]? = some f → f.1 = start + ((l.take i).map (fun g => g.2.size.toNat)).sum
      ∧ fragDecode src f.1 stop = .ok f.2) →
    (start + (l.map (fun f => f.2.size.toNat)).sum = stop → fragList src start stop = .ok l)
    ∧ ∀ e, start + (l.map (fun f => f.2.size.toNat)).sum < stop →
      fragDecode src (start + (l.map (fun f => f.2.size.toNat)).sum) stop = .error e →
      fragList src start stop = .error e

/-- 45_packet_assembler.md R170: a data region is its optional header region, bounded by its end, and with
BlobFragments the fragments from there to its end; without, no fragments. The first part that fails
decides. -/
def Obligations.RegionParseJoinsItsParts : Prop :=
  ∀ (P : Config.Params) (flags : Word) (data : List Byte),
    let src := listSource .cpd data
    (∀ e, optLen P flags src 0 data.length = .error e → regionParse P flags data = .error e)
    ∧ ∀ n, optLen P flags src 0 data.length = .ok n →
      (has P flags .blobFragments = false → regionParse P flags data = .ok ⟨n, []⟩)
      ∧ (has P flags .blobFragments = true →
        (∀ e, fragList src n data.length = .error e → regionParse P flags data = .error e)
        ∧ ∀ l, fragList src n data.length = .ok l → regionParse P flags data = .ok ⟨n, l⟩)

/-! ### The client packet -/

/-- 45_packet_assembler.md R171: every outcome of CP_DECODE, in check order, where the bytes it reads have
values. -/
def Obligations.CpDecodeHoldsOrClearsThePacket : Prop :=
  decode 0x00000010#32 = .ok .cpDecode ∧ ∀ s : State,
    (s.rxlen.toNat < 20 → exec .cpDecode s = .next (s.clientGone .truncatedInput))
    ∧ ∀ h : PacketHeader, 20 ≤ s.rxlen.toNat → s.rx.holds 0 (packetBytes h h.checksum) →
      (flagsValid Config.params h.flags = false →
        exec .cpDecode s = .next (s.clientGone .invalidFlagCombination))
      ∧ (flagsValid Config.params h.flags = true → s.rxlen.toNat < 20 + h.size.toNat →
        exec .cpDecode s = .next (s.clientGone .truncatedInput))
      ∧ ∀ data : List Byte, flagsValid Config.params h.flags = true →
        data.length = h.size.toNat → 20 + h.size.toNat ≤ s.rxlen.toNat → s.rx.holds 20 data →
        (∀ e, regionParse Config.params h.flags data = .error (.err e) →
          exec .cpDecode s = .next (s.clientGone e))
        ∧ ∀ r, regionParse Config.params h.flags data = .ok r → ∃ m,
          exec .cpDecode s = .next { s with
            err := none, cpd := m, cpHdr := h, cpOptlen := BitVec.ofNat 32 r.optLen
            frags := r.frags.map (fun f => ⟨f.1, f.2, 0⟩), cpFsel := 0#32, cpValid := true }
          ∧ s.cpd.storedAt m 0 data

/-- 45_packet_assembler.md R172: back-to-back fragments are found again, in order. -/
def Obligations.FragmentReassembly : Prop :=
  ∀ (s : State) (h : PacketHeader) (parts : List (FragmentHeader × List Byte)),
    has Config.params h.flags .blobFragments = true → noOptions Config.params h.flags →
    flagsValid Config.params h.flags = true →
    (∀ p ∈ parts, p.1.size.toNat = 16 + p.2.length) →
    h.size.toNat = (parts.map (fun p => p.1.size.toNat)).sum →
    20 + h.size.toNat ≤ s.rxlen.toNat →
    s.rx.holds 0 (packetBytes h h.checksum ++ parts.flatMap (fun p => fragmentBytes p.1 ++ p.2)) →
    ∃ t, exec .cpDecode s = .next t ∧ t.err = none ∧ t.cpValid = true ∧ t.cpHdr = h
      ∧ t.cpOptlen = 0#32 ∧ t.cpNfrag = parts.length
      ∧ ∀ i p, parts[i]? = some p → ∃ f, t.frags[i]? = some f
        ∧ f.off = ((parts.take i).map (fun q => q.1.size.toNat)).sum
        ∧ f.hdr = p.1 ∧ f.cur = 0 ∧ f.hdr.size.toNat - 16 = p.2.length

/-- 44_fragment_codec.md R153: every outcome of CP_FRAG_SELECT. -/
def Obligations.CpFragSelectLoadsTheFragment : Prop :=
  decode 0x00000011#32 = .ok .cpFragSelect ∧ ∀ s : State,
    (s.cpValid = false → exec .cpFragSelect s = .next (s.failed .stateError))
    ∧ (s.cpValid = true → s.cpNfrag ≤ s.arg0.toNat →
      exec .cpFragSelect s = .next (s.failed .outOfRange))
    ∧ ∀ f, s.cpValid = true → s.frags[s.arg0.toNat]? = some f →
      exec .cpFragSelect s = .next { s with
        err := none, fh := f.hdr, cpFsel := s.arg0
        res := BitVec.ofNat 32 (f.hdr.size.toNat - 16 - f.cur) }

/-- 44_fragment_codec.md R154: every outcome of CP_FRAG_READ where the bytes it reads have values. -/
def Obligations.CpFragReadMovesTheCursor : Prop :=
  ∀ n : BitVec 3, countLegal n →
    decode (BitVec.ofNat 32 (n.toNat * 256 + 0x12)) = .ok (.cpFragRead n) ∧ ∀ s : State,
    (s.cpValid = false → exec (.cpFragRead n) s = .next (s.failed .stateError))
    ∧ (s.cpValid = true → s.cpNfrag ≤ s.cpFsel.toNat →
      exec (.cpFragRead n) s = .next (s.failed .outOfRange))
    ∧ ∀ f, s.cpValid = true → s.frags[s.cpFsel.toNat]? = some f →
      (f.hdr.size.toNat - 16 - f.cur < n.toNat →
        exec (.cpFragRead n) s = .next (s.failed .truncatedInput))
      ∧ ∀ b : Nat → Byte, n.toNat ≤ f.hdr.size.toNat - 16 - f.cur →
        (∀ j, j < n.toNat → s.cpd.read (f.off + 16 + f.cur + j) = some (b j)) → ∃ r,
        exec (.cpFragRead n) s = .next { s with
          err := none, res := r
          frags := s.frags.set s.cpFsel.toNat { f with cur := f.cur + n.toNat } }
        ∧ ∀ j, j < 4 → r.extractLsb' (8 * j) 8 = if j < n.toNat then b j else 0#8

/-- 46_checksum.md R190 to R192: every outcome of CP_CHECKSUM where the data has values; the mask is 0
without EncryptedChecksum, and otherwise whatever the query draws. The form of the draw and the count of
queries are the model's choice (log entry 1). -/
def Obligations.CpChecksumFollowsTheFormula : Prop :=
  decode 0x00000013#32 = .ok .cpChecksum ∧ ∀ s : State,
    (s.cpValid = false → exec .cpChecksum s = .next (s.failed .stateError))
    ∧ ∀ data : List Byte, s.cpValid = true → data.length = s.cpHdr.size.toNat →
      s.cpd.holds 0 data →
      exec .cpChecksum s = .next { s with
        err := none, ksDraws := drawsAfter s s.cpHdr
        res := checksumFormula s.cpHdr data s.cpOptlen.toNat s.fragSpans
          (maskIn s .client s.cpHdr) }

/-- 46_checksum.md R193: every outcome of CP_VERIFY where the data has values. The form of the draw and the
count of queries are the model's choice (log entry 1), and so is that a mismatch has advanced the count (log
entry 14). -/
def Obligations.CpVerifyComparesTheChecksum : Prop :=
  decode 0x00000014#32 = .ok .cpVerify ∧ ∀ s : State,
    (s.cpValid = false → exec .cpVerify s = .next (s.failed .stateError))
    ∧ ∀ data : List Byte, s.cpValid = true → data.length = s.cpHdr.size.toNat →
      s.cpd.holds 0 data →
      let c := checksumFormula s.cpHdr data s.cpOptlen.toNat s.fragSpans (maskIn s .client s.cpHdr)
      let t : State := { s with ksDraws := drawsAfter s s.cpHdr, res := c }
      exec .cpVerify s = .next
        (if c = s.cpHdr.checksum then { t with err := none } else t.failed .checksumMismatch)

/-! ### The server packet and its fragments -/

/-- 45_packet_assembler.md R175: every outcome of SP_NEW. -/
def Obligations.SpNewStartsAPacket : Prop :=
  decode 0x00000020#32 = .ok .spNew ∧ ∀ s : State,
    (flagsValid Config.params s.arg1 = false →
      exec .spNew s = .next (s.failed .invalidFlagCombination))
    ∧ (flagsValid Config.params s.arg1 = true →
      exec .spNew s = .next { s with
        err := none, spHdr := ⟨0#32, s.arg1, 0#32, s.arg0.extractLsb' 0 16, 0#16, 0#16, 0#16⟩
        spWp := 0#32, txLen := 0#32, spState := .filling })

/-- 45_packet_assembler.md R177: every outcome of SP_APPEND. -/
def Obligations.SpAppendAddsPayload : Prop :=
  ∀ n : BitVec 3, countLegal n →
    decode (BitVec.ofNat 32 (n.toNat * 256 + 0x21)) = .ok (.spAppend n) ∧ ∀ s : State,
    (s.spState ≠ .filling → exec (.spAppend n) s = .next (s.failed .stateError))
    ∧ (s.spState = .filling → 448 < s.spWp.toNat + n.toNat →
      exec (.spAppend n) s = .next (s.failed .oversizedPayload))
    ∧ (s.spState = .filling → s.spWp.toNat + n.toNat ≤ 448 → ∃ m,
      exec (.spAppend n) s = .next { s with
        err := none, tx := m, spWp := BitVec.ofNat 32 (s.spWp.toNat + n.toNat) }
      ∧ s.tx.storedAt m (20 + s.spWp.toNat) (lowBytes s.arg1 n.toNat))

/-- 45_packet_assembler.md R178: every outcome of SP_FINALIZE where the payload has values. The form of the
draw and the count of queries are the model's choice (log entry 1). -/
def Obligations.SpFinalizeWritesTheHeader : Prop :=
  decode 0x00000022#32 = .ok .spFinalize ∧ ∀ s : State,
    (s.spState ≠ .filling → exec .spFinalize s = .next (s.failed .stateError))
    ∧ ∀ data : List Byte, s.spState = .filling → data.length = s.spWp.toNat →
      s.tx.holds 20 data →
      (∀ e, regionParse Config.params s.spHdr.flags data = .error (.err e) →
        exec .spFinalize s = .next (s.failed e))
      ∧ ∀ r, regionParse Config.params s.spHdr.flags data = .ok r →
        let h : PacketHeader := { s.spHdr with size := s.spWp.extractLsb' 0 16 }
        let c := checksumFormula h data r.optLen (r.frags.map (fun f => (f.1, f.2.size.toNat)))
          (maskIn s .server h)
        let k : PacketHeader := { h with checksum := c }
        ∃ m, exec .spFinalize s = .next { s with
            err := none, ksDraws := drawsAfter s h, tx := m, spHdr := k
            txLen := 20#32 + s.spWp, spState := .final }
          ∧ s.tx.storedAt m 0 (packetBytes k c)

/-- 44_fragment_codec.md R156: SF_NEW, with and without an opcode. -/
def Obligations.SfNewStartsAFragment : Prop :=
  decode 0x00000028#32 = .ok (.sfNew false) ∧ decode 0x00000128#32 = .ok (.sfNew true)
  ∧ ∀ s : State,
    exec (.sfNew false) s = .next { s with
      err := none, sfHdr := ⟨0#32, 0#32, 0#16, 0#16, 0#16, s.arg0.extractLsb' 0 16⟩
      sfWp := 0#32, sfState := .filling }
    ∧ ∃ m, exec (.sfNew true) s = .next { s with
        err := none, sfHdr := ⟨0#32, 0#32, 0#16, 0#16, 0#16, s.arg0.extractLsb' 0 16⟩
        sfb := m, sfWp := 4#32, sfState := .filling }
      ∧ s.sfb.storedAt m 0 (wordLE s.arg1)

/-- 44_fragment_codec.md R157: every outcome of SF_APPEND. -/
def Obligations.SfAppendAddsPayload : Prop :=
  ∀ n : BitVec 3, countLegal n →
    decode (BitVec.ofNat 32 (n.toNat * 256 + 0x29)) = .ok (.sfAppend n) ∧ ∀ s : State,
    (s.sfState ≠ .filling → exec (.sfAppend n) s = .next (s.failed .stateError))
    ∧ (s.sfState = .filling → 448 < s.sfWp.toNat + n.toNat →
      exec (.sfAppend n) s = .next (s.failed .oversizedPayload))
    ∧ (s.sfState = .filling → s.sfWp.toNat + n.toNat ≤ 448 → ∃ m,
      exec (.sfAppend n) s = .next { s with
        err := none, sfb := m, sfWp := BitVec.ofNat 32 (s.sfWp.toNat + n.toNat) }
      ∧ s.sfb.storedAt m s.sfWp.toNat (lowBytes s.arg1 n.toNat))

/-- 44_fragment_codec.md R158: every outcome of SF_EMIT where the payload has values. -/
def Obligations.SfEmitAppendsTheFragment : Prop :=
  decode 0x0000002A#32 = .ok .sfEmit ∧ ∀ s : State,
    (s.sfState ≠ .filling ∨ s.spState ≠ .filling →
      exec .sfEmit s = .next (s.failed .stateError))
    ∧ (s.sfState = .filling → s.spState = .filling → 448 < s.spWp.toNat + (16 + s.sfWp.toNat) →
      exec .sfEmit s = .next (s.failed .oversizedPayload))
    ∧ ∀ payload : List Byte, s.sfState = .filling → s.spState = .filling →
      s.spWp.toNat + (16 + s.sfWp.toNat) ≤ 448 → payload.length = s.sfWp.toNat →
      s.sfb.holds 0 payload →
      let h : FragmentHeader := { s.sfHdr with size := BitVec.ofNat 16 (16 + s.sfWp.toNat) }
      ∃ m, exec .sfEmit s = .next { s with
          err := none, tx := m, spWp := BitVec.ofNat 32 (s.spWp.toNat + (16 + s.sfWp.toNat))
          sfHdr := h, sfState := .empty, sfWp := 0#32 }
        ∧ s.tx.storedAt m (20 + s.spWp.toNat) (fragmentBytes h ++ payload)

/-- 45_packet_assembler.md R179: what SP_FINALIZE built, a receiver decodes and verifies. With
EncryptedChecksum, when both keystream queries return the same value. -/
def Obligations.ReceiverAgreesWithSender : Prop :=
  ∀ s t u : State, s.Inv Config.params → exec .spFinalize s = .next t → t.err = none →
    u.rxlen = t.txLen →
    (∀ x, x < t.txLen.toNat → (t.tx.read x).isSome = true ∧ u.rx.read x = t.tx.read x) →
    ∃ v, exec .cpDecode u = .next v ∧ v.err = none ∧ v.cpValid = true ∧ v.cpHdr = t.spHdr
      ∧ ((has Config.params t.spHdr.flags .encryptedChecksum = true →
          Config.keystreamDraw .client t.spHdr.sequence v.ksDraws
            = Config.keystreamDraw .server t.spHdr.sequence s.ksDraws) →
        ∃ w, exec .cpVerify v = .next w ∧ w.err = none ∧ w.res = t.spHdr.checksum)

/-! ### Errors and whole-machine rules -/

/-- 60_exceptions.md R203: the flag-combination check, under any configuration; CP_DECODE and SP_NEW raise
its error, and no other command does. -/
def Obligations.FlagCheckIsTheConjunction : Prop :=
  (∀ (P : Config.Params) (f : Word), flagsValid P f = false ↔
    (P.enforceExcl = true ∧ f &&& P.flagMask .encryptedChecksum ≠ 0#32 ∧ f &&& P.exclMask ≠ 0#32))
  ∧ (∀ s : State, flagsValid Config.params s.arg1 = false →
    exec .spNew s = .next (s.failed .invalidFlagCombination))
  ∧ (∀ (s : State) (h : PacketHeader), 20 ≤ s.rxlen.toNat →
    s.rx.holds 0 (packetBytes h h.checksum) → flagsValid Config.params h.flags = false →
    exec .cpDecode s = .next (s.clientGone .invalidFlagCombination))
  ∧ ∀ (i : Instr) (s t : State), exec i s = .next t → t.err = some .invalidFlagCombination →
    i = .cpDecode ∨ i = .spNew

/-- 60_exceptions.md R200: the error codes, and which commands raise each of them. -/
def Obligations.ErrorsComeFromTheirCommands : Prop :=
  (Err.code .truncatedInput = 1 ∧ Err.code .oversizedPayload = 2 ∧ Err.code .checksumMismatch = 3
    ∧ Err.code .invalidFlagCombination = 4 ∧ Err.code .invalidFragmentSize = 5
    ∧ Err.code .illegalCommand = 6 ∧ Err.code .stateError = 7 ∧ Err.code .outOfRange = 8)
  ∧ (∀ (s t : State) (i : Instr) (e : Err), i.WellFormed → exec i s = .next t → t.err = some e →
    e.raisedBy i)
  ∧ ∀ (s : State) (w : Word) (rest : List HostAction), s.host = .write .regs 0x00 .word w :: rest →
    illegalWord w → ∃ t, step s = .next t ∧ t.err = some .illegalCommand

/-- 60_exceptions.md R205: how every command completes. That a mismatch keeps the count of queries is the
model's choice (log entry 14). -/
def Obligations.FailingCommandCommitsNothing : Prop :=
  ∀ (i : Instr) (s t : State), exec i s = .next t →
    (t.err = none → t.errseen = s.errseen)
    ∧ ∀ e, t.err = some e →
      t.errseen = s.errseen ||| 1#32 <<< e.code
      ∧ (i = .cpDecode → t = s.clientGone e)
      ∧ (i = .cpVerify → e = .checksumMismatch →
        t = { s.failed e with res := t.res, ksDraws := t.ksDraws })
      ∧ (i ≠ .cpDecode → (i = .cpVerify → e ≠ .checksumMismatch) → t = s.failed e)

/-- 10_state.md R56: the listed invariants, kept by every command. -/
def Obligations.EveryCommandKeepsR56 : Prop :=
  ∀ (i : Instr) (s t : State), s.R56 Config.params → exec i s = .next t → t.R56 Config.params

/-- The whole invariant holds after reset. -/
def Obligations.ResetMeetsTheInvariant : Prop := State.reset.Inv Config.params

/-- Every step, whatever the host does, keeps the whole invariant. -/
def Obligations.EveryStepKeepsTheInvariant : Prop :=
  ∀ s t : State, s.Inv Config.params → step s = .next t → t.Inv Config.params

/-- 20_memory.md R75, 40_control.md R110: under the invariant a command ends, but for the four that read
RX, which stop at an RX byte below RXLEN that was never written. None is ever refused. -/
def Obligations.CommandsStopOnlyAtUnwrittenRx : Prop :=
  ∀ (i : Instr) (s : State), s.Inv Config.params →
    (∃ t, exec i s = .next t) ∨ ∃ a, exec i s = .fault (.noValue .rx a)
      ∧ a < s.rxlen.toNat ∧ s.rx.read a = none
      ∧ (i = .hdrLoad ∨ i = .fhdrLoad ∨ i = .optDecode ∨ i = .cpDecode)

/-- 20_memory.md R75, R66: a command that needs an RX byte below RXLEN that was never written is a fault:
HDR_LOAD, FHDR_LOAD, CP_DECODE in its header and in its data region, and OPT_DECODE in a span that fits, an
opaque block or a count prefix. That OPT_DECODE stops at the first such byte, before a later block that does
not fit, is the model's choice (log entry 9). -/
def Obligations.UnwrittenRxByteIsAFault : Prop :=
  ∀ (s : State) (j : Nat),
    (s.arg0.toNat + 20 ≤ s.rxlen.toNat → j < 20 → s.rx.read (s.arg0.toNat + j) = none →
      ∃ a, s.arg0.toNat ≤ a ∧ a < s.arg0.toNat + 20 ∧ exec .hdrLoad s = .fault (.noValue .rx a))
    ∧ (s.arg0.toNat + 16 ≤ s.rxlen.toNat → j < 16 → s.rx.read (s.arg0.toNat + j) = none →
      ∃ a, s.arg0.toNat ≤ a ∧ a < s.arg0.toNat + 16 ∧ exec .fhdrLoad s = .fault (.noValue .rx a))
    ∧ (20 ≤ s.rxlen.toNat → j < 20 → s.rx.read j = none →
      ∃ a, a < 20 ∧ exec .cpDecode s = .fault (.noValue .rx a))
    ∧ (∀ h : PacketHeader, s.rx.holds 0 (packetBytes h h.checksum) →
      flagsValid Config.params h.flags = true → 20 + h.size.toNat ≤ s.rxlen.toNat →
      j < h.size.toNat → s.rx.read (20 + j) = none →
      ∃ a, 20 ≤ a ∧ a < 20 + h.size.toNat ∧ exec .cpDecode s = .fault (.noValue .rx a))
    ∧ ∀ (req rej : Word) (k : Nat), s.optCounts (s.arg0.toNat + j) req rej →
      s.optEnd req rej k ≤ s.rxlen.toNat → s.arg0.toNat + j < s.optEnd req rej k →
      s.rx.definedOn s.arg0.toNat (s.arg0.toNat + j) → s.rx.read (s.arg0.toNat + j) = none →
      exec .optDecode s = .fault (.noValue .rx (s.arg0.toNat + j))

/-- 10_state.md R43: no command but HDR_LOAD, CP_DECODE and SP_NEW changes a packet flags word. -/
def Obligations.OnlyThreeCommandsWriteFlags : Prop :=
  ∀ (i : Instr) (s t : State), exec i s = .next t →
    (i ≠ .hdrLoad → t.hdr.flags = s.hdr.flags)
    ∧ (i ≠ .cpDecode → t.cpHdr.flags = s.cpHdr.flags)
    ∧ (i ≠ .spNew → t.spHdr.flags = s.spHdr.flags)
    ∧ (i = .spNew → t.err = none → t.spHdr.flags = s.arg1)

/-- 70_reset_and_hazards.md R235: no command but CP_DECODE moves a fragment cursor back, or changes a
fragment otherwise. -/
def Obligations.CursorsOnlyMoveForward : Prop :=
  ∀ (i : Instr) (s t : State), i ≠ .cpDecode → exec i s = .next t →
    t.cpNfrag = s.cpNfrag ∧ ∀ (k : Nat) (f : FragEntry), s.frags[k]? = some f →
      ∃ g : FragEntry, t.frags[k]? = some g ∧ g.off = f.off ∧ g.hdr = f.hdr ∧ f.cur ≤ g.cur

/-- 20_memory.md R69: what RX holds, and RXLEN, do not enter any command that does not read RX: the
decoded packet is a copy. -/
def Obligations.DecodedPacketIsACopy : Prop :=
  ∀ (i : Instr) (s t : State) (m : Memory) (len : Word),
    i ≠ .hdrLoad → i ≠ .fhdrLoad → i ≠ .optDecode → i ≠ .cpDecode → exec i s = .next t →
    exec i { s with rx := m, rxlen := len } = .next { t with rx := m, rxlen := len }

/-- 10_state.md R53, R54: a keystream query is made only by the three checksum commands, and only for a
packet whose flags have EncryptedChecksum. -/
def Obligations.KeystreamQueriedOnlyWhenEncrypted : Prop :=
  ∀ (i : Instr) (s t : State), exec i s = .next t → t.ksDraws ≠ s.ksDraws →
    t.ksDraws = s.ksDraws + 1
    ∧ (((i = .cpChecksum ∨ i = .cpVerify)
        ∧ has Config.params s.cpHdr.flags .encryptedChecksum = true)
      ∨ (i = .spFinalize ∧ has Config.params s.spHdr.flags .encryptedChecksum = true))

/-- 10_state.md R26: ERRSEEN is sticky: a step that is not a reset clears no bit of it, the host's writes
to it do nothing, a read returns it, and bit 0 and bits [31:9] stay 0. -/
def Obligations.ErrseenIsSticky : Prop :=
  (∀ (s : State) (rest : List HostAction), s.host = .read .regs 0x08 .word :: rest →
    step s = .next { s with host := rest, observed := some (.word s.errseen) })
  ∧ (∀ s t : State, step s = .next t → s.host.head? ≠ some .reset →
    s.errseen &&& t.errseen = s.errseen)
  ∧ (∀ (i : Instr) (s t : State) (e : Err), exec i s = .next t → t.err = some e →
    t.errseen.getLsbD e.code = true)
  ∧ (∀ (s : State) (rest : List HostAction) (v : Word),
    s.host = .write .regs 0x08 .word v :: rest → step s = .next { s with host := rest })
  ∧ ∀ s t : State, s.errseen &&& 0xFFFFFE01#32 = 0#32 → step s = .next t →
    t.errseen &&& 0xFFFFFE01#32 = 0#32

/-! ### The host interface -/

/-- 10_state.md R40, R28: a write to a register the host may write answers a next state in which that
register holds what was written, less the bits a u16 register does not have, every other register reads as
before and nothing outside the written register sets changes; a read then returns it. -/
def Obligations.RegisterReadsBackWhatWasWritten : Prop :=
  ∀ (s : State) (r : Reg) (mask v : Word) (rest : List HostAction), r.storesMask = some mask →
    s.host = .write .regs r.offset .word v :: rest →
    ∃ t, step s = .next t
      ∧ t = { s with
        host := rest, arg0 := t.arg0, arg1 := t.arg1, hdr := t.hdr, fh := t.fh, spHdr := t.spHdr
        sfHdr := t.sfHdr }
      ∧ (∀ q, q ≠ r → t.readReg q = s.readReg q)
      ∧ t.readReg r = v &&& mask
      ∧ ∀ more, rest = .read .regs r.offset .word :: more →
        step t = .next { t with host := more, observed := some (.word (v &&& mask)) }

/-- 10_state.md R27: a write to RXLEN stores `min(v, RX_CAP)`, a read returns what it holds, and no command
writes it. -/
def Obligations.RxlenIsClamped : Prop :=
  (∀ (s : State) (rest : List HostAction), s.host = .read .regs 0x18 .word :: rest →
    step s = .next { s with host := rest, observed := some (.word s.rxlen) })
  ∧ (∀ (s : State) (v : Word) (rest : List HostAction), s.host = .write .regs 0x18 .word v :: rest →
    ∃ w : Word, w.toNat = min v.toNat Config.params.rxCap
      ∧ step s = .next { s with host := rest, rxlen := w })
  ∧ ∀ (i : Instr) (s t : State), exec i s = .next t → t.rxlen = s.rxlen

/-- 10_state.md R40: host writes to read-only registers and reserved offsets are ignored, a read of a
register returns it, from the offset the map gives it, and reserved offsets read 0. -/
def Obligations.ReadOnlyAndReservedIgnoreWrites : Prop :=
  (∀ (s : State) (r : Reg) (v : Word) (rest : List HostAction), r.readOnly →
    s.host = .write .regs r.offset .word v :: rest → step s = .next { s with host := rest })
  ∧ (∀ (s : State) (rest : List HostAction), ∀ c ∈ s.registerValues,
    s.host = .read .regs c.1 .word :: rest →
    step s = .next { s with host := rest, observed := some (.word c.2) })
  ∧ ∀ (s : State) (rest : List HostAction), ∀ a ∈ reservedOffsets,
    (∀ v : Word, s.host = .write .regs a .word v :: rest → step s = .next { s with host := rest })
    ∧ (s.host = .read .regs a .word :: rest →
      step s = .next { s with host := rest, observed := some (.word 0#32) })

/-- 10_state.md R25: the fields of STATUS, as a host read returns them. -/
def Obligations.StatusFieldsAreAsLaidOut : Prop :=
  ∀ (s : State) (rest : List HostAction), s.host = .read .regs 0x04 .word :: rest →
    ∃ v : Word, step s = .next { s with host := rest, observed := some (.word v) }
      ∧ (v.extractLsb' 0 8).toNat = (match s.err with | none => 0 | some e => e.code)
      ∧ v.getLsbD 8 = s.cpValid
      ∧ (v.extractLsb' 9 2).toNat = (match s.spState with | .empty => 0 | .filling => 1 | .final => 2)
      ∧ (v.extractLsb' 11 1).toNat = (match s.sfState with | .empty => 0 | .filling => 1)
      ∧ v.extractLsb' 12 20 = 0#20

/-- 20_memory.md R60: no space has a side effect on read. -/
def Obligations.HostReadsHaveNoSideEffect : Prop :=
  ∀ (s t : State) (sp : Space) (a : Nat) (w : AccessWidth) (rest : List HostAction),
    s.host = .read sp a w :: rest → step s = .next t →
    t = { s with host := rest, observed := t.observed }

/-- 20_memory.md R70: a host read of RX returns the last value written there. -/
def Obligations.RxReadsReturnTheLastWrite : Prop :=
  ∀ (s : State) (a : Nat) (v : Word) (rest : List HostAction), a < Config.params.rxCap →
    s.host = .write .rx a .byte v :: .read .rx a .byte :: rest →
    ∃ t u, step s = .next t ∧ step t = .next u
      ∧ (∀ x, x ≠ a → t.rx.read x = s.rx.read x)
      ∧ u.observed = some (.byte (v.extractLsb' 0 8))

/-- 20_memory.md R64, R60: which host accesses are refused, under which of the model's names (log entry
12). -/
def Obligations.OtherHostAccessesAreRefused : Prop :=
  ∀ (s : State) (a : Nat) (w : AccessWidth) (v : Word) (rest : List HostAction),
    (¬(w = .word ∧ a % 4 = 0) →
      (s.host = .read .regs a w :: rest → step s = .refused (.registerAccessNotWord a))
      ∧ (s.host = .write .regs a w v :: rest → step s = .refused (.registerAccessNotWord a)))
    ∧ (w ≠ .byte →
      (s.host = .write .rx a w v :: rest → step s = .refused (.bufferAccessNotByte .rx a))
      ∧ ∀ sp, (sp = .rx ∨ sp = .obuf ∨ sp = .tx) → s.host = .read sp a w :: rest →
        step s = .refused (.bufferAccessNotByte sp a))
    ∧ (∀ sp, (sp = .obuf ∨ sp = .tx) → s.host = .write sp a w v :: rest →
      step s = .refused (.bufferReadOnly sp a))
    ∧ (∀ sp, (sp = .cpd ∨ sp = .sfb) →
      (s.host = .read sp a w :: rest → step s = .refused (.bufferInternal sp a))
      ∧ (s.host = .write sp a w v :: rest → step s = .refused (.bufferInternal sp a)))

/-- 20_memory.md R75: a host read of a byte with no defined value is a fault; of any other, TX and OBUF
return what was stored (log entry 10). -/
def Obligations.HostReadsOfUndefinedBytesFault : Prop :=
  ∀ (s : State) (a : Nat) (rest : List HostAction),
    (a < 484 → s.host = .read .tx a .byte :: rest →
      (20 + s.spWp.toNat ≤ a ∨ s.tx.read a = none → step s = .fault (.noValue .tx a))
      ∧ ∀ b, a < 20 + s.spWp.toNat → s.tx.read a = some b →
        step s = .next { s with host := rest, observed := some (.byte b) })
    ∧ (a < 20 → s.host = .read .obuf a .byte :: rest →
      (s.obuf.read a = none → step s = .fault (.noValue .obuf a))
      ∧ ∀ b, s.obuf.read a = some b →
        step s = .next { s with host := rest, observed := some (.byte b) })
    ∧ (a < Config.params.rxCap → s.host = .read .rx a .byte :: rest → s.rx.read a = none →
      step s = .fault (.noValue .rx a))

/-- 70_reset_and_hazards.md R230: after reset every register reads 0 and no buffer byte has a value. What a
reset leaves of the model's own fields is the model's choice (log entry 11). -/
def Obligations.ResetClearsTheEngine : Prop :=
  ((∀ r : Reg, State.reset.readReg r = 0#32) ∧ ∀ sp a, (State.reset.buffer sp).read a = none)
  ∧ ∀ (s : State) (rest : List HostAction), s.host = .reset :: rest → ∃ t, step s = .next t
    ∧ (∀ r : Reg, t.readReg r = 0#32) ∧ (∀ sp a, (t.buffer sp).read a = none)
    ∧ t.frags = [] ∧ t.host = rest ∧ t.ksDraws = s.ksDraws ∧ t.observed = s.observed

/-- 30_encoding.md R96: each pseudo-instruction as the host's register writes and command word. -/
def Obligations.PseudoInstructionsExpand : Prop :=
  let put (a : Nat) (v : Word) : HostAction := .write .regs a .word v
  ∀ o f v : Word,
    assemble (Pseudo.hdrLoadAt o).expand = [put 0x10 o, put 0x00 0x00000001#32]
    ∧ assemble (Pseudo.fhdrLoadAt o).expand = [put 0x10 o, put 0x00 0x00000004#32]
    ∧ assemble (Pseudo.optDecodeAt o).expand = [put 0x10 o, put 0x00 0x00000008#32]
    ∧ assemble (Pseudo.cpFragSelectAt o).expand = [put 0x10 o, put 0x00 0x00000011#32]
    ∧ assemble (Pseudo.spNewWith o f).expand = [put 0x10 o, put 0x14 f, put 0x00 0x00000020#32]
    ∧ assemble (Pseudo.spAppendSized .b v).expand = [put 0x14 v, put 0x00 0x00000121#32]
    ∧ assemble (Pseudo.spAppendSized .h v).expand = [put 0x14 v, put 0x00 0x00000221#32]
    ∧ assemble (Pseudo.spAppendSized .w v).expand = [put 0x14 v, put 0x00 0x00000421#32]
    ∧ assemble (Pseudo.sfAppendSized .b v).expand = [put 0x14 v, put 0x00 0x00000129#32]
    ∧ assemble (Pseudo.sfAppendSized .h v).expand = [put 0x14 v, put 0x00 0x00000229#32]
    ∧ assemble (Pseudo.sfAppendSized .w v).expand = [put 0x14 v, put 0x00 0x00000429#32]
    ∧ assemble (Pseudo.sfNewGroup o).expand = [put 0x10 o, put 0x00 0x00000028#32]
    ∧ assemble (Pseudo.sfNewGroupOp o f).expand = [put 0x10 o, put 0x14 f, put 0x00 0x00000128#32]

/-! ### Frames -/

/-- What the commands that store nothing leave: NOP, HDR_LOAD, FHDR_LOAD, HDR_HASH, OPT_DECODE,
CP_FRAG_SELECT, CP_FRAG_READ, CP_CHECKSUM, CP_VERIFY and SP_NEW. -/
def Obligations.FrameOfNonStoringCommands : Prop :=
  ∀ s t : State,
    (exec .nop s = .next t → t = { s with err := t.err } ∧ sameBytes s t)
    ∧ (exec .hdrLoad s = .next t →
      t = { s with err := t.err, errseen := t.errseen, hdr := t.hdr } ∧ sameBytes s t)
    ∧ (exec .fhdrLoad s = .next t →
      t = { s with err := t.err, errseen := t.errseen, fh := t.fh } ∧ sameBytes s t)
    ∧ (exec .hdrHash s = .next t → t = { s with err := t.err, res := t.res } ∧ sameBytes s t)
    ∧ (exec .optDecode s = .next t →
      t = { s with err := t.err, errseen := t.errseen, res := t.res } ∧ sameBytes s t)
    ∧ (exec .cpFragSelect s = .next t →
      t = { s with err := t.err, errseen := t.errseen, fh := t.fh, cpFsel := t.cpFsel, res := t.res }
        ∧ sameBytes s t)
    ∧ (∀ n, exec (.cpFragRead n) s = .next t →
      t = { s with err := t.err, errseen := t.errseen, res := t.res, frags := t.frags }
        ∧ sameBytes s t)
    ∧ (exec .cpChecksum s = .next t ∨ exec .cpVerify s = .next t →
      t = { s with err := t.err, errseen := t.errseen, res := t.res, ksDraws := t.ksDraws }
        ∧ sameBytes s t)
    ∧ (exec .spNew s = .next t →
      t = { s with
        err := t.err, errseen := t.errseen, spHdr := t.spHdr, spWp := t.spWp, txLen := t.txLen
        spState := t.spState } ∧ sameBytes s t)

/-- What the commands that store to OBUF, CPD and SFB leave: HDR_STORE, FHDR_STORE, CP_DECODE, SF_NEW and
SF_APPEND. The stored bytes start at 0, but for SF_APPEND's, which start at SF_WP. -/
def Obligations.FrameOfBufferStores : Prop :=
  ∀ s t : State,
    (exec .hdrStore s = .next t → t = { s with err := t.err, obuf := t.obuf }
      ∧ ∀ x, 20 ≤ x → t.obuf.read x = s.obuf.read x)
    ∧ (exec .fhdrStore s = .next t → t = { s with err := t.err, obuf := t.obuf }
      ∧ ∀ x, 16 ≤ x → t.obuf.read x = s.obuf.read x)
    ∧ (exec .cpDecode s = .next t →
      t = { s with
        err := t.err, errseen := t.errseen, cpValid := t.cpValid, cpHdr := t.cpHdr
        cpOptlen := t.cpOptlen, frags := t.frags, cpFsel := t.cpFsel, cpd := t.cpd }
      ∧ ∀ x, t.cpHdr.size.toNat ≤ x → t.cpd.read x = s.cpd.read x)
    ∧ (∀ o, exec (.sfNew o) s = .next t →
      t = { s with err := t.err, sfHdr := t.sfHdr, sfb := t.sfb, sfWp := t.sfWp, sfState := t.sfState }
      ∧ ∀ x, (if o then 4 else 0) ≤ x → t.sfb.read x = s.sfb.read x)
    ∧ ∀ n, exec (.sfAppend n) s = .next t →
      t = { s with err := t.err, errseen := t.errseen, sfb := t.sfb, sfWp := t.sfWp }
      ∧ ∀ x, (x < s.sfWp.toNat ∨ s.sfWp.toNat + n.toNat ≤ x) → t.sfb.read x = s.sfb.read x

/-- What the commands that store to TX leave: SP_APPEND from `20 + SP_WP` on, SF_EMIT from `20 + SP_WP`
on, SP_FINALIZE in TX[0,20). -/
def Obligations.FrameOfTransmitStores : Prop :=
  ∀ s t : State,
    (∀ n, exec (.spAppend n) s = .next t →
      t = { s with err := t.err, errseen := t.errseen, tx := t.tx, spWp := t.spWp }
      ∧ ∀ x, (x < 20 + s.spWp.toNat ∨ 20 + s.spWp.toNat + n.toNat ≤ x) →
        t.tx.read x = s.tx.read x)
    ∧ (exec .sfEmit s = .next t →
      t = { s with
        err := t.err, errseen := t.errseen, tx := t.tx, spWp := t.spWp, sfHdr := t.sfHdr
        sfState := t.sfState, sfWp := t.sfWp }
      ∧ ∀ x, (x < 20 + s.spWp.toNat ∨ 20 + s.spWp.toNat + s.sfTotal ≤ x) →
        t.tx.read x = s.tx.read x)
    ∧ (exec .spFinalize s = .next t →
      t = { s with
        err := t.err, errseen := t.errseen, tx := t.tx, spHdr := t.spHdr, txLen := t.txLen
        spState := t.spState, ksDraws := t.ksDraws }
      ∧ ∀ x, 20 ≤ x → t.tx.read x = s.tx.read x)
end

