-- ==== Sys2Proof/Laws/Memory.lean ====
section
/-! SUPPORT. What the memory operations do: read after write, the canonical form, and the bytes a list
write stores. -/

namespace Sys2Proof.Machine

open Sys2Proof

@[simp] theorem Memory.read_nil (i : Nat) : Memory.read [] i = none := rfl

/-- A read after a write: the value at the written address, and everywhere else what was there. -/
theorem Memory.read_write (m : Memory) (i j : Nat) (v : Byte) :
    (m.write i v).read j = if j = i then some v else m.read j := by
  induction m with
  | nil => rfl
  | cons c m ih =>
    obtain ⟨a, b⟩ := c
    simp only [Memory.write]
    split_ifs with h1 h2 <;> simp only [Memory.read, ih] <;> split_ifs <;> first | rfl | omega

/-- A written cell is the new one or an old one. -/
theorem Memory.mem_write {m : Memory} {i : Nat} {v : Byte} {c : Host.Cell}
    (h : c ∈ m.write i v) : c = (i, v) ∨ c ∈ m := by
  induction m with
  | nil => simpa [Memory.write] using h
  | cons d m ih =>
    simp only [Memory.write] at h
    split_ifs at h with h1 h2
    · simpa using h
    · rcases List.mem_cons.1 h with h | h
      · exact .inl h
      · exact .inr (List.mem_cons_of_mem _ h)
    · rcases List.mem_cons.1 h with h | h
      · exact .inr (h ▸ List.mem_cons_self)
      · exact (ih h).imp_right (List.mem_cons_of_mem _)

/-- A write keeps the canonical form. -/
theorem Memory.write_wf {m : Memory} (h : m.wf) (i : Nat) (v : Byte) : (m.write i v).wf := by
  induction m with
  | nil => simp [Memory.write, Memory.wf]
  | cons c m ih =>
    obtain ⟨a, b⟩ := c
    obtain ⟨hlt, hm⟩ := List.pairwise_cons.1 h
    simp only [Memory.write]
    split_ifs with h1 h2
    · refine List.pairwise_cons.2 ⟨fun c hc => ?_, h⟩
      rcases List.mem_cons.1 hc with rfl | hc
      · exact h1
      · exact h1.trans (hlt c hc)
    · exact List.pairwise_cons.2 ⟨fun c hc => h2 ▸ hlt c hc, hm⟩
    · refine List.pairwise_cons.2 ⟨fun c hc => ?_, ih hm⟩
      rcases Memory.mem_write hc with rfl | hc
      · change a < i; omega
      · exact hlt c hc

/-- A write inside a space keeps the memory inside it. -/
theorem Memory.write_below {m : Memory} {size i : Nat} (h : m.below size) (hi : i < size) (v : Byte) :
    (m.write i v).below size := fun c hc => by
  rcases Memory.mem_write hc with rfl | hc
  · exact hi
  · exact h c hc

/-- A list write keeps the canonical form. -/
theorem Memory.writeList_wf {m : Memory} (h : m.wf) (a : Nat) (bs : List Byte) :
    (m.writeList a bs).wf := by
  induction bs generalizing m a with
  | nil => exact h
  | cons b bs ih => exact ih (Memory.write_wf h a b) (a + 1)

/-- A list write inside a space keeps the memory inside it. -/
theorem Memory.writeList_below {m : Memory} {size a : Nat} {bs : List Byte} (h : m.below size)
    (ha : a + bs.length ≤ size) : (m.writeList a bs).below size := by
  induction bs generalizing m a with
  | nil => exact h
  | cons b bs ih =>
    simp only [List.length_cons] at ha
    exact ih (Memory.write_below h (by omega) b) (by omega)

/-- Every byte after a list write. -/
theorem Memory.read_writeList (m : Memory) (a : Nat) (bs : List Byte) (x : Nat) :
    (m.writeList a bs).read x
      = if a ≤ x ∧ x < a + bs.length then bs[x - a]? else m.read x := by
  induction bs generalizing m a with
  | nil => simp only [Memory.writeList, List.length_nil]; split_ifs <;> first | rfl | omega
  | cons b bs ih =>
    simp only [Memory.writeList, ih, Memory.read_write, List.length_cons]
    by_cases hx : x = a
    · subst hx; simp
    · by_cases h : a + 1 ≤ x ∧ x < a + 1 + bs.length
      · have e : x - a = (x - (a + 1)) + 1 := by omega
        rw [if_pos h, if_pos (by omega), e, List.getElem?_cons_succ]
      · rw [if_neg h, if_neg hx, if_neg (by omega)]

/-- A list write stores exactly its bytes. -/
theorem Memory.writeList_storedAt (m : Memory) (a : Nat) (bs : List Byte) :
    m.storedAt (m.writeList a bs) a bs := by
  refine ⟨fun j hj => ?_, fun x hx => ?_⟩ <;> rw [Memory.read_writeList]
  · rw [if_pos (by omega), Nat.add_sub_cancel_left]
  · rw [if_neg (by omega)]

/-- After a list write the written bytes have values, and so have those that had one. -/
theorem Memory.writeList_definedOn {m : Memory} {a lo hi : Nat} {bs : List Byte}
    (h : ∀ x, lo ≤ x → x < hi → ¬(a ≤ x ∧ x < a + bs.length) → (m.read x).isSome = true) :
    (m.writeList a bs).definedOn lo hi := fun x h1 h2 => by
  rw [Memory.read_writeList]
  split_ifs with hx
  · rw [List.getElem?_eq_getElem (by omega)]; rfl
  · exact h x h1 h2 hx

/-- Reset's buffers are in canonical form. -/
theorem reset_wf (sp : Space) : (State.reset.buffer sp).wf := by
  cases sp <;> exact List.Pairwise.nil

end Sys2Proof.Machine
end

