-- ==== Sys2Proof/Laws/State.lean ====
section
/-! SUPPORT. What the named updates of the state leave in each field, so that no proof unfolds a record
update. -/

namespace Sys2Proof.Machine

open Sys2Proof

/-! ### `State.finish` -/

@[simp] theorem finish_err (s : State) (e : Option Err) :
    (s.finish e).err = e := rfl

@[simp] theorem finish_cpValid (s : State) (e : Option Err) :
    (s.finish e).cpValid = s.cpValid := rfl

@[simp] theorem finish_spState (s : State) (e : Option Err) :
    (s.finish e).spState = s.spState := rfl

@[simp] theorem finish_sfState (s : State) (e : Option Err) :
    (s.finish e).sfState = s.sfState := rfl

@[simp] theorem finish_errseen (s : State) (e : Option Err) :
    (s.finish e).errseen = noteError s.errseen e := rfl

@[simp] theorem finish_res (s : State) (e : Option Err) :
    (s.finish e).res = s.res := rfl

@[simp] theorem finish_arg0 (s : State) (e : Option Err) :
    (s.finish e).arg0 = s.arg0 := rfl

@[simp] theorem finish_arg1 (s : State) (e : Option Err) :
    (s.finish e).arg1 = s.arg1 := rfl

@[simp] theorem finish_rxlen (s : State) (e : Option Err) :
    (s.finish e).rxlen = s.rxlen := rfl

@[simp] theorem finish_hdr (s : State) (e : Option Err) :
    (s.finish e).hdr = s.hdr := rfl

@[simp] theorem finish_fh (s : State) (e : Option Err) :
    (s.finish e).fh = s.fh := rfl

@[simp] theorem finish_cpHdr (s : State) (e : Option Err) :
    (s.finish e).cpHdr = s.cpHdr := rfl

@[simp] theorem finish_cpOptlen (s : State) (e : Option Err) :
    (s.finish e).cpOptlen = s.cpOptlen := rfl

@[simp] theorem finish_frags (s : State) (e : Option Err) :
    (s.finish e).frags = s.frags := rfl

@[simp] theorem finish_cpFsel (s : State) (e : Option Err) :
    (s.finish e).cpFsel = s.cpFsel := rfl

@[simp] theorem finish_spHdr (s : State) (e : Option Err) :
    (s.finish e).spHdr = s.spHdr := rfl

@[simp] theorem finish_spWp (s : State) (e : Option Err) :
    (s.finish e).spWp = s.spWp := rfl

@[simp] theorem finish_txLen (s : State) (e : Option Err) :
    (s.finish e).txLen = s.txLen := rfl

@[simp] theorem finish_sfHdr (s : State) (e : Option Err) :
    (s.finish e).sfHdr = s.sfHdr := rfl

@[simp] theorem finish_sfWp (s : State) (e : Option Err) :
    (s.finish e).sfWp = s.sfWp := rfl

@[simp] theorem finish_rx (s : State) (e : Option Err) :
    (s.finish e).rx = s.rx := rfl

@[simp] theorem finish_obuf (s : State) (e : Option Err) :
    (s.finish e).obuf = s.obuf := rfl

@[simp] theorem finish_tx (s : State) (e : Option Err) :
    (s.finish e).tx = s.tx := rfl

@[simp] theorem finish_cpd (s : State) (e : Option Err) :
    (s.finish e).cpd = s.cpd := rfl

@[simp] theorem finish_sfb (s : State) (e : Option Err) :
    (s.finish e).sfb = s.sfb := rfl

@[simp] theorem finish_ksDraws (s : State) (e : Option Err) :
    (s.finish e).ksDraws = s.ksDraws := rfl

@[simp] theorem finish_host (s : State) (e : Option Err) :
    (s.finish e).host = s.host := rfl

@[simp] theorem finish_observed (s : State) (e : Option Err) :
    (s.finish e).observed = s.observed := rfl

/-! ### `State.clearClient` -/

@[simp] theorem clearClient_err (s : State) :
    (s.clearClient).err = s.err := rfl

@[simp] theorem clearClient_cpValid (s : State) :
    (s.clearClient).cpValid = false := rfl

@[simp] theorem clearClient_spState (s : State) :
    (s.clearClient).spState = s.spState := rfl

@[simp] theorem clearClient_sfState (s : State) :
    (s.clearClient).sfState = s.sfState := rfl

@[simp] theorem clearClient_errseen (s : State) :
    (s.clearClient).errseen = s.errseen := rfl

@[simp] theorem clearClient_res (s : State) :
    (s.clearClient).res = s.res := rfl

@[simp] theorem clearClient_arg0 (s : State) :
    (s.clearClient).arg0 = s.arg0 := rfl

@[simp] theorem clearClient_arg1 (s : State) :
    (s.clearClient).arg1 = s.arg1 := rfl

@[simp] theorem clearClient_rxlen (s : State) :
    (s.clearClient).rxlen = s.rxlen := rfl

@[simp] theorem clearClient_hdr (s : State) :
    (s.clearClient).hdr = s.hdr := rfl

@[simp] theorem clearClient_fh (s : State) :
    (s.clearClient).fh = s.fh := rfl

@[simp] theorem clearClient_cpHdr (s : State) :
    (s.clearClient).cpHdr = .zero := rfl

@[simp] theorem clearClient_cpOptlen (s : State) :
    (s.clearClient).cpOptlen = 0#32 := rfl

@[simp] theorem clearClient_frags (s : State) :
    (s.clearClient).frags = [] := rfl

@[simp] theorem clearClient_cpFsel (s : State) :
    (s.clearClient).cpFsel = 0#32 := rfl

@[simp] theorem clearClient_spHdr (s : State) :
    (s.clearClient).spHdr = s.spHdr := rfl

@[simp] theorem clearClient_spWp (s : State) :
    (s.clearClient).spWp = s.spWp := rfl

@[simp] theorem clearClient_txLen (s : State) :
    (s.clearClient).txLen = s.txLen := rfl

@[simp] theorem clearClient_sfHdr (s : State) :
    (s.clearClient).sfHdr = s.sfHdr := rfl

@[simp] theorem clearClient_sfWp (s : State) :
    (s.clearClient).sfWp = s.sfWp := rfl

@[simp] theorem clearClient_rx (s : State) :
    (s.clearClient).rx = s.rx := rfl

@[simp] theorem clearClient_obuf (s : State) :
    (s.clearClient).obuf = s.obuf := rfl

@[simp] theorem clearClient_tx (s : State) :
    (s.clearClient).tx = s.tx := rfl

@[simp] theorem clearClient_cpd (s : State) :
    (s.clearClient).cpd = s.cpd := rfl

@[simp] theorem clearClient_sfb (s : State) :
    (s.clearClient).sfb = s.sfb := rfl

@[simp] theorem clearClient_ksDraws (s : State) :
    (s.clearClient).ksDraws = s.ksDraws := rfl

@[simp] theorem clearClient_host (s : State) :
    (s.clearClient).host = s.host := rfl

@[simp] theorem clearClient_observed (s : State) :
    (s.clearClient).observed = s.observed := rfl

/-! ### `State.resetEngine` -/

@[simp] theorem resetEngine_err (s : State) :
    (s.resetEngine).err = State.reset.err := rfl

@[simp] theorem resetEngine_cpValid (s : State) :
    (s.resetEngine).cpValid = State.reset.cpValid := rfl

@[simp] theorem resetEngine_spState (s : State) :
    (s.resetEngine).spState = State.reset.spState := rfl

@[simp] theorem resetEngine_sfState (s : State) :
    (s.resetEngine).sfState = State.reset.sfState := rfl

@[simp] theorem resetEngine_errseen (s : State) :
    (s.resetEngine).errseen = State.reset.errseen := rfl

@[simp] theorem resetEngine_res (s : State) :
    (s.resetEngine).res = State.reset.res := rfl

@[simp] theorem resetEngine_arg0 (s : State) :
    (s.resetEngine).arg0 = State.reset.arg0 := rfl

@[simp] theorem resetEngine_arg1 (s : State) :
    (s.resetEngine).arg1 = State.reset.arg1 := rfl

@[simp] theorem resetEngine_rxlen (s : State) :
    (s.resetEngine).rxlen = State.reset.rxlen := rfl

@[simp] theorem resetEngine_hdr (s : State) :
    (s.resetEngine).hdr = State.reset.hdr := rfl

@[simp] theorem resetEngine_fh (s : State) :
    (s.resetEngine).fh = State.reset.fh := rfl

@[simp] theorem resetEngine_cpHdr (s : State) :
    (s.resetEngine).cpHdr = State.reset.cpHdr := rfl

@[simp] theorem resetEngine_cpOptlen (s : State) :
    (s.resetEngine).cpOptlen = State.reset.cpOptlen := rfl

@[simp] theorem resetEngine_frags (s : State) :
    (s.resetEngine).frags = State.reset.frags := rfl

@[simp] theorem resetEngine_cpFsel (s : State) :
    (s.resetEngine).cpFsel = State.reset.cpFsel := rfl

@[simp] theorem resetEngine_spHdr (s : State) :
    (s.resetEngine).spHdr = State.reset.spHdr := rfl

@[simp] theorem resetEngine_spWp (s : State) :
    (s.resetEngine).spWp = State.reset.spWp := rfl

@[simp] theorem resetEngine_txLen (s : State) :
    (s.resetEngine).txLen = State.reset.txLen := rfl

@[simp] theorem resetEngine_sfHdr (s : State) :
    (s.resetEngine).sfHdr = State.reset.sfHdr := rfl

@[simp] theorem resetEngine_sfWp (s : State) :
    (s.resetEngine).sfWp = State.reset.sfWp := rfl

@[simp] theorem resetEngine_rx (s : State) :
    (s.resetEngine).rx = State.reset.rx := rfl

@[simp] theorem resetEngine_obuf (s : State) :
    (s.resetEngine).obuf = State.reset.obuf := rfl

@[simp] theorem resetEngine_tx (s : State) :
    (s.resetEngine).tx = State.reset.tx := rfl

@[simp] theorem resetEngine_cpd (s : State) :
    (s.resetEngine).cpd = State.reset.cpd := rfl

@[simp] theorem resetEngine_sfb (s : State) :
    (s.resetEngine).sfb = State.reset.sfb := rfl

@[simp] theorem resetEngine_ksDraws (s : State) :
    (s.resetEngine).ksDraws = s.ksDraws := rfl

@[simp] theorem resetEngine_host (s : State) :
    (s.resetEngine).host = s.host := rfl

@[simp] theorem resetEngine_observed (s : State) :
    (s.resetEngine).observed = s.observed := rfl

/-! ### Both ways of saying an update -/

/-- Ending a command twice: the last code stays, both errors are noted. -/
theorem finish_finish (s : State) (e e' : Option Err) :
    (s.finish e).finish e' = { s with err := e', errseen := noteError (noteError s.errseen e) e' } := rfl

/-- Putting a field back to what it is changes nothing. -/
theorem host_eta (s : State) : { s with host := s.host } = s := rfl

/-- OK notes nothing. -/
@[simp] theorem noteError_none (seen : Word) : noteError seen none = seen := rfl

@[simp] theorem noteError_some (seen : Word) (e : Err) :
    noteError seen (some e) = seen ||| (1#32 <<< e.code) := rfl

end Sys2Proof.Machine
end

