-- ==== Sys2Proof/Laws/Ops.lean ====
section
/-! SUPPORT. What the shared operations can answer: a command body's steps, reads from a source, and the
end of a command. -/

namespace Sys2Proof.Machine

open Sys2Proof

/-! ### Running a body -/

@[simp] theorem ok_bind {α β : Type} (a : α) (f : α → Except Stop β) :
    ((Except.ok a : Except Stop α) >>= f) = f a := rfl

@[simp] theorem error_bind {α β : Type} (e : Stop) (f : α → Except Stop β) :
    ((Except.error e : Except Stop α) >>= f) = .error e := rfl

@[simp] theorem raise_bind {α β : Type} (e : Err) (f : α → Except Stop β) :
    ((raise e : Except Stop α) >>= f) = raise e := rfl

@[simp] theorem pure_eq_ok {α : Type} (a : α) : (pure a : Except Stop α) = .ok a := rfl

/-- A body that ends well did so at each of its steps. -/
theorem bind_ok_iff {α β : Type} {x : Except Stop α} {f : α → Except Stop β} {b : β} :
    (x >>= f) = .ok b ↔ ∃ a, x = .ok a ∧ f a = .ok b := by
  cases x with
  | error e => simp
  | ok a => simp

/-- Two bodies agree if what they do after a common step agrees. -/
theorem bind_congr_ok {α β : Type} {x : Except Stop α} {f g : α → Except Stop β}
    (h : ∀ a, x = .ok a → f a = g a) : (x >>= f) = (x >>= g) := by
  cases x with
  | error e => rfl
  | ok a => exact h a rfl

/-- A body that stops stopped at a first step. -/
theorem bind_error_iff {α β : Type} {x : Except Stop α} {f : α → Except Stop β} {e : Stop} :
    (x >>= f) = .error e ↔ x = .error e ∨ ∃ a, x = .ok a ∧ f a = .error e := by
  cases x with
  | error e' => simp
  | ok a => simp

/-- What a requirement does to the rest of a body. -/
theorem require_bind {c : Prop} [Decidable c] {e : Err} {β : Type} (f : Unit → Except Stop β) :
    (require c e >>= f) = if c then f () else raise e := by
  unfold require; split_ifs <;> rfl

theorem require_pos {c : Prop} [Decidable c] {e : Err} (h : c) : require c e = .ok () := if_pos h

theorem require_neg {c : Prop} [Decidable c] {e : Err} (h : ¬c) : require c e = raise e := if_neg h

theorem require_ok_iff {c : Prop} [Decidable c] {e : Err} {u : Unit} : require c e = .ok u ↔ c := by
  unfold require raise; split_ifs <;> simp_all

theorem require_error_iff {c : Prop} [Decidable c] {e : Err} {x : Stop} :
    require c e = .error x ↔ ¬c ∧ x = .err e := by
  unfold require raise; split_ifs <;> simp_all [eq_comm]

@[simp] theorem raise_ne_ok {α : Type} {e : Err} {a : α} : (raise e : Except Stop α) ≠ .ok a := by
  simp [raise]

/-! ### Sources -/

/-- A byte is read iff it has a value. -/
theorem Source.byte_ok_iff {src : Source} {i : Nat} {b : Byte} :
    src.byte i = .ok b ↔ src.get i = some b := by
  unfold Source.byte; split <;> simp_all

/-- Reading a byte stops only at one without a value. -/
theorem Source.byte_error_iff {src : Source} {i : Nat} {e : Stop} :
    src.byte i = .error e ↔ src.get i = none ∧ e = .fault (.noValue src.space i) := by
  unfold Source.byte
  cases h : src.get i <;> simp [eq_comm]

/-- What reading a span of bytes gives: exactly the bytes there, when each has a value. -/
theorem Source.bytes_ok_iff {src : Source} {a n : Nat} {bs : List Byte} :
    src.bytes a n = .ok bs ↔ bs.length = n ∧ ∀ j, j < n → src.get (a + j) = bs[j]? := by
  induction n generalizing a bs with
  | zero => cases bs <;> simp [Source.bytes]
  | succ n ih =>
    simp only [Source.bytes, bind_ok_iff, Source.byte_ok_iff, ih, pure_eq_ok, Except.ok.injEq]
    constructor
    · rintro ⟨b, hb, bs', ⟨hl, h⟩, rfl⟩
      refine ⟨by simp [hl], fun j hj => ?_⟩
      cases j with
      | zero => simpa using hb
      | succ j => rw [List.getElem?_cons_succ, ← h j (by omega)]; congr 1; omega
    · rintro ⟨hl, h⟩
      cases bs with
      | nil => simp at hl
      | cons b bs =>
        refine ⟨b, by simpa using h 0 (by omega), bs, ⟨by simpa using hl, fun j hj => ?_⟩, rfl⟩
        have := h (j + 1) (by omega)
        rw [List.getElem?_cons_succ] at this
        rw [← this]; congr 1; omega

/-- Reading a span stops only at a byte of it without a value. -/
theorem Source.bytes_error {src : Source} {a n : Nat} {e : Stop} (h : src.bytes a n = .error e) :
    ∃ i, a ≤ i ∧ i < a + n ∧ src.get i = none ∧ e = .fault (.noValue src.space i) := by
  induction n generalizing a with
  | zero => simp [Source.bytes] at h
  | succ n ih =>
    simp only [Source.bytes, bind_error_iff, Source.byte_error_iff, pure_eq_ok] at h
    rcases h with ⟨h1, h2⟩ | ⟨b, -, h | ⟨bs, -, h⟩⟩
    · exact ⟨a, by omega, by omega, h1, h2⟩
    · obtain ⟨i, hi⟩ := ih h
      exact ⟨i, by omega, by omega, hi.2.2⟩
    · simp at h

/-- A buffer that holds the bytes gives them when read. -/
theorem Memory.bytes_of_holds {m : Memory} {sp : Space} {a n : Nat} {bs : List Byte}
    (hn : bs.length = n) (h : m.holds a bs) : (m.source sp).bytes a n = .ok bs :=
  Source.bytes_ok_iff.2 ⟨hn, fun j hj => h j (by omega)⟩

/-- What a buffer gave when read, it holds. -/
theorem Memory.holds_of_bytes {m : Memory} {sp : Space} {a n : Nat} {bs : List Byte}
    (h : (m.source sp).bytes a n = .ok bs) : bs.length = n ∧ m.holds a bs :=
  have h := Source.bytes_ok_iff.1 h
  ⟨h.1, fun j hj => h.2 j (by omega)⟩

/-- A span whose bytes all have values can be read. -/
theorem Source.bytes_of_definedOn {src : Source} {a n : Nat} (h : src.definedOn a (a + n)) :
    ∃ bs, src.bytes a n = .ok bs := by
  cases hb : src.bytes a n with
  | ok bs => exact ⟨bs, rfl⟩
  | error e =>
    obtain ⟨i, h1, h2, h3, -⟩ := Source.bytes_error hb
    have := h i h1 h2
    rw [h3] at this
    simp at this

/-- Reading a span stops at its first byte without a value. -/
theorem Source.bytes_of_hole {src : Source} {a n x : Nat} (hd : src.definedOn a x)
    (hx : src.get x = none) (h1 : a ≤ x) (h2 : x < a + n) :
    src.bytes a n = .error (.fault (.noValue src.space x)) := by
  cases hb : src.bytes a n with
  | ok bs =>
    have hg := (Source.bytes_ok_iff.1 hb).2 (x - a) (by omega)
    have hl := (Source.bytes_ok_iff.1 hb).1
    rw [show a + (x - a) = x by omega, hx] at hg
    have := List.getElem?_eq_none_iff.1 hg.symm
    omega
  | error e =>
    induction n generalizing a with
    | zero => omega
    | succ n ih =>
      simp only [Source.bytes, bind_error_iff, Source.byte_error_iff, pure_eq_ok] at hb
      rcases hb with ⟨h, rfl⟩ | ⟨b, hb, h | ⟨bs, -, h⟩⟩
      · have : a = x := by
          by_contra hne
          have := hd a (Nat.le_refl _) (by omega)
          simp [h] at this
        rw [this]
      · have hne : a ≠ x := fun e => by
          rw [Source.byte_ok_iff, e, hx] at hb
          simp at hb
        exact ih (fun i hi => hd i (by omega)) (by omega) (by omega) h
      · simp at h

/-- A span whose bytes all have values can be read. -/
theorem Memory.bytes_of_definedOn {m : Memory} {sp : Space} {a n : Nat} (h : m.definedOn a (a + n)) :
    ∃ bs, (m.source sp).bytes a n = .ok bs := Source.bytes_of_definedOn h

/-! ### The end of a command -/

/-- A command goes on in one of two ways: its body ended, or it raised an error. -/
theorem endCommand_next_iff {r t : State} {b : Except Stop State} :
    endCommand r b = .next t ↔
      (∃ u, b = .ok u ∧ t = u.finish none) ∨ ∃ e, b = .error (.err e) ∧ t = r.finish (some e) := by
  rcases b with (e | f) | u <;> simp [endCommand, eq_comm]

/-- A command stops only at a byte without a value. -/
theorem endCommand_fault_iff {r : State} {b : Except Stop State} {f : Fault} :
    endCommand r b = .fault f ↔ b = .error (.fault f) := by
  rcases b with (e | f) | u <;> simp [endCommand]

/-- No command is refused. -/
theorem endCommand_not_refused {r : State} {b : Except Stop State} {x : Refusal} :
    endCommand r b ≠ .refused x := by
  rcases b with (e | f) | u <;> simp [endCommand]

@[simp] theorem endCommand_ok (r u : State) : endCommand r (.ok u) = .next (u.finish none) := rfl

@[simp] theorem endCommand_raise (r : State) (e : Err) :
    endCommand r (raise e) = .next (r.finish (some e)) := rfl

@[simp] theorem endCommand_err (r : State) (e : Err) :
    endCommand r (.error (.err e)) = .next (r.finish (some e)) := rfl

end Sys2Proof.Machine
end

