-- ==== Sys2Proof/Laws/Wire.lean ====
section
/-! SUPPORT. What the little-endian readers and the header decoders answer, and which bytes the encoders
give. -/

namespace Sys2Proof.Machine

open Sys2Proof

/-- Two bytes as a u16: the second is the high one. -/
theorem half_of_bytes (b0 b1 : Byte) :
    (b0.setWidth 16 ||| b1.setWidth 16 <<< 8 : Half) = b1 ++ b0 := by
  apply BitVec.eq_of_toNat_eq
  rw [BitVec.toNat_append, BitVec.toNat_or, Nat.lor_comm]
  congr 1
  · simp [BitVec.toNat_shiftLeft, Nat.shiftLeft_eq]; omega

/-- Four bytes as a u32: the fourth is the highest. -/
theorem word_of_bytes (b0 b1 b2 b3 : Byte) :
    (b0.setWidth 32 ||| b1.setWidth 32 <<< 8 ||| b2.setWidth 32 <<< 16 ||| b3.setWidth 32 <<< 24 : Word)
      = b3 ++ b2 ++ b1 ++ b0 := by
  apply BitVec.eq_of_toNat_eq
  have h0 := b0.isLt
  have h1 := b1.isLt
  have h2 := b2.isLt
  have h3 := b3.isLt
  simp only [BitVec.toNat_append, BitVec.toNat_or, BitVec.toNat_shiftLeft, BitVec.toNat_setWidth,
    Nat.shiftLeft_or_distrib, ← Nat.shiftLeft_add]
  rw [Nat.mod_eq_of_lt (a := b0.toNat) (by omega), Nat.mod_eq_of_lt (a := b1.toNat) (by omega),
    Nat.mod_eq_of_lt (a := b2.toNat) (by omega), Nat.mod_eq_of_lt (a := b3.toNat) (by omega)]
  simp only [Nat.shiftLeft_eq]
  rw [Nat.mod_eq_of_lt (a := b1.toNat * _) (by omega), Nat.mod_eq_of_lt (a := b2.toNat * _) (by omega),
    Nat.mod_eq_of_lt (a := b3.toNat * _) (by omega)]
  rw [Nat.lor_comm, Nat.lor_comm (_ ||| _) (b2.toNat * _), Nat.lor_comm b0.toNat]
  simp only [Nat.lor_assoc]

/-- `le16` reads two bytes, the low one first. -/
theorem le16_ok_iff {src : Source} {o : Nat} {v : Half} :
    le16 src o = .ok v ↔ ∃ b0 b1, src.get o = some b0 ∧ src.get (o + 1) = some b1 ∧ v = b1 ++ b0 := by
  simp only [le16, bind_ok_iff, Source.byte_ok_iff, pure_eq_ok, Except.ok.injEq, half_of_bytes]
  constructor
  · rintro ⟨b0, h0, b1, h1, rfl⟩; exact ⟨b0, b1, h0, h1, rfl⟩
  · rintro ⟨b0, b1, h0, h1, rfl⟩; exact ⟨b0, h0, b1, h1, rfl⟩

/-- `le32` reads four bytes, the lowest one first. -/
theorem le32_ok_iff {src : Source} {o : Nat} {v : Word} :
    le32 src o = .ok v ↔ ∃ b0 b1 b2 b3, src.get o = some b0 ∧ src.get (o + 1) = some b1 ∧
      src.get (o + 2) = some b2 ∧ src.get (o + 3) = some b3 ∧ v = b3 ++ b2 ++ b1 ++ b0 := by
  simp only [le32, bind_ok_iff, Source.byte_ok_iff, pure_eq_ok, Except.ok.injEq, word_of_bytes]
  constructor
  · rintro ⟨b0, h0, b1, h1, b2, h2, b3, h3, rfl⟩; exact ⟨b0, b1, b2, b3, h0, h1, h2, h3, rfl⟩
  · rintro ⟨b0, b1, b2, b3, h0, h1, h2, h3, rfl⟩; exact ⟨b0, h0, b1, h1, b2, h2, b3, h3, rfl⟩

/-- A little-endian reader stops only at one of its bytes that has no value. -/
theorem le16_error {src : Source} {o : Nat} {e : Stop} (h : le16 src o = .error e) :
    ∃ i, o ≤ i ∧ i < o + 2 ∧ src.get i = none ∧ e = .fault (.noValue src.space i) := by
  simp only [le16, bind_error_iff, Source.byte_error_iff, pure_eq_ok] at h
  rcases h with ⟨h, rfl⟩ | ⟨b, -, ⟨h, rfl⟩ | ⟨b', -, h⟩⟩
  · exact ⟨o, by omega, by omega, h, rfl⟩
  · exact ⟨o + 1, by omega, by omega, h, rfl⟩
  · simp at h

theorem le32_error {src : Source} {o : Nat} {e : Stop} (h : le32 src o = .error e) :
    ∃ i, o ≤ i ∧ i < o + 4 ∧ src.get i = none ∧ e = .fault (.noValue src.space i) := by
  simp only [le32, bind_error_iff, Source.byte_error_iff, pure_eq_ok] at h
  rcases h with ⟨h, rfl⟩ | ⟨b, -, ⟨h, rfl⟩ | ⟨b', -, ⟨h, rfl⟩ | ⟨b2, -, ⟨h, rfl⟩ | ⟨b3, -, h⟩⟩⟩⟩
  · exact ⟨o, by omega, by omega, h, rfl⟩
  · exact ⟨o + 1, by omega, by omega, h, rfl⟩
  · exact ⟨o + 2, by omega, by omega, h, rfl⟩
  · exact ⟨o + 3, by omega, by omega, h, rfl⟩
  · simp at h

/-- A u16 is its two bytes put together. -/
theorem half_split (v : Half) : v.extractLsb' 8 8 ++ v.extractLsb' 0 8 = v := by
  apply BitVec.eq_of_getLsbD_eq
  intro i hi
  simp only [BitVec.getLsbD_append, BitVec.getLsbD_extractLsb']
  rcases Nat.lt_or_ge i 8 with h | h <;> simp [h]
  simp [show ¬ i < 8 by omega, show i - 8 < 8 by omega]

/-- A u32 is its four bytes put together. -/
theorem word_split (v : Word) :
    v.extractLsb' 24 8 ++ v.extractLsb' 16 8 ++ v.extractLsb' 8 8 ++ v.extractLsb' 0 8 = v := by
  apply BitVec.eq_of_getLsbD_eq
  intro i hi
  simp only [BitVec.getLsbD_append, BitVec.getLsbD_extractLsb']
  rcases Nat.lt_or_ge i 8 with h | h
  · simp [h]
  · rcases Nat.lt_or_ge i 16 with h' | h'
    · simp [show ¬ i < 8 by omega, show i - 8 < 8 by omega, show 8 + (i - 8) = i by omega]
    · rcases Nat.lt_or_ge i 24 with h'' | h''
      · simp [show ¬ i < 8 by omega, show ¬ i - 8 < 8 by omega, show i - 8 - 8 < 8 by omega, show 16 + (i - 8 - 8) = i by omega]
      · simp [show ¬ i < 8 by omega, show ¬ i - 8 < 8 by omega, show ¬ i - 8 - 8 < 8 by omega, show i - 8 - 8 - 8 < 8 by omega, show 24 + (i - 8 - 8 - 8) = i by omega]

/-- The encoders give the bytes of the layout tables (30_encoding.md R80, R81). -/
theorem encodePH_eq (h : PacketHeader) : encodePH h = packetBytes h h.checksum := rfl

theorem encodeFH_eq (h : FragmentHeader) : encodeFH h = fragmentBytes h := rfl

@[simp] theorem encodePH_length (h : PacketHeader) : (encodePH h).length = 20 := rfl

@[simp] theorem encodeFH_length (h : FragmentHeader) : (encodeFH h).length = 16 := rfl

@[simp] theorem bytes32_length (v : Word) : (bytes32 v).length = 4 := rfl

@[simp] theorem wordBytes_length (v : Word) (n : Nat) : (wordBytes v n).length = n := by
  simp [wordBytes]

/-- A header decoder stops only at one of its bytes that has no value. -/
theorem decodeFH_error {src : Source} {o : Nat} {e : Stop} (h : decodeFH src o = .error e) :
    ∃ i, o ≤ i ∧ i < o + 16 ∧ src.get i = none ∧ e = .fault (.noValue src.space i) := by
  simp only [decodeFH, bind_error_iff, pure_eq_ok] at h
  rcases h with h | ⟨_, -, h | ⟨_, -, h | ⟨_, -, h | ⟨_, -, h | ⟨_, -, h | ⟨_, -, h⟩⟩⟩⟩⟩⟩
  · obtain ⟨i, h1, h2, h3⟩ := le32_error h; exact ⟨i, by omega, by omega, h3⟩
  · obtain ⟨i, h1, h2, h3⟩ := le32_error h; exact ⟨i, by omega, by omega, h3⟩
  · obtain ⟨i, h1, h2, h3⟩ := le16_error h; exact ⟨i, by omega, by omega, h3⟩
  · obtain ⟨i, h1, h2, h3⟩ := le16_error h; exact ⟨i, by omega, by omega, h3⟩
  · obtain ⟨i, h1, h2, h3⟩ := le16_error h; exact ⟨i, by omega, by omega, h3⟩
  · obtain ⟨i, h1, h2, h3⟩ := le16_error h; exact ⟨i, by omega, by omega, h3⟩
  · simp at h

theorem decodePH_error {src : Source} {o : Nat} {e : Stop} (h : decodePH src o = .error e) :
    ∃ i, o ≤ i ∧ i < o + 20 ∧ src.get i = none ∧ e = .fault (.noValue src.space i) := by
  simp only [decodePH, bind_error_iff, pure_eq_ok] at h
  rcases h with h | ⟨_, -, h | ⟨_, -, h | ⟨_, -, h | ⟨_, -, h | ⟨_, -, h | ⟨_, -, h | ⟨_, -, h⟩⟩⟩⟩⟩⟩⟩
  · obtain ⟨i, h1, h2, h3⟩ := le32_error h; exact ⟨i, by omega, by omega, h3⟩
  · obtain ⟨i, h1, h2, h3⟩ := le32_error h; exact ⟨i, by omega, by omega, h3⟩
  · obtain ⟨i, h1, h2, h3⟩ := le32_error h; exact ⟨i, by omega, by omega, h3⟩
  · obtain ⟨i, h1, h2, h3⟩ := le16_error h; exact ⟨i, by omega, by omega, h3⟩
  · obtain ⟨i, h1, h2, h3⟩ := le16_error h; exact ⟨i, by omega, by omega, h3⟩
  · obtain ⟨i, h1, h2, h3⟩ := le16_error h; exact ⟨i, by omega, by omega, h3⟩
  · obtain ⟨i, h1, h2, h3⟩ := le16_error h; exact ⟨i, by omega, by omega, h3⟩
  · simp at h

/-! ### Decoding bytes that are there -/

/-- A byte appended below, as a number. -/
theorem toNat_append_byte {n : Nat} (x : BitVec n) (y : Byte) :
    (x ++ y).toNat = x.toNat * 256 + y.toNat := by
  rw [BitVec.toNat_append, ← Nat.shiftLeft_add_eq_or_of_lt y.isLt, Nat.shiftLeft_eq]

/-- The low and the high byte of a u16 put together from two. -/
theorem half_bytes (x y : Byte) :
    (x ++ y : Half).extractLsb' 0 8 = y ∧ (x ++ y : Half).extractLsb' 8 8 = x := by
  have hx := x.isLt
  have hy := y.isLt
  have h := toNat_append_byte x y
  constructor <;> apply BitVec.eq_of_toNat_eq <;>
    rw [BitVec.extractLsb'_toNat, h, Nat.shiftRight_eq_div_pow] <;> omega

/-- The bytes of a u32 put together from four, the lowest first. -/
theorem word_bytes (x y z w : Byte) :
    (x ++ y ++ z ++ w : Word).extractLsb' 0 8 = w ∧ (x ++ y ++ z ++ w : Word).extractLsb' 8 8 = z ∧
      (x ++ y ++ z ++ w : Word).extractLsb' 16 8 = y ∧
      (x ++ y ++ z ++ w : Word).extractLsb' 24 8 = x := by
  have hx := x.isLt
  have hy := y.isLt
  have hz := z.isLt
  have hw := w.isLt
  have h := toNat_append_byte (x ++ y ++ z) w
  rw [toNat_append_byte (x ++ y) z, toNat_append_byte x y] at h
  refine ⟨?_, ?_, ?_, ?_⟩ <;> apply BitVec.eq_of_toNat_eq <;>
    rw [BitVec.extractLsb'_toNat, h, Nat.shiftRight_eq_div_pow] <;> omega

/-- `le16` of two bytes that are there. -/
theorem le16_of_bytes {src : Source} {o : Nat} {b0 b1 : Byte} (h0 : src.get o = some b0)
    (h1 : src.get (o + 1) = some b1) : le16 src o = .ok (b1 ++ b0) :=
  le16_ok_iff.2 ⟨b0, b1, h0, h1, rfl⟩

/-- `le32` of four bytes that are there. -/
theorem le32_of_bytes {src : Source} {o : Nat} {b0 b1 b2 b3 : Byte} (h0 : src.get o = some b0)
    (h1 : src.get (o + 1) = some b1) (h2 : src.get (o + 2) = some b2)
    (h3 : src.get (o + 3) = some b3) : le32 src o = .ok (b3 ++ b2 ++ b1 ++ b0) :=
  le32_ok_iff.2 ⟨b0, b1, b2, b3, h0, h1, h2, h3, rfl⟩

/-- `decodePH` of 20 bytes that are there (30_encoding.md R80). -/
theorem decodePH_of_bytes {src : Source} {o : Nat} {b : Nat → Byte}
    (h : ∀ j, j < 20 → src.get (o + j) = some (b j)) :
    decodePH src o = .ok ⟨b 3 ++ b 2 ++ b 1 ++ b 0, b 7 ++ b 6 ++ b 5 ++ b 4,
      b 11 ++ b 10 ++ b 9 ++ b 8, b 13 ++ b 12, b 15 ++ b 14, b 17 ++ b 16, b 19 ++ b 18⟩ := by
  unfold decodePH
  rw [le32_of_bytes (h 0 (by omega)) (h 1 (by omega)) (h 2 (by omega)) (h 3 (by omega)), ok_bind,
    le32_of_bytes (h 4 (by omega)) (h 5 (by omega)) (h 6 (by omega)) (h 7 (by omega)), ok_bind,
    le32_of_bytes (h 8 (by omega)) (h 9 (by omega)) (h 10 (by omega)) (h 11 (by omega)), ok_bind,
    le16_of_bytes (h 12 (by omega)) (h 13 (by omega)), ok_bind,
    le16_of_bytes (h 14 (by omega)) (h 15 (by omega)), ok_bind,
    le16_of_bytes (h 16 (by omega)) (h 17 (by omega)), ok_bind,
    le16_of_bytes (h 18 (by omega)) (h 19 (by omega)), ok_bind]
  rfl

/-- `decodeFH` of 16 bytes that are there (30_encoding.md R81). -/
theorem decodeFH_of_bytes {src : Source} {o : Nat} {b : Nat → Byte}
    (h : ∀ j, j < 16 → src.get (o + j) = some (b j)) :
    decodeFH src o = .ok ⟨b 3 ++ b 2 ++ b 1 ++ b 0, b 7 ++ b 6 ++ b 5 ++ b 4, b 9 ++ b 8,
      b 11 ++ b 10, b 13 ++ b 12, b 15 ++ b 14⟩ := by
  unfold decodeFH
  rw [le32_of_bytes (h 0 (by omega)) (h 1 (by omega)) (h 2 (by omega)) (h 3 (by omega)), ok_bind,
    le32_of_bytes (h 4 (by omega)) (h 5 (by omega)) (h 6 (by omega)) (h 7 (by omega)), ok_bind,
    le16_of_bytes (h 8 (by omega)) (h 9 (by omega)), ok_bind,
    le16_of_bytes (h 10 (by omega)) (h 11 (by omega)), ok_bind,
    le16_of_bytes (h 12 (by omega)) (h 13 (by omega)), ok_bind,
    le16_of_bytes (h 14 (by omega)) (h 15 (by omega)), ok_bind]
  rfl

/-- `decodePH` where a header's bytes lie. -/
theorem decodePH_of_packetBytes {src : Source} {o : Nat} {h : PacketHeader}
    (hb : ∀ j, j < 20 → src.get (o + j) = (packetBytes h h.checksum)[j]?) :
    decodePH src o = .ok h := by
  rw [decodePH_of_bytes (b := fun j => (packetBytes h h.checksum)[j]?.getD 0)]
  · show Except.ok (PacketHeader.mk _ _ _ _ _ _ _) = _
    obtain ⟨a1, a2, a3, a4, a5, a6, a7⟩ := h
    exact congrArg Except.ok (congr (congr (congr (congr (congr (congr (congrArg PacketHeader.mk
      (word_split a1)) (word_split a2)) (word_split a3)) (half_split a4)) (half_split a5))
      (half_split a6)) (half_split a7))
  · intro j hj
    rw [hb j hj, List.getElem?_eq_getElem (show j < (packetBytes h h.checksum).length from hj)]; rfl

/-- `decodeFH` where a header's bytes lie. -/
theorem decodeFH_of_fragmentBytes {src : Source} {o : Nat} {h : FragmentHeader}
    (hb : ∀ j, j < 16 → src.get (o + j) = (fragmentBytes h)[j]?) : decodeFH src o = .ok h := by
  rw [decodeFH_of_bytes (b := fun j => (fragmentBytes h)[j]?.getD 0)]
  · show Except.ok (FragmentHeader.mk _ _ _ _ _ _) = _
    obtain ⟨a1, a2, a3, a4, a5, a6⟩ := h
    exact congrArg Except.ok (congr (congr (congr (congr (congr (congrArg FragmentHeader.mk
      (word_split a1)) (word_split a2)) (half_split a3)) (half_split a4)) (half_split a5))
      (half_split a6))
  · intro j hj
    rw [hb j hj, List.getElem?_eq_getElem (show j < (fragmentBytes h).length from hj)]; rfl

/-! ### The bounds of an RX access -/

theorem checkRxSpan_outOfRange {s : State} {o n : Nat} (h : s.rxlen.toNat < o) :
    checkRxSpan s o n = raise .outOfRange := by
  unfold checkRxSpan
  rw [require_neg (by omega), raise_bind]

theorem checkRxSpan_truncated {s : State} {o n : Nat} (h : o ≤ s.rxlen.toNat)
    (h' : s.rxlen.toNat < o + n) : checkRxSpan s o n = raise .truncatedInput := by
  unfold checkRxSpan
  rw [require_pos h, ok_bind, require_neg (by omega)]

/-- An RX access passes its bounds exactly when its span ends at or below RXLEN (20_memory.md R67). -/
theorem checkRxSpan_ok_iff {s : State} {o n : Nat} {u : Unit} :
    checkRxSpan s o n = .ok u ↔ o ≤ s.rxlen.toNat ∧ o + n ≤ s.rxlen.toNat := by
  simp only [checkRxSpan, bind_ok_iff, require_ok_iff, exists_and_left, exists_const]
  omega

theorem checkRxSpan_error {s : State} {o n : Nat} {e : Stop} (h : checkRxSpan s o n = .error e) :
    e = .err .outOfRange ∨ e = .err .truncatedInput := by
  simp only [checkRxSpan, bind_error_iff, require_error_iff] at h
  rcases h with ⟨-, rfl⟩ | ⟨-, -, -, rfl⟩ <;> simp

end Sys2Proof.Machine
end

