-- ==== Sys2Proof/Laws/Region.lean ====
section
/-! SUPPORT. What the walks over a data region answer: the optional header walk never passes its end, the
fragment loop tiles its span exactly, and both depend on nothing but the bytes they read. -/

namespace Sys2Proof.Machine

open Sys2Proof

/-! ### The optional header walk -/

/-- Skipping opaque bytes succeeds exactly when they fit and each has a value (20_memory.md R66). -/
theorem optSkip_ok_iff {src : Source} {stop p n q : Nat} (hp : p ≤ stop) :
    optSkip src stop p n = .ok q ↔ p + n ≤ stop ∧ src.definedOn p (p + n) ∧ q = p + n := by
  simp only [optSkip, bind_ok_iff, require_ok_iff, pure_eq_ok, Except.ok.injEq]
  constructor
  · rintro ⟨_, h, bs, hb, rfl⟩
    have hb := Source.bytes_ok_iff.1 hb
    refine ⟨by omega, fun x h1 h2 => ?_, rfl⟩
    have := hb.2 (x - p) (by omega)
    rw [show p + (x - p) = x by omega, List.getElem?_eq_getElem (by omega)] at this
    simp [this]
  · rintro ⟨h, hd, rfl⟩
    obtain ⟨bs, hb⟩ := Source.bytes_of_definedOn hd
    exact ⟨(), by omega, bs, hb, rfl⟩

/-- Skipping opaque bytes that have values if they fit. -/
theorem optSkip_eq {src : Source} {stop p n : Nat} (hp : p ≤ stop)
    (hd : p + n ≤ stop → src.definedOn p (p + n)) :
    optSkip src stop p n = if p + n ≤ stop then .ok (p + n) else raise .truncatedInput := by
  split_ifs with h
  · exact (optSkip_ok_iff hp).2 ⟨h, hd h, rfl⟩
  · unfold optSkip
    rw [require_neg (by omega), raise_bind]

/-- Skipping opaque bytes that fit stops at the first without a value. -/
theorem optSkip_of_hole {src : Source} {stop p n x : Nat} (hd : src.definedOn p x)
    (hx : src.get x = none) (h1 : p ≤ x) (h2 : x < p + n) (h3 : p + n ≤ stop) :
    optSkip src stop p n = .error (.fault (.noValue src.space x)) := by
  unfold optSkip
  rw [require_pos (by omega), ok_bind, Source.bytes_of_hole hd hx h1 h2, error_bind]

/-- Skipping stops with TruncatedInput, or at an opaque byte without a value. -/
theorem optSkip_error {src : Source} {stop p n : Nat} {e : Stop} (hp : p ≤ stop)
    (h : optSkip src stop p n = .error e) :
    e = .err .truncatedInput ∨
      ∃ i, p ≤ i ∧ i < stop ∧ src.get i = none ∧ e = .fault (.noValue src.space i) := by
  simp only [optSkip, bind_error_iff, require_error_iff, require_ok_iff, pure_eq_ok] at h
  rcases h with ⟨-, rfl⟩ | ⟨_, hn, h | ⟨_, -, h⟩⟩
  · exact .inl rfl
  · obtain ⟨i, h1, h2, h3⟩ := Source.bytes_error h
    exact .inr ⟨i, h1, by omega, h3⟩
  · simp at h

/-- A block's end lies between its start and the region's end. -/
theorem optBlock_bound {P : Config.Params} {src : Source} {stop p q : Nat} {k : OptKind}
    (hp : p ≤ stop) (h : optBlock P src stop p k = .ok q) : p ≤ q ∧ q ≤ stop := by
  cases k with
  | fixed n =>
    obtain ⟨h1, -, rfl⟩ := (optSkip_ok_iff hp).1 h
    omega
  | prefixed =>
    simp only [optBlock, bind_ok_iff, require_ok_iff] at h
    obtain ⟨_, h1, n, -, h⟩ := h
    obtain ⟨h2, -, rfl⟩ := (optSkip_ok_iff (by omega)).1 h
    omega

/-- An entry's end lies between its start and the region's end. -/
theorem optEntry_bound {P : Config.Params} {flags : Word} {src : Source} {stop p q : Nat}
    {c : Flag × OptKind} (hp : p ≤ stop) (h : optEntry P flags src stop p c = .ok q) :
    p ≤ q ∧ q ≤ stop := by
  unfold optEntry at h
  split_ifs at h
  · exact optBlock_bound hp h
  · simp only [Except.ok.injEq] at h; omega

/-- The walk moves forward and never past the region's end. -/
theorem optWalk_bound {P : Config.Params} {flags : Word} {src : Source} {stop p q : Nat}
    {l : List (Flag × OptKind)} (hp : p ≤ stop) (h : optWalk P flags src stop l p = .ok q) :
    p ≤ q ∧ q ≤ stop := by
  induction l generalizing p with
  | nil => simp only [optWalk, Except.ok.injEq] at h; omega
  | cons c l ih =>
    simp only [optWalk, bind_ok_iff] at h
    obtain ⟨r, hr, h⟩ := h
    have hb := optEntry_bound hp hr
    have := ih hb.2 h
    omega

/-- On success the region measured lies inside the bounds (43_optional_header.md R141, "Bound"). -/
theorem optLen_le {P : Config.Params} {flags : Word} {src : Source} {start stop n : Nat}
    (hp : start ≤ stop) (h : optLen P flags src start stop = .ok n) : start + n ≤ stop := by
  simp only [optLen, bind_ok_iff, pure_eq_ok, Except.ok.injEq] at h
  obtain ⟨q, hq, rfl⟩ := h
  have := optWalk_bound hp hq
  omega

/-- An entry stops with TruncatedInput, or at a byte of the region without a value. -/
theorem optEntry_error {P : Config.Params} {flags : Word} {src : Source} {stop p : Nat}
    {c : Flag × OptKind} {e : Stop} (hp : p ≤ stop) (h : optEntry P flags src stop p c = .error e) :
    e = .err .truncatedInput ∨
      ∃ i, p ≤ i ∧ i < stop ∧ src.get i = none ∧ e = .fault (.noValue src.space i) := by
  obtain ⟨f, k⟩ := c
  unfold optEntry at h
  split_ifs at h
  cases k with
  | fixed n => exact optSkip_error hp h
  | prefixed =>
    simp only [optBlock, bind_error_iff, require_error_iff, require_ok_iff] at h
    rcases h with ⟨-, rfl⟩ | ⟨_, h4, h | ⟨n, -, h⟩⟩
    · exact .inl rfl
    · obtain ⟨i, h1, h2, h3⟩ := le32_error h
      exact .inr ⟨i, by omega, by omega, h3⟩
    · rcases optSkip_error (by omega) h with h | ⟨i, h1, h2⟩
      · exact .inl h
      · exact .inr ⟨i, by omega, h2⟩

/-- The walk stops with TruncatedInput, or at a byte of the region without a value. -/
theorem optWalk_error {P : Config.Params} {flags : Word} {src : Source} {stop p : Nat}
    {l : List (Flag × OptKind)} {e : Stop} (hp : p ≤ stop)
    (h : optWalk P flags src stop l p = .error e) :
    e = .err .truncatedInput ∨
      ∃ i, p ≤ i ∧ i < stop ∧ src.get i = none ∧ e = .fault (.noValue src.space i) := by
  induction l generalizing p with
  | nil => simp [optWalk] at h
  | cons c l ih =>
    simp only [optWalk, bind_error_iff] at h
    rcases h with h | ⟨q, hq, h⟩
    · exact optEntry_error hp h
    · have hb := optEntry_bound hp hq
      rcases ih hb.2 h with h | ⟨i, h1, h2, h3⟩
      · exact .inl h
      · exact .inr ⟨i, by omega, h2, h3⟩

/-! ### The fragment loop -/

/-- A decoded fragment has room for its header and payload. -/
theorem fragDecode_ok {src : Source} {p stop : Nat} {h : FragmentHeader}
    (hd : fragDecode src p stop = .ok h) :
    decodeFH src p = .ok h ∧ 16 ≤ h.size.toNat ∧ p + h.size.toNat ≤ stop := by
  simp only [fragDecode, bind_ok_iff, require_ok_iff, pure_eq_ok, Except.ok.injEq] at hd
  obtain ⟨_, h1, h', h2, _, h3, _, h4, rfl⟩ := hd
  exact ⟨h2, h3, by omega⟩

/-- A fragment that does not decode raises one of two errors, or lacks a byte. -/
theorem fragDecode_error {src : Source} {p stop : Nat} {e : Stop}
    (hd : fragDecode src p stop = .error e) :
    e = .err .truncatedInput ∨ e = .err .invalidFragmentSize ∨
      ∃ i, p ≤ i ∧ i < stop ∧ src.get i = none ∧ e = .fault (.noValue src.space i) := by
  simp only [fragDecode, bind_error_iff, require_error_iff, require_ok_iff, pure_eq_ok] at hd
  rcases hd with ⟨-, rfl⟩ | ⟨_, h16, h | ⟨_, -, ⟨-, rfl⟩ | ⟨_, -, ⟨-, rfl⟩ | ⟨_, -, h⟩⟩⟩⟩
  · exact .inl rfl
  · obtain ⟨i, h1, h2, h3⟩ := decodeFH_error h
    exact .inr (.inr ⟨i, by omega, by omega, h3⟩)
  · exact .inr (.inl rfl)
  · exact .inl rfl
  · simp at h

/-- The fragments of a list lie back to back from `p`, each of at least 16 bytes and decoded from the
source, and end at `stop`. -/
def fragsOf (src : Source) (stop : Nat) : Nat → List (Nat × FragmentHeader) → Prop
  | p, []      => p = stop
  | p, f :: fs => f.1 = p ∧ p < stop ∧ fragDecode src p stop = .ok f.2
      ∧ fragsOf src stop (p + f.2.size.toNat) fs

/-- The loop answers a list exactly when the list tiles the span, with any fuel that reaches its end. -/
theorem fragLoop_ok_iff {src : Source} {stop fuel p : Nat} {l : List (Nat × FragmentHeader)}
    (hp : p ≤ stop) (hf : stop - p ≤ fuel) :
    fragLoop src stop fuel p = .ok l ↔ fragsOf src stop p l := by
  induction fuel generalizing p l with
  | zero =>
    have : p = stop := by omega
    cases l <;> simp [fragLoop, fragsOf, this]
  | succ fuel ih =>
    rw [fragLoop]
    split_ifs with hlt
    · simp only [bind_ok_iff, pure_eq_ok, Except.ok.injEq]
      constructor
      · rintro ⟨h, hd, rest, hr, rfl⟩
        have hk := fragDecode_ok hd
        exact ⟨rfl, hlt, hd, (ih hk.2.2 (by omega)).1 hr⟩
      · intro hl
        cases l with
        | nil => simp only [fragsOf] at hl; omega
        | cons f fs =>
          obtain ⟨p', h⟩ := f
          obtain ⟨rfl, -, hd, hr⟩ := hl
          have hk := fragDecode_ok hd
          exact ⟨h, hd, fs, (ih hk.2.2 (by omega)).2 hr, rfl⟩
    · have : p = stop := by omega
      cases l <;> simp [fragsOf, this]

/-- `fragList` answers a list exactly when the list tiles the span (44_fragment_codec.md R151). -/
theorem fragList_ok_iff {src : Source} {start stop : Nat} {l : List (Nat × FragmentHeader)}
    (hp : start ≤ stop) : fragList src start stop = .ok l ↔ fragsOf src stop start l :=
  fragLoop_ok_iff hp (Nat.le_refl _)

/-- The loop stops at the first fragment that does not decode. -/
theorem fragLoop_error {src : Source} {stop fuel p : Nat} {e : Stop} (hp : p ≤ stop)
    (h : fragLoop src stop fuel p = .error e) :
    e = .err .truncatedInput ∨ e = .err .invalidFragmentSize ∨
      ∃ i, p ≤ i ∧ i < stop ∧ src.get i = none ∧ e = .fault (.noValue src.space i) := by
  induction fuel generalizing p with
  | zero => simp [fragLoop] at h
  | succ fuel ih =>
    rw [fragLoop] at h
    split_ifs at h with hlt
    simp only [bind_error_iff, pure_eq_ok] at h
    rcases h with h | ⟨f, hd, h | ⟨_, -, h⟩⟩
    · exact fragDecode_error h
    · have hk := fragDecode_ok hd
      rcases ih hk.2.2 h with h | h | ⟨i, h1, h2, h3⟩
      · exact .inl h
      · exact .inr (.inl h)
      · exact .inr (.inr ⟨i, by omega, h2, h3⟩)
    · simp at h

/-- Fragments that tile a span take exactly its bytes. -/
theorem fragsOf_sum {src : Source} {stop p : Nat} {l : List (Nat × FragmentHeader)} (hp : p ≤ stop)
    (h : fragsOf src stop p l) : p + (l.map (fun f => f.2.size.toNat)).sum = stop := by
  induction l generalizing p with
  | nil => simpa [fragsOf] using h
  | cons f fs ih =>
    obtain ⟨-, -, hd, hr⟩ := h
    have := ih (fragDecode_ok hd).2.2 hr
    simp only [List.map_cons, List.sum_cons]
    omega

/-- A list source answers with the list's bytes. -/
theorem listSource_get {sp : Space} {bs : List Byte} {i : Nat} :
    (listSource sp bs).get i = bs[i]? := rfl

/-! ### The whole region -/

/-- What a parsed region is: the optional part inside the data, and the fragments tiling the rest when
BlobFragments is set (45_packet_assembler.md R170). -/
theorem regionParse_ok {P : Config.Params} {flags : Word} {data : List Byte} {r : Region}
    (h : regionParse P flags data = .ok r) :
    optLen P flags (listSource .cpd data) 0 data.length = .ok r.optLen ∧ r.optLen ≤ data.length ∧
      (has P flags .blobFragments = true →
        fragsOf (listSource .cpd data) data.length r.optLen r.frags) ∧
      (has P flags .blobFragments = false → r.frags = []) := by
  simp only [regionParse, bind_ok_iff, pure_eq_ok, Except.ok.injEq] at h
  obtain ⟨n, hn, l, hl, rfl⟩ := h
  have hle := optLen_le (Nat.zero_le _) hn
  refine ⟨hn, by simpa using hle, fun hb => ?_, fun hb => ?_⟩
  · rw [regionFrags, if_pos hb] at hl
    exact (fragList_ok_iff (by simpa using hle)).1 hl
  · rw [regionFrags, if_neg (by simp [hb])] at hl
    simpa using hl.symm

/-- Parsing a region that is all there raises an error or ends well: it never lacks a byte. -/
theorem regionParse_no_fault {P : Config.Params} {flags : Word} {data : List Byte}
    {f : Fault} : regionParse P flags data ≠ .error (.fault f) := by
  intro h
  have key : ∀ i, i < data.length → (listSource .cpd data).get i ≠ none := fun i hi => by
    simp [listSource_get, List.getElem?_eq_getElem hi]
  simp only [regionParse, bind_error_iff, pure_eq_ok] at h
  rcases h with h | ⟨n, hn, h | ⟨_, -, h⟩⟩
  · simp only [optLen, bind_error_iff, pure_eq_ok] at h
    rcases h with h | ⟨_, -, h⟩
    · rcases optWalk_error (Nat.zero_le _) h with h | ⟨i, -, h2, h3, -⟩
      · simp at h
      · exact key i h2 h3
    · simp at h
  · have hle := optLen_le (Nat.zero_le _) hn
    unfold regionFrags at h
    split_ifs at h
    rcases fragLoop_error (by simpa using hle) h with h | h | ⟨i, -, h2, h3, -⟩
    · simp at h
    · simp at h
    · exact key i h2 h3
  · simp at h

end Sys2Proof.Machine
end

