-- ==== Sys2Proof/Laws/Commands.lean ====
section
/-! SUPPORT. What each command can do: for every command one lemma that takes a next state apart, into the
state its rule commits or an error's, and one that says where it stops. -/

namespace Sys2Proof.Machine

open Sys2Proof

/-! ### Bodies that end well -/

theorem hdrLoadBody_ok_iff {s u : State} : hdrLoadBody s = .ok u ↔
    s.arg0.toNat + 20 ≤ s.rxlen.toNat ∧
      ∃ h, decodePH s.rxSource s.arg0.toNat = .ok h ∧ u = { s with hdr := h } := by
  simp only [hdrLoadBody, bind_ok_iff, checkRxSpan_ok_iff, pure_eq_ok, Except.ok.injEq,
    State.rxOffset, Config.phSize]
  constructor
  · rintro ⟨_, ⟨_, h⟩, x, hx, rfl⟩; exact ⟨h, x, hx, rfl⟩
  · rintro ⟨h, x, hx, rfl⟩; exact ⟨(), ⟨by omega, h⟩, x, hx, rfl⟩

theorem fhdrLoadBody_ok_iff {s u : State} : fhdrLoadBody s = .ok u ↔
    s.arg0.toNat + 16 ≤ s.rxlen.toNat ∧
      ∃ h, decodeFH s.rxSource s.arg0.toNat = .ok h ∧ u = { s with fh := h } := by
  simp only [fhdrLoadBody, bind_ok_iff, checkRxSpan_ok_iff, pure_eq_ok, Except.ok.injEq,
    State.rxOffset, Config.fhSize]
  constructor
  · rintro ⟨_, ⟨_, h⟩, x, hx, rfl⟩; exact ⟨h, x, hx, rfl⟩
  · rintro ⟨h, x, hx, rfl⟩; exact ⟨(), ⟨by omega, h⟩, x, hx, rfl⟩

theorem optDecodeBody_ok_iff {P : Config.Params} {s u : State} : optDecodeBody P s = .ok u ↔
    s.arg0.toNat ≤ s.rxlen.toNat ∧
      ∃ n, optLen P s.hdr.flags s.rxSource s.arg0.toNat s.rxlen.toNat = .ok n ∧
        u = { s with res := BitVec.ofNat 32 n } := by
  simp only [optDecodeBody, bind_ok_iff, require_ok_iff, pure_eq_ok, Except.ok.injEq]
  constructor
  · rintro ⟨_, h, x, hx, rfl⟩; exact ⟨h, x, hx, rfl⟩
  · rintro ⟨h, x, hx, rfl⟩; exact ⟨(), h, x, hx, rfl⟩

theorem cpFragSelectBody_ok_iff {s u : State} : cpFragSelectBody s = .ok u ↔
    s.cpValid = true ∧ ∃ f, s.frags[s.arg0.toNat]? = some f ∧
      u = { s with fh := f.hdr, cpFsel := s.arg0, res := BitVec.ofNat 32 f.left } := by
  simp only [cpFragSelectBody, bind_ok_iff, require_ok_iff, State.fragIndex]
  cases s.frags[s.arg0.toNat]? with
  | none => exact ⟨fun ⟨_, _, h⟩ => absurd h raise_ne_ok, fun ⟨_, f, h, _⟩ => by cases h⟩
  | some f =>
    refine ⟨fun ⟨_, hv, h⟩ => ⟨hv, f, rfl, (Except.ok.inj h).symm⟩, fun ⟨hv, g, hg, h⟩ => ⟨(), hv, ?_⟩⟩
    cases hg; rw [h]; rfl

theorem byteCount_ok_iff {n : BitVec 3} {k : Nat} : byteCount n = .ok k ↔ countLegal n ∧ k = n.toNat := by
  unfold byteCount raise
  split_ifs with h
  · exact ⟨fun e => ⟨h, (Except.ok.inj e).symm⟩, fun e => by rw [e.2]⟩
  · exact ⟨fun e => by simp at e, fun e => absurd e.1 h⟩

theorem byteCount_error {n : BitVec 3} {e : Stop} (h : byteCount n = .error e) :
    ¬countLegal n ∧ e = .err .illegalCommand := by
  unfold byteCount raise at h
  split_ifs at h with hn
  exact ⟨hn, by simpa [eq_comm] using h⟩

theorem cpFragReadBody_ok_iff {n : BitVec 3} {s u : State} : cpFragReadBody n s = .ok u ↔
    countLegal n ∧ s.cpValid = true ∧ ∃ f, s.frags[s.cpFsel.toNat]? = some f ∧ n.toNat ≤ f.left ∧
      ∃ bs, (s.cpd.source .cpd).bytes (f.off + 16 + f.cur) n.toNat = .ok bs ∧
        u = { s with
          res := bytesWord bs
          frags := s.frags.set s.cpFsel.toNat { f with cur := f.cur + n.toNat } } := by
  simp only [cpFragReadBody, bind_ok_iff, byteCount_ok_iff, require_ok_iff]
  constructor
  · rintro ⟨_, ⟨hn, rfl⟩, _, hv, h⟩
    split at h
    · simp at h
    · rename_i f hf
      simp only [bind_ok_iff, require_ok_iff, pure_eq_ok, Except.ok.injEq] at h
      obtain ⟨_, hc, bs, hb, rfl⟩ := h
      exact ⟨hn, hv, f, hf, hc, bs, hb, rfl⟩
  · rintro ⟨hn, hv, f, hf, hc, bs, hb, rfl⟩
    refine ⟨_, ⟨hn, rfl⟩, (), hv, ?_⟩
    rw [hf]
    simp only [bind_ok_iff, require_ok_iff, pure_eq_ok, Except.ok.injEq]
    exact ⟨(), hc, bs, hb, rfl⟩

theorem clientChecksum_ok_iff {P : Config.Params} {s : State} {c : Word × State} :
    clientChecksum P s = .ok c ↔ s.cpValid = true ∧
      ∃ data, (s.cpd.source .cpd).bytes 0 s.cpHdr.size.toNat = .ok data ∧
        c = (packetChecksum P s.cpHdr data s.clientRegion (drawMask P .client s.cpHdr s).1,
          (drawMask P .client s.cpHdr s).2) := by
  simp only [clientChecksum, bind_ok_iff, require_ok_iff, pure_eq_ok, Except.ok.injEq]
  constructor
  · rintro ⟨_, h, d, hd, rfl⟩; exact ⟨h, d, hd, rfl⟩
  · rintro ⟨h, d, hd, rfl⟩; exact ⟨(), h, d, hd, rfl⟩

theorem spNewBody_ok_iff {P : Config.Params} {s u : State} : spNewBody P s = .ok u ↔
    flagsValid P s.arg1 = true ∧ u = { s with
      spHdr := { PacketHeader.zero with flags := s.arg1, id := s.arg0Half }
      spWp := 0#32, txLen := 0#32, spState := .filling } := by
  simp only [spNewBody, bind_ok_iff, require_ok_iff, pure_eq_ok, Except.ok.injEq]
  exact ⟨fun ⟨_, h, e⟩ => ⟨h, e.symm⟩, fun ⟨h, e⟩ => ⟨(), h, e.symm⟩⟩

theorem spAppendBody_ok_iff {n : BitVec 3} {s u : State} : spAppendBody n s = .ok u ↔
    countLegal n ∧ s.spState = .filling ∧ s.spWp.toNat + n.toNat ≤ 448 ∧ u = { s with
      tx := s.tx.writeList (20 + s.spWp.toNat) (wordBytes s.arg1 n.toNat)
      spWp := BitVec.ofNat 32 (s.spWp.toNat + n.toNat) } := by
  simp only [spAppendBody, bind_ok_iff, byteCount_ok_iff, require_ok_iff, pure_eq_ok, Except.ok.injEq]
  constructor
  · rintro ⟨_, ⟨hn, rfl⟩, _, h, _, h', rfl⟩; exact ⟨hn, h, h', rfl⟩
  · rintro ⟨hn, h, h', rfl⟩; exact ⟨_, ⟨hn, rfl⟩, (), h, (), h', rfl⟩

theorem sfAppendBody_ok_iff {n : BitVec 3} {s u : State} : sfAppendBody n s = .ok u ↔
    countLegal n ∧ s.sfState = .filling ∧ s.sfWp.toNat + n.toNat ≤ 448 ∧ u = { s with
      sfb := s.sfb.writeList s.sfWp.toNat (wordBytes s.arg1 n.toNat)
      sfWp := BitVec.ofNat 32 (s.sfWp.toNat + n.toNat) } := by
  simp only [sfAppendBody, bind_ok_iff, byteCount_ok_iff, require_ok_iff, pure_eq_ok, Except.ok.injEq]
  constructor
  · rintro ⟨_, ⟨hn, rfl⟩, _, h, _, h', rfl⟩; exact ⟨hn, h, h', rfl⟩
  · rintro ⟨hn, h, h', rfl⟩; exact ⟨_, ⟨hn, rfl⟩, (), h, (), h', rfl⟩

/-- The fragment header SF_EMIT writes (44_fragment_codec.md R158). -/
def State.emitted (s : State) : FragmentHeader := { s.sfHdr with size := BitVec.ofNat 16 s.sfTotal }

theorem sfEmitBody_ok_iff {s u : State} : sfEmitBody s = .ok u ↔
    s.sfState = .filling ∧ s.spState = .filling ∧ s.spWp.toNat + s.sfTotal ≤ 448 ∧
      ∃ payload, (s.sfb.source .sfb).bytes 0 s.sfWp.toNat = .ok payload ∧ u = { s with
        tx := s.tx.writeList (20 + s.spWp.toNat) (encodeFH s.emitted ++ payload)
        spWp := BitVec.ofNat 32 (s.spWp.toNat + s.sfTotal)
        sfHdr := s.emitted, sfState := .empty, sfWp := 0#32 } := by
  simp only [sfEmitBody, bind_ok_iff, require_ok_iff, pure_eq_ok, Except.ok.injEq]
  constructor
  · rintro ⟨_, h, _, h', p, hp, rfl⟩; exact ⟨h.1, h.2, h', p, hp, rfl⟩
  · rintro ⟨h, h', h2, p, hp, rfl⟩; exact ⟨(), ⟨h, h'⟩, (), h2, p, hp, rfl⟩

theorem cpDecodeBody_ok_iff {P : Config.Params} {s u : State} : cpDecodeBody P s = .ok u ↔
    20 ≤ s.rxlen.toNat ∧ ∃ h, decodePH s.rxSource 0 = .ok h ∧ flagsValid P h.flags = true ∧
      20 + h.size.toNat ≤ s.rxlen.toNat ∧ ∃ data, s.rxSource.bytes 20 h.size.toNat = .ok data ∧
      ∃ r, regionParse P h.flags data = .ok r ∧ u = { s with
        cpd := s.cpd.writeList 0 data, cpHdr := h, cpOptlen := BitVec.ofNat 32 r.optLen
        frags := r.entries, cpFsel := 0#32, cpValid := true } := by
  simp only [cpDecodeBody, bind_ok_iff, require_ok_iff, pure_eq_ok, Except.ok.injEq]
  constructor
  · rintro ⟨_, h1, h, hh, _, h2, _, h3, d, hd, r, hr, rfl⟩
    have h1 : 20 ≤ s.rxlen.toNat := h1
    have h3 : h.size.toNat ≤ s.rxlen.toNat - 20 := h3
    exact ⟨h1, h, hh, h2, by omega, d, hd, r, hr, rfl⟩
  · rintro ⟨h1, h, hh, h2, h3, d, hd, r, hr, rfl⟩
    have h3 : h.size.toNat ≤ s.rxlen.toNat - 20 := by omega
    exact ⟨(), h1, h, hh, (), h2, (), h3, d, hd, r, hr, rfl⟩

/-- The header SP_FINALIZE writes, its checksum set (45_packet_assembler.md R178). -/
def State.finalHeader (P : Config.Params) (s : State) (data : List Byte) (r : Region) : PacketHeader :=
  { s.sizedHeader with
    checksum := packetChecksum P s.sizedHeader data r (drawMask P .server s.sizedHeader s).1 }

theorem spFinalizeBody_ok_iff {P : Config.Params} {s u : State} : spFinalizeBody P s = .ok u ↔
    s.spState = .filling ∧ ∃ data, (s.tx.source .tx).bytes 20 s.spWp.toNat = .ok data ∧
      ∃ r, regionParse P s.sizedHeader.flags data = .ok r ∧
        u = { (drawMask P .server s.sizedHeader s).2 with
          tx := s.tx.writeList 0 (encodePH (s.finalHeader P data r))
          spHdr := s.finalHeader P data r, txLen := 20#32 + s.spWp, spState := .final } := by
  simp only [spFinalizeBody, bind_ok_iff, require_ok_iff, pure_eq_ok, Except.ok.injEq]
  constructor
  · rintro ⟨_, h, d, hd, r, hr, rfl⟩; exact ⟨h, d, hd, r, hr, rfl⟩
  · rintro ⟨h, d, hd, r, hr, rfl⟩; exact ⟨(), h, d, hd, r, hr, rfl⟩

/-! ### A drawn mask -/

/-- The state after a checksum command's query differs in the number of queries only. -/
theorem drawMask_state (dir : Direction) (h : PacketHeader) (s : State) :
    (drawMask Config.params dir h s).2 = { s with ksDraws := drawsAfter s h } := by
  unfold drawMask drawKeystream drawsAfter; split_ifs <;> rfl

/-- The mask drawn (46_checksum.md R191). -/
theorem drawMask_mask (dir : Direction) (h : PacketHeader) (s : State) :
    (drawMask Config.params dir h s).1 = maskIn s dir h := by
  unfold drawMask drawKeystream maskIn; split_ifs <;> rfl

/-! ### Bodies that stop -/

/-- A body's stop is an error code, or a fault at an RX byte below RXLEN that has no value. -/
def rxStop (s : State) (x : Stop) : Prop :=
  (∃ e, x = .err e) ∨ ∃ a, a < s.rxlen.toNat ∧ s.rx.read a = none ∧ x = .fault (.noValue .rx a)

theorem hdrLoadBody_error {s : State} {x : Stop} (h : hdrLoadBody s = .error x) : rxStop s x := by
  simp only [hdrLoadBody, bind_error_iff, checkRxSpan_ok_iff, pure_eq_ok, Config.phSize] at h
  rcases h with h | ⟨_, hb, h | ⟨_, -, h⟩⟩
  · rcases checkRxSpan_error h with rfl | rfl <;> exact .inl ⟨_, rfl⟩
  · obtain ⟨i, h1, h2, h3, rfl⟩ := decodePH_error h
    exact .inr ⟨i, by omega, h3, rfl⟩
  · simp at h

theorem fhdrLoadBody_error {s : State} {x : Stop} (h : fhdrLoadBody s = .error x) : rxStop s x := by
  simp only [fhdrLoadBody, bind_error_iff, checkRxSpan_ok_iff, pure_eq_ok, Config.fhSize] at h
  rcases h with h | ⟨_, hb, h | ⟨_, -, h⟩⟩
  · rcases checkRxSpan_error h with rfl | rfl <;> exact .inl ⟨_, rfl⟩
  · obtain ⟨i, h1, h2, h3, rfl⟩ := decodeFH_error h
    exact .inr ⟨i, by omega, h3, rfl⟩
  · simp at h

theorem optLen_error {P : Config.Params} {flags : Word} {src : Source} {start stop : Nat} {x : Stop}
    (hp : start ≤ stop) (h : optLen P flags src start stop = .error x) :
    x = .err .truncatedInput ∨
      ∃ i, start ≤ i ∧ i < stop ∧ src.get i = none ∧ x = .fault (.noValue src.space i) := by
  simp only [optLen, bind_error_iff, pure_eq_ok] at h
  rcases h with h | ⟨_, -, h⟩
  · exact optWalk_error hp h
  · simp at h

/-- A region that does not parse raises TruncatedInput or InvalidFragmentSize
(45_packet_assembler.md R171). -/
theorem regionParse_error {P : Config.Params} {flags : Word} {data : List Byte} {e : Err}
    (h : regionParse P flags data = .error (.err e)) :
    e = .truncatedInput ∨ e = .invalidFragmentSize := by
  simp only [regionParse, bind_error_iff, pure_eq_ok] at h
  rcases h with h | ⟨n, hn, h | ⟨_, -, h⟩⟩
  · rcases optLen_error (Nat.zero_le _) h with h | ⟨i, -, -, -, h⟩ <;> simp_all
  · have hle := optLen_le (Nat.zero_le _) hn
    unfold regionFrags at h
    split_ifs at h
    rcases fragLoop_error (by simpa using hle) h with h | h | ⟨i, -, -, -, h⟩ <;> simp_all
  · simp at h

theorem optDecodeBody_error {P : Config.Params} {s : State} {x : Stop}
    (h : optDecodeBody P s = .error x) : rxStop s x := by
  simp only [optDecodeBody, bind_error_iff, require_error_iff, require_ok_iff, pure_eq_ok] at h
  rcases h with ⟨-, rfl⟩ | ⟨_, hb, h | ⟨_, -, h⟩⟩
  · exact .inl ⟨_, rfl⟩
  · rcases optLen_error hb h with rfl | ⟨i, h1, h2, h3, rfl⟩
    · exact .inl ⟨_, rfl⟩
    · exact .inr ⟨i, h2, h3, rfl⟩
  · simp at h

theorem cpDecodeBody_error {P : Config.Params} {s : State} {x : Stop}
    (h : cpDecodeBody P s = .error x) : rxStop s x := by
  simp only [cpDecodeBody, bind_error_iff, require_error_iff, require_ok_iff, pure_eq_ok] at h
  rcases h with ⟨-, rfl⟩ | ⟨_, h1, h | ⟨k, -, ⟨-, rfl⟩ | ⟨_, -, ⟨-, rfl⟩ | ⟨_, h2, h | ⟨d, -, h | ⟨_, -, h⟩⟩⟩⟩⟩⟩
  · exact .inl ⟨_, rfl⟩
  · obtain ⟨i, -, h2, h3, rfl⟩ := decodePH_error h
    have h1 : 20 ≤ s.rxlen.toNat := h1
    exact .inr ⟨i, by omega, h3, rfl⟩
  · exact .inl ⟨_, rfl⟩
  · exact .inl ⟨_, rfl⟩
  · obtain ⟨i, h3, h4, h5, rfl⟩ := Source.bytes_error h
    have h1 : 20 ≤ s.rxlen.toNat := h1
    have h2 : k.size.toNat ≤ s.rxlen.toNat - 20 := h2
    exact .inr ⟨i, by omega, h5, rfl⟩
  · cases x with
    | err e => exact .inl ⟨e, rfl⟩
    | fault f => exact absurd h regionParse_no_fault
  · simp at h

theorem cpFragSelectBody_error {s : State} {x : Stop} (h : cpFragSelectBody s = .error x) :
    ∃ e, x = .err e := by
  simp only [cpFragSelectBody, bind_error_iff, require_error_iff] at h
  rcases h with ⟨-, rfl⟩ | ⟨_, -, h⟩
  · exact ⟨_, rfl⟩
  · split at h
    · exact ⟨.outOfRange, by simpa [raise, eq_comm] using h⟩
    · simp at h

theorem spNewBody_error {P : Config.Params} {s : State} {x : Stop} (h : spNewBody P s = .error x) :
    ∃ e, x = .err e := by
  simp only [spNewBody, bind_error_iff, require_error_iff, pure_eq_ok] at h
  rcases h with ⟨-, rfl⟩ | ⟨_, -, h⟩
  · exact ⟨_, rfl⟩
  · simp at h

theorem spAppendBody_error {n : BitVec 3} {s : State} {x : Stop} (h : spAppendBody n s = .error x) :
    ∃ e, x = .err e := by
  simp only [spAppendBody, bind_error_iff, require_error_iff, pure_eq_ok] at h
  rcases h with h | ⟨_, -, ⟨-, rfl⟩ | ⟨_, -, ⟨-, rfl⟩ | ⟨_, -, h⟩⟩⟩
  · exact ⟨_, (byteCount_error h).2⟩
  · exact ⟨_, rfl⟩
  · exact ⟨_, rfl⟩
  · simp at h

theorem sfAppendBody_error {n : BitVec 3} {s : State} {x : Stop} (h : sfAppendBody n s = .error x) :
    ∃ e, x = .err e := by
  simp only [sfAppendBody, bind_error_iff, require_error_iff, pure_eq_ok] at h
  rcases h with h | ⟨_, -, ⟨-, rfl⟩ | ⟨_, -, ⟨-, rfl⟩ | ⟨_, -, h⟩⟩⟩
  · exact ⟨_, (byteCount_error h).2⟩
  · exact ⟨_, rfl⟩
  · exact ⟨_, rfl⟩
  · simp at h

/-- CP_FRAG_READ stops with an error code, or at a payload byte of CPD without a value. -/
theorem cpFragReadBody_error {n : BitVec 3} {s : State} {x : Stop} (h : cpFragReadBody n s = .error x) :
    (∃ e, x = .err e) ∨ ∃ f a, s.cpValid = true ∧ s.frags[s.cpFsel.toNat]? = some f ∧
      n.toNat ≤ f.left ∧ f.off + 16 + f.cur ≤ a ∧ a < f.off + 16 + f.cur + n.toNat ∧
      s.cpd.read a = none ∧ x = .fault (.noValue .cpd a) := by
  simp only [cpFragReadBody, bind_error_iff, byteCount_ok_iff, require_error_iff, require_ok_iff] at h
  rcases h with h | ⟨_, ⟨-, rfl⟩, ⟨-, rfl⟩ | ⟨_, hv, h⟩⟩
  · exact .inl ⟨_, (byteCount_error h).2⟩
  · exact .inl ⟨_, rfl⟩
  · split at h
    · exact .inl ⟨.outOfRange, by simpa [raise, eq_comm] using h⟩
    · rename_i f hf
      simp only [bind_error_iff, require_error_iff, require_ok_iff, pure_eq_ok] at h
      rcases h with ⟨-, rfl⟩ | ⟨_, hc, h | ⟨_, -, h⟩⟩
      · exact .inl ⟨_, rfl⟩
      · obtain ⟨i, h1, h2, h3, rfl⟩ := Source.bytes_error h
        exact .inr ⟨f, i, hv, hf, hc, h1, h2, h3, rfl⟩
      · simp at h

/-- The client checksum stops with StateError, or at a data byte of CPD without a value. -/
theorem clientChecksum_error {P : Config.Params} {s : State} {x : Stop}
    (h : clientChecksum P s = .error x) :
    x = .err .stateError ∨ ∃ a, s.cpValid = true ∧ a < s.cpHdr.size.toNat ∧ s.cpd.read a = none ∧
      x = .fault (.noValue .cpd a) := by
  simp only [clientChecksum, bind_error_iff, require_error_iff, require_ok_iff, pure_eq_ok] at h
  rcases h with ⟨-, rfl⟩ | ⟨_, hv, h | ⟨_, -, h⟩⟩
  · exact .inl rfl
  · obtain ⟨i, h1, h2, h3, rfl⟩ := Source.bytes_error h
    exact .inr ⟨i, hv, by omega, h3, rfl⟩
  · simp at h

/-- SP_FINALIZE stops with an error code, or at a payload byte of TX without a value. -/
theorem spFinalizeBody_error {P : Config.Params} {s : State} {x : Stop}
    (h : spFinalizeBody P s = .error x) :
    (∃ e, x = .err e) ∨ ∃ a, s.spState = .filling ∧ 20 ≤ a ∧ a < 20 + s.spWp.toNat ∧
      s.tx.read a = none ∧ x = .fault (.noValue .tx a) := by
  simp only [spFinalizeBody, bind_error_iff, require_error_iff, require_ok_iff, pure_eq_ok] at h
  rcases h with ⟨-, rfl⟩ | ⟨_, hv, h | ⟨_, -, h | ⟨_, -, h⟩⟩⟩
  · exact .inl ⟨_, rfl⟩
  · obtain ⟨i, h1, h2, h3, rfl⟩ := Source.bytes_error h
    exact .inr ⟨i, hv, h1, h2, h3, rfl⟩
  · cases x with
    | err e => exact .inl ⟨e, rfl⟩
    | fault f => exact absurd h regionParse_no_fault
  · simp at h

/-- SF_EMIT stops with an error code, or at a payload byte of SFB without a value. -/
theorem sfEmitBody_error {s : State} {x : Stop} (h : sfEmitBody s = .error x) :
    (∃ e, x = .err e) ∨ ∃ a, a < s.sfWp.toNat ∧ s.sfb.read a = none ∧
      x = .fault (.noValue .sfb a) := by
  simp only [sfEmitBody, bind_error_iff, require_error_iff, require_ok_iff, pure_eq_ok] at h
  rcases h with ⟨-, rfl⟩ | ⟨_, -, ⟨-, rfl⟩ | ⟨_, -, h | ⟨_, -, h⟩⟩⟩
  · exact .inl ⟨_, rfl⟩
  · exact .inl ⟨_, rfl⟩
  · obtain ⟨i, h1, h2, h3, rfl⟩ := Source.bytes_error h
    exact .inr ⟨i, by omega, h3, rfl⟩
  · simp at h

/-! ### Commands that go on -/

theorem execNop_next {s t : State} (h : exec .nop s = .next t) : t = s.finish none := by
  simpa [exec, execNop, eq_comm] using h

theorem execHdrLoad_next {s t : State} (h : exec .hdrLoad s = .next t) :
    (s.arg0.toNat + 20 ≤ s.rxlen.toNat ∧ ∃ k, decodePH s.rxSource s.arg0.toNat = .ok k ∧
      t = { s with hdr := k }.finish none) ∨ ∃ e, t = s.finish (some e) := by
  rcases endCommand_next_iff.1 h with ⟨u, hu, rfl⟩ | ⟨e, -, rfl⟩
  · obtain ⟨hb, k, hk, rfl⟩ := hdrLoadBody_ok_iff.1 hu
    exact .inl ⟨hb, k, hk, rfl⟩
  · exact .inr ⟨e, rfl⟩

theorem execFhdrLoad_next {s t : State} (h : exec .fhdrLoad s = .next t) :
    (s.arg0.toNat + 16 ≤ s.rxlen.toNat ∧ ∃ k, decodeFH s.rxSource s.arg0.toNat = .ok k ∧
      t = { s with fh := k }.finish none) ∨ ∃ e, t = s.finish (some e) := by
  rcases endCommand_next_iff.1 h with ⟨u, hu, rfl⟩ | ⟨e, -, rfl⟩
  · obtain ⟨hb, k, hk, rfl⟩ := fhdrLoadBody_ok_iff.1 hu
    exact .inl ⟨hb, k, hk, rfl⟩
  · exact .inr ⟨e, rfl⟩

theorem execHdrStore_next {s t : State} (h : exec .hdrStore s = .next t) :
    t = { s with obuf := s.obuf.writeList 0 (packetBytes s.hdr s.hdr.checksum) }.finish none := by
  exact (Host.Outcome.next.inj h).symm

theorem execFhdrStore_next {s t : State} (h : exec .fhdrStore s = .next t) :
    t = { s with obuf := s.obuf.writeList 0 (fragmentBytes s.fh) }.finish none := by
  exact (Host.Outcome.next.inj h).symm

theorem execHdrHash_next {s t : State} (h : exec .hdrHash s = .next t) :
    t = { s with res := headerHash Config.params s.hdr }.finish none := by
  exact (Host.Outcome.next.inj h).symm

theorem execOptDecode_next {s t : State} (h : exec .optDecode s = .next t) :
    (∃ n, optLen Config.params s.hdr.flags s.rxSource s.arg0.toNat s.rxlen.toNat = .ok n ∧
      t = { s with res := BitVec.ofNat 32 n }.finish none) ∨ ∃ e, t = s.finish (some e) := by
  rcases endCommand_next_iff.1 h with ⟨u, hu, rfl⟩ | ⟨e, -, rfl⟩
  · obtain ⟨-, n, hn, rfl⟩ := optDecodeBody_ok_iff.1 hu
    exact .inl ⟨n, hn, rfl⟩
  · exact .inr ⟨e, rfl⟩

theorem execCpDecode_next {s t : State} (h : exec .cpDecode s = .next t) :
    (∃ k data r, decodePH s.rxSource 0 = .ok k ∧ flagsValid Config.params k.flags = true ∧
      data.length = k.size.toNat ∧ s.rx.holds 20 data ∧
      regionParse Config.params k.flags data = .ok r ∧
      t = { s with
        cpd := s.cpd.writeList 0 data, cpHdr := k, cpOptlen := BitVec.ofNat 32 r.optLen
        frags := r.entries, cpFsel := 0#32, cpValid := true }.finish none) ∨
    ∃ e, t = s.clearClient.finish (some e) := by
  rcases endCommand_next_iff.1 h with ⟨u, hu, rfl⟩ | ⟨e, -, rfl⟩
  · obtain ⟨-, k, hk, hf, -, data, hd, r, hr, rfl⟩ := cpDecodeBody_ok_iff.1 hu
    have hh := Memory.holds_of_bytes hd
    exact .inl ⟨k, data, r, hk, hf, hh.1, hh.2, hr, rfl⟩
  · exact .inr ⟨e, rfl⟩

theorem execCpFragSelect_next {s t : State} (h : exec .cpFragSelect s = .next t) :
    (s.cpValid = true ∧ ∃ f, s.frags[s.arg0.toNat]? = some f ∧
      t = { s with fh := f.hdr, cpFsel := s.arg0, res := BitVec.ofNat 32 f.left }.finish none) ∨
    ∃ e, t = s.finish (some e) := by
  rcases endCommand_next_iff.1 h with ⟨u, hu, rfl⟩ | ⟨e, -, rfl⟩
  · obtain ⟨hv, f, hf, rfl⟩ := cpFragSelectBody_ok_iff.1 hu
    exact .inl ⟨hv, f, hf, rfl⟩
  · exact .inr ⟨e, rfl⟩

theorem execCpFragRead_next {n : BitVec 3} {s t : State} (h : exec (.cpFragRead n) s = .next t) :
    (countLegal n ∧ s.cpValid = true ∧ ∃ f, s.frags[s.cpFsel.toNat]? = some f ∧ n.toNat ≤ f.left ∧
      ∃ v, t = { s with
        res := v
        frags := s.frags.set s.cpFsel.toNat { f with cur := f.cur + n.toNat } }.finish none) ∨
    ∃ e, t = s.finish (some e) := by
  rcases endCommand_next_iff.1 h with ⟨u, hu, rfl⟩ | ⟨e, -, rfl⟩
  · obtain ⟨hn, hv, f, hf, hc, bs, -, rfl⟩ := cpFragReadBody_ok_iff.1 hu
    exact .inl ⟨hn, hv, f, hf, hc, bytesWord bs, rfl⟩
  · exact .inr ⟨e, rfl⟩

/-- The number of queries after a checksum command. -/
theorem execCpChecksum_next {s t : State} (h : exec .cpChecksum s = .next t) :
    (s.cpValid = true ∧ ∃ v, t = { s with res := v, ksDraws := drawsAfter s s.cpHdr }.finish none) ∨
    ∃ e, t = s.finish (some e) := by
  rcases endCommand_next_iff.1 h with ⟨u, hu, rfl⟩ | ⟨e, -, rfl⟩
  · simp only [cpChecksumBody, bind_ok_iff, clientChecksum_ok_iff, pure_eq_ok, Except.ok.injEq] at hu
    obtain ⟨c, ⟨hv, data, -, rfl⟩, rfl⟩ := hu
    exact .inl ⟨hv, _, by rw [drawMask_state]⟩
  · exact .inr ⟨e, rfl⟩

theorem execCpVerify_next {s t : State} (h : exec .cpVerify s = .next t) :
    (s.cpValid = true ∧ ∃ v, t = { s with res := v, ksDraws := drawsAfter s s.cpHdr }.finish
      (if v = s.cpHdr.checksum then none else some .checksumMismatch)) ∨
    (∃ e, e ≠ .checksumMismatch ∧ t = s.finish (some e)) := by
  simp only [exec, execCpVerify, runCpVerify] at h
  split at h
  · rename_i x hx
    rcases endCommand_next_iff.1 h with ⟨u, hu, rfl⟩ | ⟨e, he, rfl⟩
    · simp at hu
    · rcases clientChecksum_error hx with rfl | ⟨a, -, -, -, rfl⟩
      · simp only [Except.error.injEq, Stop.err.injEq] at he
        exact .inr ⟨e, by simp [← he], rfl⟩
      · simp at he
  · rename_i c hc
    obtain ⟨hv, data, -, rfl⟩ := clientChecksum_ok_iff.1 hc
    refine .inl ⟨hv, packetChecksum Config.params s.cpHdr data s.clientRegion
      (drawMask Config.params .client s.cpHdr s).1, ?_⟩
    rw [drawMask_state] at h
    dsimp only at h
    split_ifs at h ⊢ <;> exact (Host.Outcome.next.inj h).symm

theorem execSpNew_next {s t : State} (h : exec .spNew s = .next t) :
    (flagsValid Config.params s.arg1 = true ∧ t = { s with
      spHdr := { PacketHeader.zero with flags := s.arg1, id := s.arg0Half }
      spWp := 0#32, txLen := 0#32, spState := .filling }.finish none) ∨
    ∃ e, t = s.finish (some e) := by
  rcases endCommand_next_iff.1 h with ⟨u, hu, rfl⟩ | ⟨e, -, rfl⟩
  · obtain ⟨hf, rfl⟩ := spNewBody_ok_iff.1 hu
    exact .inl ⟨hf, rfl⟩
  · exact .inr ⟨e, rfl⟩

theorem execSpAppend_next {n : BitVec 3} {s t : State} (h : exec (.spAppend n) s = .next t) :
    (s.spState = .filling ∧ s.spWp.toNat + n.toNat ≤ 448 ∧ countLegal n ∧ t = { s with
      tx := s.tx.writeList (20 + s.spWp.toNat) (wordBytes s.arg1 n.toNat)
      spWp := BitVec.ofNat 32 (s.spWp.toNat + n.toNat) }.finish none) ∨
    ∃ e, t = s.finish (some e) := by
  rcases endCommand_next_iff.1 h with ⟨u, hu, rfl⟩ | ⟨e, -, rfl⟩
  · obtain ⟨hn, hs, hb, rfl⟩ := spAppendBody_ok_iff.1 hu
    exact .inl ⟨hs, hb, hn, rfl⟩
  · exact .inr ⟨e, rfl⟩

theorem execSpFinalize_next {s t : State} (h : exec .spFinalize s = .next t) :
    (s.spState = .filling ∧ ∃ data r, data.length = s.spWp.toNat ∧ s.tx.holds 20 data ∧
      regionParse Config.params s.spHdr.flags data = .ok r ∧
      t = { s with
        ksDraws := drawsAfter s s.sizedHeader
        tx := s.tx.writeList 0 (encodePH (s.finalHeader Config.params data r))
        spHdr := s.finalHeader Config.params data r
        txLen := 20#32 + s.spWp, spState := .final }.finish none) ∨
    ∃ e, t = s.finish (some e) := by
  rcases endCommand_next_iff.1 h with ⟨u, hu, rfl⟩ | ⟨e, -, rfl⟩
  · obtain ⟨hs, data, hd, r, hr, rfl⟩ := spFinalizeBody_ok_iff.1 hu
    have hh := Memory.holds_of_bytes hd
    exact .inl ⟨hs, data, r, hh.1, hh.2, hr, by rw [drawMask_state]⟩
  · exact .inr ⟨e, rfl⟩

theorem execSfNew_next {o : Bool} {s t : State} (h : exec (.sfNew o) s = .next t) :
    t = { s with
      sfHdr := { FragmentHeader.zero with group := s.arg0Half }
      sfb := if o then s.sfb.writeList 0 (bytes32 s.arg1) else s.sfb
      sfWp := if o then 4#32 else 0#32
      sfState := .filling }.finish none := by
  exact (Host.Outcome.next.inj h).symm

theorem execSfAppend_next {n : BitVec 3} {s t : State} (h : exec (.sfAppend n) s = .next t) :
    (s.sfState = .filling ∧ s.sfWp.toNat + n.toNat ≤ 448 ∧ countLegal n ∧ t = { s with
      sfb := s.sfb.writeList s.sfWp.toNat (wordBytes s.arg1 n.toNat)
      sfWp := BitVec.ofNat 32 (s.sfWp.toNat + n.toNat) }.finish none) ∨
    ∃ e, t = s.finish (some e) := by
  rcases endCommand_next_iff.1 h with ⟨u, hu, rfl⟩ | ⟨e, -, rfl⟩
  · obtain ⟨hn, hs, hb, rfl⟩ := sfAppendBody_ok_iff.1 hu
    exact .inl ⟨hs, hb, hn, rfl⟩
  · exact .inr ⟨e, rfl⟩

theorem execSfEmit_next {s t : State} (h : exec .sfEmit s = .next t) :
    (s.sfState = .filling ∧ s.spState = .filling ∧ s.spWp.toNat + s.sfTotal ≤ 448 ∧
      ∃ payload, payload.length = s.sfWp.toNat ∧ s.sfb.holds 0 payload ∧ t = { s with
        tx := s.tx.writeList (20 + s.spWp.toNat) (encodeFH s.emitted ++ payload)
        spWp := BitVec.ofNat 32 (s.spWp.toNat + s.sfTotal)
        sfHdr := s.emitted, sfState := .empty, sfWp := 0#32 }.finish none) ∨
    ∃ e, t = s.finish (some e) := by
  rcases endCommand_next_iff.1 h with ⟨u, hu, rfl⟩ | ⟨e, -, rfl⟩
  · obtain ⟨hs, hs', hb, p, hp, rfl⟩ := sfEmitBody_ok_iff.1 hu
    have hh := Memory.holds_of_bytes hp
    exact .inl ⟨hs, hs', hb, p, hh.1, hh.2, rfl⟩
  · exact .inr ⟨e, rfl⟩

end Sys2Proof.Machine
end

