-- ==== Sys2Proof/Laws/Config.lean ====
section
/-! SUPPORT. The configuration the machine runs at meets what the spec asks of a configuration. -/

namespace Sys2Proof

/-- The number of the bit a default flag mask sets (92_eei_decisions.md D2). -/
def Config.flagBit : Flag → Fin 32
  | .encryptedChecksum => 1
  | .blobFragments     => 2
  | .serverSwitch      => 8
  | .requestRetransmit => 12
  | .rejectRetransmit  => 13
  | .ackSequence       => 14
  | .disconnect        => 15
  | .loginRequest      => 16
  | .connectRequest    => 18
  | .connectResponse   => 19
  | .cicmdCommand      => 22
  | .timeSync          => 24
  | .echoRequest       => 25
  | .echoResponse      => 26
  | .flow              => 27

/-- The defaults are a valid configuration (00_scope.md R9, R13): single-bit masks, all different. -/
theorem Config.params_valid : Config.params.Valid where
  flag_oneBit f := ⟨Config.flagBit f, by cases f <;> rfl⟩
  excl_oneBit := ⟨0, rfl⟩
  flags_differ f g := by
    cases f <;> cases g <;> first | exact fun h => absurd rfl h | exact fun _ => by decide
  excl_differs f := by cases f <;> decide
  rxCap_ge := by decide

end Sys2Proof
end

