-- ==== Sys2Proof/Laws/Formula.lean ====
section
/-! SUPPORT. The engine's shared computations in the terms of Sys2Proof/Safety.lean: the optional header
blocks, the checksum, and the bytes of a register. -/

namespace Sys2Proof.Machine

open Sys2Proof

/-! ### Optional header blocks -/

/-- `le32` where a buffer holds a u32's bytes. -/
theorem le32_of_holds {m : Memory} {sp : Space} {p : Nat} {v : Word} (h : m.holds p (wordLE v)) :
    le32 (m.source sp) p = .ok v := by
  have hb := le32_of_bytes (src := m.source sp) (o := p) (h 0 (by simp [wordLE]))
    (h 1 (by simp [wordLE])) (h 2 (by simp [wordLE])) (h 3 (by simp [wordLE]))
  rw [hb, word_split]

/-- `le32` ends and stops as reading its four bytes as a span does. -/
theorem le32_as_bytes (src : Source) (o : Nat) :
    (∃ m bs, le32 src o = .ok m ∧ src.bytes o 4 = .ok bs)
      ∨ ∃ e, le32 src o = .error e ∧ src.bytes o 4 = .error e := by
  simp only [le32, Source.bytes, Source.byte, Nat.add_assoc, Nat.reduceAdd]
  cases src.get o <;> cases src.get (o + 1) <;> cases src.get (o + 2) <;> cases src.get (o + 3) <;>
    simp

/-- Skipping nothing inside the region. -/
theorem optSkip_zero (src : Source) (stop p : Nat) : optSkip src stop p 0 = .ok p := rfl

/-- A fixed block is a span of its bytes if its flag is set, of none if not. -/
theorem optEntry_fixed {flags : Word} {src : Source} {stop p n : Nat} {f : Flag} :
    optEntry Config.params flags src stop p (f, .fixed n) = optSkip src stop p (optPart flags f n) := by
  unfold optEntry optPart
  split_ifs
  · rfl
  · exact (optSkip_zero src stop p).symm

/-- A counted block is a span of its prefix and one of as many bytes as that holds. -/
theorem optEntry_prefixed {flags : Word} {src : Source} {stop p : Nat} {f : Flag} {n : Word}
    (hn : has Config.params flags f = true → p + 4 ≤ stop → ∀ m, le32 src p = .ok m → m = n) :
    optEntry Config.params flags src stop p (f, .prefixed) =
      (optSkip src stop p (optPart flags f 4) >>= fun q =>
        optSkip src stop q (optPart flags f n.toNat)) := by
  unfold optEntry optPart
  split_ifs with hf
  · have hu : n.toNat * Config.params.retxUnit = n.toNat := Nat.mul_one _
    rw [optBlock, optSkip]
    simp only [require_bind]
    split_ifs with h4
    · rcases le32_as_bytes src p with ⟨m, bs, hm, hb⟩ | ⟨e, hm, hb⟩
      · have : m = n := hn hf (by omega) m hm
        rw [hm, hb, this, ok_bind, ok_bind, pure_eq_ok, ok_bind, hu]
      · rw [hm, hb]; rfl
    · rfl
  · rw [optSkip_zero, ok_bind, optSkip_zero]

/-- A walk over spans of opaque bytes, one after the other. -/
def spanWalk (src : Source) (stop : Nat) : List Nat → Nat → Except Stop Nat
  | [], p      => .ok p
  | n :: ns, p => do
    let q ← optSkip src stop p n
    spanWalk src stop ns q

/-- A walk over spans of which those that fit have values. -/
theorem spanWalk_eq {src : Source} {stop p : Nat} {l : List Nat} (hp : p ≤ stop)
    (hd : ∀ k, p + (l.take k).sum ≤ stop → src.definedOn p (p + (l.take k).sum)) :
    spanWalk src stop l p = if p + l.sum ≤ stop then .ok (p + l.sum) else raise .truncatedInput := by
  induction l generalizing p with
  | nil => simp [spanWalk, hp]
  | cons n l ih =>
    have h1 := hd 1
    simp only [List.take_succ_cons, List.take_zero, List.sum_cons, List.sum_nil, Nat.add_zero] at h1
    rw [spanWalk, optSkip_eq hp h1]
    split_ifs with hn hs hs
    · rw [ok_bind, ih hn fun k hk x hx1 hx2 => ?_, if_pos (by simp only [List.sum_cons] at hs; omega),
        List.sum_cons, Nat.add_assoc]
      have := hd (k + 1)
      simp only [List.take_succ_cons, List.sum_cons] at this
      exact this (by omega) x (by omega) (by omega)
    · rw [ok_bind, ih hn fun k hk x hx1 hx2 => ?_, if_neg (by simp only [List.sum_cons] at hs; omega)]
      have := hd (k + 1)
      simp only [List.take_succ_cons, List.sum_cons] at this
      exact this (by omega) x (by omega) (by omega)
    · simp only [List.sum_cons] at hs; omega
    · rfl

/-- A walk over spans stops at the first byte without a value of a span that fits. -/
theorem spanWalk_of_hole {src : Source} {stop p x k : Nat} {l : List Nat} (hd : src.definedOn p x)
    (hx : src.get x = none) (h1 : p ≤ x) (h2 : x < p + (l.take k).sum)
    (h3 : p + (l.take k).sum ≤ stop) :
    spanWalk src stop l p = .error (.fault (.noValue src.space x)) := by
  induction l generalizing p k with
  | nil => simp at h2; omega
  | cons n l ih =>
    cases k with
    | zero => simp at h2; omega
    | succ k =>
      simp only [List.take_succ_cons, List.sum_cons] at h2 h3
      rw [spanWalk]
      rcases Nat.lt_or_ge x (p + n) with h | h
      · rw [optSkip_of_hole hd hx h1 h (by omega), error_bind]
      · rw [optSkip_eq (by omega) fun _ y hy1 hy2 => hd y hy1 (by omega), if_pos (by omega), ok_bind]
        exact ih (k := k) (fun y hy1 hy2 => hd y (by omega) hy2) h (by omega) (by omega)

/-- The optional header walk is a walk over its spans, the counts being those its prefixes hold. -/
theorem optWalk_eq_spanWalk {flags : Word} {src : Source} {stop p : Nat} {req rej : Word}
    (hreq : has Config.params flags .requestRetransmit = true →
      p + ((optSpans flags req.toNat rej.toNat).take 2).sum ≤ stop → ∀ m,
      le32 src (p + ((optSpans flags req.toNat rej.toNat).take 1).sum) = .ok m → m = req)
    (hrej : has Config.params flags .rejectRetransmit = true →
      p + ((optSpans flags req.toNat rej.toNat).take 4).sum ≤ stop → ∀ m,
      le32 src (p + ((optSpans flags req.toNat rej.toNat).take 3).sum) = .ok m → m = rej) :
    optWalk Config.params flags src stop optTable p
      = spanWalk src stop (optSpans flags req.toNat rej.toNat) p := by
  have skip : ∀ {a n q : Nat}, optSkip src stop a n = .ok q → q = a + n := fun h => by
    simp only [optSkip, bind_ok_iff, pure_eq_ok, Except.ok.injEq] at h
    obtain ⟨_, -, _, -, h⟩ := h
    exact h.symm
  simp only [optSpans, List.take_succ_cons, List.take_zero, List.sum_cons, List.sum_nil,
    Nat.add_zero] at hreq hrej
  have four : ∀ f, has Config.params flags f = true → optPart flags f 4 = 4 := fun f h => if_pos h
  unfold optTable optSpans
  simp only [optWalk, spanWalk, optEntry_fixed]
  refine bind_congr_ok fun a ha => ?_
  rw [optEntry_prefixed (n := req) fun hf h m hm => ?_, bind_assoc]
  · refine bind_congr_ok fun b hb => bind_congr_ok fun c hc => ?_
    rw [optEntry_prefixed (n := rej) fun hf h m hm => ?_, bind_assoc]
    have := skip ha; have := skip hb; have := skip hc; have := four _ hf
    exact hrej hf (by omega) m (by rw [← hm]; congr 1; omega)
  · have := skip ha; have := four _ hf
    exact hreq hf (by omega) m (by rw [← hm]; congr 1; omega)

/-- A block of two spans. -/
theorem optPart_add (flags : Word) (f : Flag) (a b : Nat) :
    optPart flags f (a + b) = optPart flags f a + optPart flags f b := by
  unfold optPart
  split_ifs <;> rfl

/-- The spans of the region are its blocks. -/
theorem optSpans_sum (flags : Word) (req rej : Nat) :
    (optSpans flags req rej).sum = optTotal flags req rej := by
  simp only [optSpans, optTotal, optPart_add, List.sum_cons, List.sum_nil]
  omega

/-- The optional header walk stops at the first byte without a value of a span that fits; only the counts
whose prefixes lie before that byte matter. -/
theorem optWalk_of_hole {flags : Word} {src : Source} {stop p x k : Nat} {req rej : Word}
    (hd : src.definedOn p x) (hx : src.get x = none) (h1 : p ≤ x)
    (h2 : x < p + ((optSpans flags req.toNat rej.toNat).take k).sum)
    (h3 : p + ((optSpans flags req.toNat rej.toNat).take k).sum ≤ stop)
    (hreq : has Config.params flags .requestRetransmit = true →
      p + ((optSpans flags req.toNat rej.toNat).take 2).sum ≤ x →
      le32 src (p + ((optSpans flags req.toNat rej.toNat).take 1).sum) = .ok req)
    (hrej : has Config.params flags .rejectRetransmit = true →
      p + ((optSpans flags req.toNat rej.toNat).take 4).sum ≤ x →
      le32 src (p + ((optSpans flags req.toNat rej.toNat).take 3).sum) = .ok rej) :
    optWalk Config.params flags src stop optTable p = .error (.fault (.noValue src.space x)) := by
  have actual : ∀ o, ∃ v : Word, ∀ m, le32 src o = .ok m → m = v := fun o => by
    cases h : le32 src o with
    | ok v => exact ⟨v, fun m hm => (Except.ok.inj hm).symm⟩
    | error e => exact ⟨0#32, fun m hm => by simp at hm⟩
  have cut : ∀ (l l' : List Nat) (c : Nat), l.take c = l'.take c → x < p + (l.take c).sum →
      x < p + (l.take k).sum → p + (l.take k).sum ≤ stop →
      ∃ c', x < p + (l'.take c').sum ∧ p + (l'.take c').sum ≤ stop := fun l l' c he hc hk hs => by
    rcases Nat.le_total k c with h | h
    · refine ⟨k, ?_⟩
      have : l'.take k = l.take k := by
        rw [← Nat.min_eq_left h, ← List.take_take, ← List.take_take, he]
      exact this ▸ ⟨hk, hs⟩
    · refine ⟨c, he ▸ hc, ?_⟩
      have : (l.take c).sum ≤ (l.take k).sum := by
        rw [← Nat.add_sub_cancel' h, List.take_add, List.sum_append]
        exact Nat.le_add_right _ _
      rw [← he]; omega
  by_cases hq : has Config.params flags .requestRetransmit = true →
      p + ((optSpans flags req.toNat rej.toNat).take 2).sum ≤ x
  · by_cases hj : has Config.params flags .rejectRetransmit = true →
        p + ((optSpans flags req.toNat rej.toNat).take 4).sum ≤ x
    · rw [optWalk_eq_spanWalk
        (fun h _ m hm => by rw [hreq h (hq h)] at hm; exact (Except.ok.inj hm).symm)
        (fun h _ m hm => by rw [hrej h (hj h)] at hm; exact (Except.ok.inj hm).symm)]
      exact spanWalk_of_hole hd hx h1 h2 h3
    · obtain ⟨-, hj⟩ := Classical.not_imp.1 hj
      obtain ⟨rej', hrej'⟩ := actual (p + ((optSpans flags req.toNat rej.toNat).take 3).sum)
      obtain ⟨c, hc1, hc2⟩ := cut (optSpans flags req.toNat rej.toNat)
        (optSpans flags req.toNat rej'.toNat) 4 rfl (by omega) h2 h3
      rw [optWalk_eq_spanWalk (req := req) (rej := rej')
        (fun h _ m hm => by
          have hm : le32 src (p + ((optSpans flags req.toNat rej.toNat).take 1).sum) = .ok m := hm
          rw [hreq h (hq h)] at hm; exact (Except.ok.inj hm).symm)
        (fun _ _ m hm => hrej' m hm)]
      exact spanWalk_of_hole hd hx h1 hc1 hc2
  · obtain ⟨-, hq⟩ := Classical.not_imp.1 hq
    obtain ⟨req', hreq'⟩ := actual (p + ((optSpans flags req.toNat rej.toNat).take 1).sum)
    obtain ⟨rej', hrej'⟩ := actual (p + ((optSpans flags req'.toNat rej.toNat).take 3).sum)
    obtain ⟨c, hc1, hc2⟩ := cut (optSpans flags req.toNat rej.toNat)
      (optSpans flags req'.toNat rej'.toNat) 2 rfl (by omega) h2 h3
    rw [optWalk_eq_spanWalk (req := req') (rej := rej') (fun _ _ m hm => hreq' m hm)
      (fun _ _ m hm => hrej' m hm)]
    exact spanWalk_of_hole hd hx h1 hc1 hc2

/-- A walk under flags that name no block stays where it is. -/
theorem optWalk_none {P : Config.Params} {flags : Word} {src : Source} {stop p : Nat}
    {l : List (Flag × OptKind)} (h : ∀ c ∈ l, has P flags c.1 = false) :
    optWalk P flags src stop l p = .ok p := by
  induction l with
  | nil => rfl
  | cons c l ih =>
    simp only [optWalk, optEntry]
    rw [h c (by simp)]
    exact ih (fun c hc => h c (by simp [hc]))

/-! ### Checksums -/

/-- The stored header's own checksum field does not show in `packetBytes` with a checksum given. -/
theorem packetBytes_checksum (h : PacketHeader) (a c : Word) :
    packetBytes { h with checksum := a } c = packetBytes h c := rfl

/-- A sum accumulated from the left. -/
theorem foldl_add_eq_sum {α : Type} (g : α → Word) (l : List α) (a : Word) :
    l.foldl (fun acc f => acc + g f) a = a + (l.map g).sum := by
  induction l generalizing a with
  | nil => simp
  | cons x l ih => simp [ih, BitVec.add_assoc]

/-- The machine's checksum is the formula of 46_checksum.md R190 and R191. -/
theorem packetChecksum_eq (h : PacketHeader) (data : List Byte) (r : Region) (mask : Word) :
    packetChecksum Config.params h data r mask
      = checksumFormula h data r.optLen (r.frags.map (fun f => (f.1, f.2.size.toNat))) mask := by
  have hh : headerHash Config.params h = Config.hash32 (packetBytes h 0x0BADD70D#32) := rfl
  unfold packetChecksum checksumFormula payloadHash
  rw [hh]
  congr 2
  split_ifs
  · rw [foldl_add_eq_sum, List.map_map]
    congr 2
    apply List.map_congr_left
    intro f _
    simp only [fragHash, slice, Function.comp]
    rw [show f.1 + 16 - f.1 = 16 by omega,
      show f.1 + f.2.size.toNat - (f.1 + 16) = f.2.size.toNat - 16 by omega]
    rfl
  · rfl

/-- The client packet's checksum where its data has values. -/
theorem clientChecksum_of_holds {s : State} {data : List Byte} (hv : s.cpValid = true)
    (hl : data.length = s.cpHdr.size.toNat) (hd : s.cpd.holds 0 data) :
    clientChecksum Config.params s = .ok
      (checksumFormula s.cpHdr data s.cpOptlen.toNat s.fragSpans (maskIn s .client s.cpHdr),
        { s with ksDraws := drawsAfter s s.cpHdr }) := by
  unfold clientChecksum
  rw [require_pos hv, ok_bind, Memory.bytes_of_holds hl hd, ok_bind]
  dsimp only
  rw [drawMask_state, drawMask_mask, packetChecksum_eq]
  simp only [State.clientRegion, State.fragSpans, List.map_map]
  rfl

/-! ### Bytes of a register -/

/-- A legal count is taken as it is. -/
theorem byteCount_legal {n : BitVec 3} (h : countLegal n) : byteCount n = .ok n.toNat := if_pos h

/-- The bytes an append stores (20_memory.md R63). -/
theorem wordBytes_eq_lowBytes (v : Word) {n : BitVec 3} (h : countLegal n) :
    wordBytes v n.toNat = lowBytes v n.toNat := by
  obtain ⟨h1, h4⟩ := h
  have hn : n.toNat = 1 ∨ n.toNat = 2 ∨ n.toNat = 3 ∨ n.toNat = 4 := by omega
  rcases hn with h | h | h | h <;> rw [h] <;> rfl

/-- Bit `i` of bytes put into a register. -/
theorem bytesWord_getLsbD (bs : List Byte) (i : Nat) (hi : i < 32) :
    (bytesWord bs).getLsbD i = (bs[i / 8]?.getD 0#8).getLsbD (i % 8) := by
  induction bs generalizing i with
  | nil => simp [bytesWord]
  | cons b bs ih =>
    simp only [bytesWord, BitVec.getLsbD_or, BitVec.getLsbD_setWidth, BitVec.getLsbD_shiftLeft, hi,
      decide_true, Bool.true_and]
    rcases Nat.lt_or_ge i 8 with h | h
    · simp [h, Nat.div_eq_of_lt h, Nat.mod_eq_of_lt h]
    · have e : i / 8 = (i - 8) / 8 + 1 := by omega
      rw [e, List.getElem?_cons_succ, BitVec.getLsbD_of_ge b i h, ih (i - 8) (by omega),
        show (i - 8) % 8 = i % 8 by omega]
      simp [show ¬ i < 8 by omega]

/-- Byte `j` of bytes put into a register (20_memory.md R63). -/
theorem bytesWord_byte (bs : List Byte) (j : Nat) (hj : j < 4) :
    (bytesWord bs).extractLsb' (8 * j) 8 = bs[j]?.getD 0#8 := by
  apply BitVec.eq_of_getLsbD_eq
  intro i hi
  rw [BitVec.getLsbD_extractLsb', bytesWord_getLsbD bs (8 * j + i) (by omega)]
  simp only [hi, decide_true, Bool.true_and]
  rw [show (8 * j + i) / 8 = j by omega, show (8 * j + i) % 8 = i by omega]

end Sys2Proof.Machine
end

