-- ==== Sys2Proof/Laws/Host.lean ====
section
/-! SUPPORT. What one step does with a host access to a register. -/

namespace Sys2Proof.Machine

open Sys2Proof

/-- The register map gives every register at its own offset (10_state.md R40). -/
theorem regAt_offset (r : Reg) : regAt r.offset = some r := by
  cases r <;> first | rfl | (rename_i f; cases f <;> rfl)

/-- Every register is at an aligned offset inside the window. -/
theorem Reg.offset_bounds (r : Reg) : r.offset % 4 = 0 ∧ r.offset < 256 := by
  cases r <;> first | decide | (rename_i f; cases f <;> decide)

/-- Only CMD is at offset 0. -/
theorem Reg.offset_ne_zero {r : Reg} (hr : r ≠ .cmd) : r.offset ≠ 0 := fun h0 => hr (by
  have h := regAt_offset r
  rw [h0] at h
  exact (Option.some.inj h).symm)

/-- A step that takes a register write other than CMD's. -/
theorem step_writeReg {s : State} {rest : List HostAction} {r : Reg} {v : Word} (hr : r ≠ .cmd)
    (h : s.host = .write .regs r.offset .word v :: rest) :
    step s = .next (({ s with host := rest } : State).writeReg Config.params v r) := by
  have hb := r.offset_bounds
  have h0 := Reg.offset_ne_zero hr
  have hs : ¬startsCommand .regs r.offset .word := fun h' => h0 h'.2.1
  have ha : wordAccess r.offset .word := ⟨rfl, hb.1⟩
  have hw : r.offset < spaceSize Config.params .regs := hb.2
  simp only [step, takeAction, h, hostAct, if_neg hs, hostWrite, if_pos ha, if_pos hw, regAt_offset]

/-- A step that takes a register read. -/
theorem step_readReg {s : State} {rest : List HostAction} {r : Reg}
    (h : s.host = .read .regs r.offset .word :: rest) :
    step s = .next { s with host := rest, observed := some (.word (s.readReg r)) } := by
  have hb := r.offset_bounds
  have ha : wordAccess r.offset .word := ⟨rfl, hb.1⟩
  have hw : r.offset < spaceSize Config.params .regs := hb.2
  simp only [step, takeAction, h, hostAct, hostRead, if_pos ha, if_pos hw, regAt_offset]
  cases r <;> rfl

/-- A u16 register keeps the low 16 bits of what is written to it (10_state.md R28). -/
theorem half_register (v : Word) : (v.setWidth 16).setWidth 32 = v &&& 0x0000FFFF#32 := by
  apply BitVec.eq_of_toNat_eq
  have h : v.toNat &&& 65535 = v.toNat % 65536 := Nat.and_two_pow_sub_one_eq_mod v.toNat 16
  simp only [BitVec.toNat_setWidth, BitVec.toNat_and, BitVec.toNat_ofNat]
  rw [show 65535 % 2 ^ 32 = 65535 from rfl, h]
  omega

/-- A u16 register shows its value with the rest 0 (10_state.md R28). -/
theorem half_as_word (v : Half) : v.setWidth 32 = 0#16 ++ v := by
  apply BitVec.eq_of_toNat_eq
  rw [BitVec.toNat_append]
  simp only [BitVec.toNat_setWidth, BitVec.toNat_ofNat, Nat.zero_mod, Nat.zero_shiftLeft,
    Nat.zero_or]
  omega

/-- A write to a register the host may write shows in no other register. -/
theorem State.readReg_writeReg_of_ne {P : Config.Params} {s : State} {r q : Reg} {mask v : Word}
    (hm : r.storesMask = some mask) (hq : q ≠ r) : (s.writeReg P v r).readReg q = s.readReg q := by
  cases r <;> first | (cases hm; done) | skip
  case arg0 => cases q <;> first | rfl | exact absurd rfl hq
  case arg1 => cases q <;> first | rfl | exact absurd rfl hq
  all_goals rename_i f
  all_goals cases q <;> first | rfl | skip
  all_goals rename_i g
  all_goals cases f <;> first | (cases hm; done) | skip
  all_goals cases g <;> first | rfl | exact absurd rfl hq

/-- A packet header register set shows the fields of its header (10_state.md R40). -/
theorem packetRegisters_get {base : Nat} {h : PacketHeader} {c : Nat × Word}
    (hc : c ∈ packetRegisters base h) : ∃ f : PacketField, base + f.offset = c.1 ∧ h.get f = c.2 := by
  simp only [packetRegisters, List.mem_cons, List.not_mem_nil, or_false] at hc
  rcases hc with rfl | rfl | rfl | rfl | rfl | rfl | rfl
  · exact ⟨.seq, rfl, rfl⟩
  · exact ⟨.flags, rfl, rfl⟩
  · exact ⟨.cksum, rfl, rfl⟩
  · exact ⟨.id, rfl, half_as_word _⟩
  · exact ⟨.time, rfl, half_as_word _⟩
  · exact ⟨.size, rfl, half_as_word _⟩
  · exact ⟨.table, rfl, half_as_word _⟩

/-- A fragment header register set shows the fields of its header (10_state.md R40). -/
theorem fragmentRegisters_get {base : Nat} {h : FragmentHeader} {c : Nat × Word}
    (hc : c ∈ fragmentRegisters base h) :
    ∃ f : FragmentField, base + f.offset = c.1 ∧ h.get f = c.2 := by
  simp only [fragmentRegisters, List.mem_cons, List.not_mem_nil, or_false] at hc
  rcases hc with rfl | rfl | rfl | rfl | rfl | rfl
  · exact ⟨.seq, rfl, rfl⟩
  · exact ⟨.id, rfl, rfl⟩
  · exact ⟨.count, rfl, half_as_word _⟩
  · exact ⟨.size, rfl, half_as_word _⟩
  · exact ⟨.index, rfl, half_as_word _⟩
  · exact ⟨.group, rfl, half_as_word _⟩

/-- Every listed register value is what a register of the map reads (10_state.md R40). -/
theorem State.registerValues_readReg {s : State} {c : Nat × Word} (hc : c ∈ s.registerValues) :
    ∃ r : Reg, r.offset = c.1 ∧ s.readReg r = c.2 := by
  simp only [State.registerValues, List.mem_append, or_assoc] at hc
  rcases hc with hc | hc | hc | hc | hc | hc
  · simp only [List.mem_cons, List.not_mem_nil, or_false] at hc
    rcases hc with rfl | rfl | rfl | rfl | rfl | rfl | rfl | rfl | rfl | rfl | rfl
    · exact ⟨.errseen, rfl, rfl⟩
    · exact ⟨.res, rfl, rfl⟩
    · exact ⟨.arg0, rfl, rfl⟩
    · exact ⟨.arg1, rfl, rfl⟩
    · exact ⟨.rxlen, rfl, rfl⟩
    · exact ⟨.cpOptlen, rfl, rfl⟩
    · exact ⟨.cpNfrag, rfl, rfl⟩
    · exact ⟨.cpFsel, rfl, rfl⟩
    · exact ⟨.spWp, rfl, rfl⟩
    · exact ⟨.sfWp, rfl, rfl⟩
    · exact ⟨.txLen, rfl, rfl⟩
  · exact (packetRegisters_get hc).elim fun f h => ⟨.hdr f, h⟩
  · exact (packetRegisters_get hc).elim fun f h => ⟨.cpHdr f, h⟩
  · exact (packetRegisters_get hc).elim fun f h => ⟨.spHdr f, h⟩
  · exact (fragmentRegisters_get hc).elim fun f h => ⟨.fh f, h⟩
  · exact (fragmentRegisters_get hc).elim fun f h => ⟨.sf f, h⟩

end Sys2Proof.Machine
end

