-- ==== Sys2Proof/Laws/PerInstr.lean ====
section
/-! SUPPORT. The encoder against the opcode table (spec/opcode_table.json, 30_encoding.md R91): the fixed
bits of each row, one lemma per command. -/

namespace Sys2Proof.Laws.EncodeMatchesRow

/-- The `match` and `mask` of a command's row. -/
def row : Instr → Word × Word
  | .nop          => (0x00000000#32, 0xFFFFFFFF#32)
  | .hdrLoad      => (0x00000001#32, 0xFFFFFFFF#32)
  | .hdrStore     => (0x00000002#32, 0xFFFFFFFF#32)
  | .hdrHash      => (0x00000003#32, 0xFFFFFFFF#32)
  | .fhdrLoad     => (0x00000004#32, 0xFFFFFFFF#32)
  | .fhdrStore    => (0x00000005#32, 0xFFFFFFFF#32)
  | .optDecode    => (0x00000008#32, 0xFFFFFFFF#32)
  | .cpDecode     => (0x00000010#32, 0xFFFFFFFF#32)
  | .cpFragSelect => (0x00000011#32, 0xFFFFFFFF#32)
  | .cpFragRead _ => (0x00000012#32, 0xFFFFF8FF#32)
  | .cpChecksum   => (0x00000013#32, 0xFFFFFFFF#32)
  | .cpVerify     => (0x00000014#32, 0xFFFFFFFF#32)
  | .spNew        => (0x00000020#32, 0xFFFFFFFF#32)
  | .spAppend _   => (0x00000021#32, 0xFFFFF8FF#32)
  | .spFinalize   => (0x00000022#32, 0xFFFFFFFF#32)
  | .sfNew _      => (0x00000028#32, 0xFFFFFEFF#32)
  | .sfAppend _   => (0x00000029#32, 0xFFFFF8FF#32)
  | .sfEmit       => (0x0000002A#32, 0xFFFFFFFF#32)

/-- A command's word has the fixed bits of its row. -/
def Statement (i : Instr) : Prop := encode i &&& (row i).2 = (row i).1

theorem nop : Statement .nop := by unfold Statement; decide

theorem hdrLoad : Statement .hdrLoad := by unfold Statement; decide

theorem hdrStore : Statement .hdrStore := by unfold Statement; decide

theorem hdrHash : Statement .hdrHash := by unfold Statement; decide

theorem fhdrLoad : Statement .fhdrLoad := by unfold Statement; decide

theorem fhdrStore : Statement .fhdrStore := by unfold Statement; decide

theorem optDecode : Statement .optDecode := by unfold Statement; decide

theorem cpDecode : Statement .cpDecode := by unfold Statement; decide

theorem cpFragSelect : Statement .cpFragSelect := by unfold Statement; decide

theorem cpFragRead (n : BitVec 3) : Statement (.cpFragRead n) := by
  revert n; unfold Statement; decide

theorem cpChecksum : Statement .cpChecksum := by unfold Statement; decide

theorem cpVerify : Statement .cpVerify := by unfold Statement; decide

theorem spNew : Statement .spNew := by unfold Statement; decide

theorem spAppend (n : BitVec 3) : Statement (.spAppend n) := by
  revert n; unfold Statement; decide

theorem spFinalize : Statement .spFinalize := by unfold Statement; decide

theorem sfNew (o : Bool) : Statement (.sfNew o) := by
  revert o; unfold Statement; decide

theorem sfAppend (n : BitVec 3) : Statement (.sfAppend n) := by
  revert n; unfold Statement; decide

theorem sfEmit : Statement .sfEmit := by unfold Statement; decide

end Sys2Proof.Laws.EncodeMatchesRow
end

