-- ==== Sys2Proof/Tests/Slice0.lean ====
section
/-! SUPPORT. Tests: ill-formed commands, command words written out bit by bit from 30_encoding.md R90 and
R91, one-step vectors of 95_test_vectors.md, and for every statement with hypotheses a state that meets
them. -/

namespace Sys2Proof.Tests

open Sys2Proof Sys2Proof.Machine

/-! ### Well-formedness (30_encoding.md R92) -/

theorem test_wellFormed_count_zero :
    (Instr.cpFragRead 0#3).wellFormed = false ∧ (Instr.spAppend 0#3).wellFormed = false
      ∧ (Instr.sfAppend 0#3).wellFormed = false := by decide

theorem test_wellFormed_count_above_four :
    ∀ n ∈ [5#3, 6#3, 7#3], (Instr.cpFragRead n).wellFormed = false
      ∧ (Instr.spAppend n).wellFormed = false ∧ (Instr.sfAppend n).wellFormed = false := by decide

theorem test_wellFormed_legal :
    ∀ n ∈ [1#3, 2#3, 3#3, 4#3], (Instr.cpFragRead n).wellFormed = true
      ∧ (Instr.spAppend n).wellFormed = true ∧ (Instr.sfAppend n).wellFormed = true := by decide

/-! ### Decoding: words written bit by bit, reserved bits, field and opcode in order -/

theorem test_decode_nop : decode 0b00000000000000000000000000000000#32 = .ok .nop := by decide

theorem test_decode_header_codecs :
    decode 0b00000000000000000000000000000001#32 = .ok .hdrLoad
    ∧ decode 0b00000000000000000000000000000010#32 = .ok .hdrStore
    ∧ decode 0b00000000000000000000000000000011#32 = .ok .hdrHash
    ∧ decode 0b00000000000000000000000000000100#32 = .ok .fhdrLoad
    ∧ decode 0b00000000000000000000000000000101#32 = .ok .fhdrStore := by decide

theorem test_decode_optDecode : decode 0b00000000000000000000000000001000#32 = .ok .optDecode := by
  decide

theorem test_decode_client :
    decode 0b00000000000000000000000000010000#32 = .ok .cpDecode
    ∧ decode 0b00000000000000000000000000010001#32 = .ok .cpFragSelect
    ∧ decode 0b00000000000000000000001100010010#32 = .ok (.cpFragRead 3#3)
    ∧ decode 0b00000000000000000000000000010011#32 = .ok .cpChecksum
    ∧ decode 0b00000000000000000000000000010100#32 = .ok .cpVerify := by decide

theorem test_decode_server_packet :
    decode 0b00000000000000000000000000100000#32 = .ok .spNew
    ∧ decode 0b00000000000000000000001000100001#32 = .ok (.spAppend 2#3)
    ∧ decode 0b00000000000000000000000000100010#32 = .ok .spFinalize := by decide

theorem test_decode_server_fragment :
    decode 0b00000000000000000000000000101000#32 = .ok (.sfNew false)
    ∧ decode 0b00000000000000000000000100101000#32 = .ok (.sfNew true)
    ∧ decode 0b00000000000000000000000100101001#32 = .ok (.sfAppend 1#3)
    ∧ decode 0b00000000000000000000000000101010#32 = .ok .sfEmit := by decide

/-- The illegal words of 95_test_vectors.md V-L2-X2 to X7. -/
theorem test_decode_illegal :
    decode 0x00000100#32 = .error .reservedBit ∧ decode 0x00000006#32 = .error .unknownOpcode
    ∧ decode 0x00000012#32 = .error .badCount ∧ decode 0x00000512#32 = .error .badCount
    ∧ decode 0x00000228#32 = .error .reservedBit ∧ decode 0x00010001#32 = .error .reservedBit := by
  decide

theorem test_table_word : decodeTableWord 32 0x00000421 = some (.spAppend 4#3)
    ∧ decodeTableWord 32 0x00000021 = none := by decide

/-! ### States and readings -/

/-- Reset with bytes in RX from 0 on, RXLEN their number and ARG0 given. -/
def received (bs : List Byte) (arg0 : Word) : State :=
  { State.reset with rx := Memory.writeList [] 0 bs, rxlen := BitVec.ofNat 32 bs.length, arg0 := arg0 }

/-- What a next state shows; nothing where the run stops. -/
def seen {α : Type} (o : Host.Outcome State Fault Refusal) (f : State → α) : Option α :=
  match o with
  | .next t    => some (f t)
  | .fault _   => none
  | .refused _ => none

/-- The state an outcome goes on in, or the state before it. -/
def thenState (o : Host.Outcome State Fault Refusal) (s : State) : State :=
  match o with
  | .next t    => t
  | .fault _   => s
  | .refused _ => s

/-- The words of the reference hash, and its last bytes (93_implementation_defined.md I1). -/
def hashWords : Word → List Byte → Word
  | c, b0 :: b1 :: b2 :: b3 :: bs => hashWords (c + (b3 ++ b2 ++ b1 ++ b0)) bs
  | c, [b0, b1, b2] =>
    c + (b0.setWidth 32 <<< 24) + (b1.setWidth 32 <<< 16) + (b2.setWidth 32 <<< 8)
  | c, [b0, b1]     => c + (b0.setWidth 32 <<< 24) + (b1.setWidth 32 <<< 16)
  | c, [b0]         => c + (b0.setWidth 32 <<< 24)
  | c, []           => c

/-- The reference hash (93_implementation_defined.md I1). -/
def hash32Ref (bs : List Byte) : Word := hashWords (BitVec.ofNat 32 bs.length <<< 16) bs

/-- The default configuration with the reference hash and every keystream draw `k`. -/
def ref (k : Word) : Config.Params :=
  { Config.params with hash32 := hash32Ref, keystream := fun _ _ _ => k }

theorem test_reference_hash :
    hash32Ref [] = 0x00000000#32 ∧ hash32Ref [0x41, 0x42, 0x43, 0x44] = 0x44474241#32
    ∧ hash32Ref [0x41, 0x42, 0x43, 0x44, 0x45] = 0x89484241#32
    ∧ hash32Ref [0x41, 0x42, 0x43, 0x44, 0x45, 0x46, 0x47] = 0x89908941#32 := by decide

/-- B-PH1 (95_test_vectors.md). -/
def bPH1 : List Byte :=
  [0x04, 0x03, 0x02, 0x01, 0x04, 0x00, 0x00, 0x00, 0xdd, 0xcc, 0xbb, 0xaa, 0x22, 0x11, 0x44, 0x33,
   0x2c, 0x01, 0x66, 0x55]

/-- The fields of B-PH1. -/
def hPH1 : PacketHeader :=
  ⟨0x01020304#32, 0x00000004#32, 0xAABBCCDD#32, 0x1122#16, 0x3344#16, 0x012C#16, 0x5566#16⟩

/-- B-FH1 (95_test_vectors.md). -/
def bFH1 : List Byte :=
  [0x0d, 0x0c, 0x0b, 0x0a, 0x44, 0x33, 0x22, 0x11, 0x03, 0x00, 0x64, 0x00, 0x01, 0x00, 0x88, 0x77]

/-- The fields of B-FH1. -/
def hFH1 : FragmentHeader := ⟨0x0A0B0C0D#32, 0x11223344#32, 3#16, 100#16, 1#16, 0x7788#16⟩

/-- A packet header with flags, checksum and size given and every other field 0. -/
def packet (flags checksum : Word) (size : Half) : PacketHeader :=
  ⟨0#32, flags, checksum, 0#16, 0#16, size, 0#16⟩

/-- B-ABCD (95_test_vectors.md). -/
def bABCD : List Byte :=
  [0x00, 0x00, 0x00, 0x00, 0x00, 0x00, 0x00, 0x00, 0x52, 0x19, 0x09, 0x50, 0x00, 0x00, 0x00, 0x00,
   0x04, 0x00, 0x00, 0x00, 0x41, 0x42, 0x43, 0x44]

/-- The packet of V-L2-G6: one fragment of size 20 with payload "ABCD". -/
def bG6 : List Byte :=
  [0, 0, 0, 0, 4, 0, 0, 0, 0, 0, 0, 0, 0, 0, 0, 0, 20, 0, 0, 0]
    ++ [0, 0, 0, 0, 0, 0, 0, 0, 0, 0, 20, 0, 0, 0, 0, 0] ++ [0x41, 0x42, 0x43, 0x44]

/-- Its packet and fragment header. -/
def hG6 : PacketHeader := packet 0x4#32 0#32 20#16

def fG6 : FragmentHeader := ⟨0#32, 0#32, 0#16, 20#16, 0#16, 0#16⟩

/-- The G6 packet held, its fragment read up to `cur`. -/
def heldG6 (cur : Nat) : State :=
  { State.reset with
    cpValid := true, cpHdr := hG6, cpd := Memory.writeList [] 0 (bG6.drop 20)
    frags := [⟨0, fG6, cur⟩] }

/-- B-ABCD held, its carried checksum given. -/
def heldABCD (flags checksum : Word) : State :=
  { State.reset with
    cpValid := true, cpHdr := packet flags checksum 4#16
    cpd := Memory.writeList [] 0 [0x41, 0x42, 0x43, 0x44] }

/-- A server packet being filled: flags, id and payload given. -/
def filling (flags : Word) (id : Half) (payload : List Byte) : State :=
  { State.reset with
    spHdr := ⟨0#32, flags, 0#32, id, 0#16, 0#16, 0#16⟩, spState := .filling
    spWp := BitVec.ofNat 32 payload.length, tx := Memory.writeList [] 20 payload }

/-! ### One-step vectors (95_test_vectors.md) -/

/-- V-L2-X1. -/
theorem test_nop : seen (exec .nop { State.reset with err := some .truncatedInput, errseen := 0x2#32 })
    (fun t => (t.err, t.errseen)) = some (none, 0x2#32) := by decide

/-- V-L2-X2 and X4, as steps. -/
theorem test_illegal_word :
    seen (step { State.reset with host := [commandWrite 0x00000100#32] })
      (fun t => (t.statusWord, t.errseen)) = some (0x6#32, 0x40#32)
    ∧ seen (step { heldG6 0 with host := [commandWrite 0x00000012#32] })
      (fun t => (t.err, t.frags)) = some (some .illegalCommand, [⟨0, fG6, 0⟩]) := by decide

/-- V-L1-1, V-L2-H3: no alignment requirement. -/
theorem test_hdrLoad :
    seen (exec .hdrLoad (received ([0, 0, 0] ++ bPH1) 3#32)) (fun t => (t.hdr, t.err))
      = some (hPH1, none) := by decide

/-- V-L2-H2. -/
theorem test_hdrLoad_truncated :
    seen (exec .hdrLoad { received bPH1 0#32 with rxlen := 19#32 }) (fun t => (t.hdr, t.err))
      = some (.zero, some .truncatedInput) := by decide

/-- V-L1-1. -/
theorem test_hdrStore :
    seen (exec .hdrStore { State.reset with hdr := hPH1 })
      (fun t => (List.range 20).map (fun a => t.obuf.read a)) = some (bPH1.map some) := by decide

/-- V-L1-4, V-L2-H5. -/
theorem test_hdrHash :
    seen (runHdrHash (ref 0#32) { State.reset with hdr := packet 0#32 0x12345678#32 4#16 })
      (fun t => (t.res, t.hdr.checksum)) = some (0x0BC1D711#32, 0x12345678#32)
    ∧ seen (runHdrHash (ref 0#32) State.reset) (fun t => t.res) = some 0x0BC1D70D#32 := by decide

/-- V-L1-2. -/
theorem test_fhdrLoad :
    seen (exec .fhdrLoad (received bFH1 0#32)) (fun t => (t.fh, t.err)) = some (hFH1, none) := by decide

/-- V-L1-2: OBUF[16,20) keeps its bytes. -/
theorem test_fhdrStore :
    seen (exec .fhdrStore { State.reset with fh := hFH1, obuf := [(16, 0xEE), (19, 0x11)] })
      (fun t => (List.range 20).map (fun a => t.obuf.read a))
      = some (bFH1.map some ++ [some 0xEE, none, none, some 0x11]) := by decide

/-- V-L2-O3. -/
theorem test_optDecode :
    seen (exec .optDecode
      { received (List.replicate 20 0 ++ [2, 0, 0, 0, 0xaa, 0xbb, 1, 0, 0, 0, 0xcc]) 20#32 with
        hdr := packet 0x00003000#32 0#32 0#16 }) (fun t => (t.res, t.err)) = some (11#32, none) := by
  decide

/-- V-L2-O4 and O6: a unit of 4, and a count that must not wrap. -/
theorem test_optDecode_truncated :
    seen (runOptDecode { Config.params with retxUnit := 4 }
      { received (List.replicate 20 0 ++ [2, 0, 0, 0, 0xaa, 0xbb, 1, 0, 0, 0, 0xcc]) 20#32 with
        hdr := packet 0x00003000#32 0#32 0#16 }) (fun t => t.err) = some (some .truncatedInput)
    ∧ seen (exec .optDecode
      { received (List.replicate 20 0 ++ [0xff, 0xff, 0xff, 0xff]) 20#32 with
        hdr := packet 0x00001000#32 0#32 0#16 }) (fun t => t.err) = some (some .truncatedInput) := by
  decide

/-- 20_memory.md R66, R75: an opaque byte of a block that fits is read. -/
theorem test_optDecode_unwritten :
    exec .optDecode { received [1, 2, 3] 0#32 with rxlen := 4#32, hdr := packet 0x00004000#32 0#32 0#16 }
      = .fault (.noValue .rx 3) := rfl

/-- P1 line 3. -/
theorem test_cpDecode :
    seen (exec .cpDecode (received bABCD 0#32)) (fun t => (t.cpHdr, t.cpOptlen, t.cpNfrag, t.statusWord))
      = some (packet 0#32 0x50091952#32 4#16, 0#32, 0, 0x00000100#32) := by decide

/-- V-L2-A9: an error clears the packet held. -/
theorem test_cpDecode_clears :
    seen (exec .cpDecode { heldG6 0 with rxlen := 19#32 }) (fun t => (t.err, t.cpValid, t.cpNfrag, t.cpHdr))
      = some (some .truncatedInput, false, 0, .zero) := by decide

/-- V-L2-G2: the payload of a fragment of size 16 is empty. -/
theorem test_cpFragSelect :
    seen (exec .cpFragSelect (heldG6 1)) (fun t => (t.fh, t.cpFsel, t.res)) = some (fG6, 0#32, 3#32)
    ∧ seen (exec .cpFragSelect { heldG6 0 with arg0 := 1#32 }) (fun t => (t.err, t.cpFsel))
      = some (some .outOfRange, 0#32) := by decide

/-- V-L2-G6. -/
theorem test_cpFragRead :
    seen (exec (.cpFragRead 3#3) (heldG6 0)) (fun t => (t.res, t.frags))
      = some (0x00434241#32, [⟨0, fG6, 3⟩])
    ∧ seen (exec (.cpFragRead 2#3) (heldG6 3)) (fun t => (t.err, t.res, t.frags))
      = some (some .truncatedInput, 0#32, [⟨0, fG6, 3⟩]) := by decide

/-- V-L1-9 and V-L2-K2. -/
theorem test_cpChecksum :
    seen (runCpChecksum (ref 0#32) (heldABCD 0#32 0#32)) (fun t => (t.res, t.ksDraws))
      = some (0x50091952#32, 0)
    ∧ seen (runCpChecksum (ref 0x12345678#32) (heldABCD 2#32 0#32)) (fun t => (t.res, t.ksDraws))
      = some (0x6234EB4C#32, 1) := by decide

/-- V-L2-C5: BlobFragments together with an optional flag. -/
theorem test_cpChecksum_blob_and_option :
    seen (runCpChecksum (ref 0#32) { State.reset with
      cpValid := true, cpHdr := packet 0x08000004#32 0#32 26#16, cpOptlen := 6#32
      cpd := Memory.writeList [] 0 ([1, 2, 3, 4, 5, 6] ++
        [7, 0, 0, 0, 8, 0, 0, 0, 1, 0, 20, 0, 0, 0, 2, 0] ++ [0x57, 0x58, 0x59, 0x5a])
      frags := [⟨6, ⟨7#32, 8#32, 1#16, 20#16, 0#16, 2#16⟩, 0⟩] }) (fun t => t.res)
      = some 0x77543193#32 := by decide

/-- V-L2-K1 and K3. -/
theorem test_cpVerify :
    seen (runCpVerify (ref 0#32) (heldABCD 0#32 0x50091952#32)) (fun t => (t.statusWord, t.res))
      = some (0x00000100#32, 0x50091952#32)
    ∧ seen (runCpVerify (ref 0#32) (heldABCD 0#32 0x50091953#32))
      (fun t => (t.statusWord, t.res, t.errseen)) = some (0x00000103#32, 0x50091952#32, 0x8#32) := by
  decide

/-- P2 line 3, and V-L2-A10. -/
theorem test_spNew :
    seen (exec .spNew { State.reset with arg0 := 1#32, arg1 := 4#32 }) (fun t => (t.spHdr, t.statusWord))
      = some (⟨0#32, 4#32, 0#32, 1#16, 0#16, 0#16, 0#16⟩, 0x00000200#32)
    ∧ seen (exec .spNew { State.reset with arg0 := 1#32, arg1 := 3#32 }) (fun t => (t.err, t.spState))
      = some (some .invalidFlagCombination, .empty) := by decide

/-- V-L2-A12, first command. -/
theorem test_spAppend :
    seen (exec (.spAppend 4#3) { filling 0#32 1#16 [] with arg1 := 0x44434241#32 })
      (fun t => (t.tx, t.spWp))
      = some ([(20, 0x41), (21, 0x42), (22, 0x43), (23, 0x44)], 4#32) := by decide

/-- V-L2-A17: the check is against the end of the whole append. -/
theorem test_spAppend_oversized :
    seen (exec (.spAppend 4#3) { filling 0#32 1#16 [] with spWp := 446#32 })
      (fun t => (t.err, t.tx, t.spWp)) = some (some .oversizedPayload, [], 446#32) := by decide

/-- V-L2-A12, second command. -/
theorem test_spFinalize :
    seen (runSpFinalize (ref 0#32) (filling 0#32 1#16 [0x41, 0x42, 0x43, 0x44]))
      (fun t => (t.tx.map Prod.snd, t.txLen, t.statusWord))
      = some ([0x00, 0x00, 0x00, 0x00, 0x00, 0x00, 0x00, 0x00, 0x53, 0x19, 0x09, 0x50, 0x01, 0x00, 0x00,
        0x00, 0x04, 0x00, 0x00, 0x00, 0x41, 0x42, 0x43, 0x44], 24#32, 0x00000400#32) := by decide

/-- V-L2-A15: bytes that are no fragment. -/
theorem test_spFinalize_truncated :
    seen (exec .spFinalize (filling 4#32 0#16 [0, 0, 0, 0, 0, 0, 0, 0, 0, 0]))
      (fun t => (t.err, t.spState)) = some (some .truncatedInput, .filling) := by decide

/-- V-L2-S1 and S2. -/
theorem test_sfNew :
    seen (exec (.sfNew true) { filling 4#32 0#16 [] with arg0 := 9#32, arg1 := 0xF7B1#32 })
      (fun t => (t.sfHdr, t.sfb.map Prod.snd, t.sfWp, t.statusWord))
      = some (⟨0#32, 0#32, 0#16, 0#16, 0#16, 9#16⟩, [0xb1, 0xf7, 0, 0], 4#32, 0x00000A00#32)
    ∧ seen (exec (.sfNew false) { filling 4#32 0#16 [] with arg0 := 0x12340009#32 })
      (fun t => (t.sfHdr.group, t.sfWp)) = some (9#16, 0#32) := by decide

/-- V-L2-S3 and S4. -/
theorem test_sfAppend :
    seen (exec (.sfAppend 3#3) { State.reset with
      sfState := .filling, sfWp := 4#32, arg1 := 0x00636261#32 }) (fun t => (t.sfb, t.sfWp))
      = some ([(4, 0x61), (5, 0x62), (6, 0x63)], 7#32)
    ∧ seen (exec (.sfAppend 4#3) { State.reset with sfState := .filling, sfWp := 446#32 })
      (fun t => (t.err, t.sfWp)) = some (some .oversizedPayload, 446#32) := by decide

/-- V-L2-S7. -/
theorem test_sfEmit :
    seen (exec .sfEmit { filling 4#32 0#16 [] with
      sfState := .filling, sfHdr := ⟨1#32, 2#32, 1#16, 0#16, 0#16, 9#16⟩, sfWp := 7#32
      sfb := Memory.writeList [] 0 [0xb1, 0xf7, 0x00, 0x00, 0x61, 0x62, 0x63] })
      (fun t => (t.tx.map Prod.snd, t.spWp, t.sfHdr.size, t.sfState, t.sfWp))
      = some ([0x01, 0x00, 0x00, 0x00, 0x02, 0x00, 0x00, 0x00, 0x01, 0x00, 0x17, 0x00, 0x00, 0x00, 0x09,
        0x00, 0xb1, 0xf7, 0x00, 0x00, 0x61, 0x62, 0x63], 23#32, 23#16, .empty, 0#32) := by decide

/-- V-L2-S9: 20 + 436 is more than 448. -/
theorem test_sfEmit_oversized :
    seen (exec .sfEmit { State.reset with
      sfState := .filling, spState := .filling, spWp := 20#32, sfWp := 420#32 })
      (fun t => (t.err, t.sfState, t.spWp)) = some (some .oversizedPayload, .filling, 20#32) := by decide

/-- V-L2-A3: the check can be turned off. -/
theorem test_enforceExcl :
    flagsValid Config.params 3#32 = false
    ∧ flagsValid { Config.params with enforceExcl := false } 3#32 = true := by decide

/-- V-L2-F9: bits [31:16] of a u16 register read 0. -/
theorem test_host_half_register :
    seen (step { State.reset with host := [.write .regs 0xAC .word 0x12345678#32] }) (fun t => t.fh.size)
      = some 0x5678#16 := by decide

/-- 20_memory.md R61: a platform address is a space and an offset. -/
theorem test_platformTarget :
    platformTarget Config.params ⟨0x1000, 0x20000, 0x2000, 0x3000⟩ 0x20003 = some (.rx, 3)
    ∧ platformTarget Config.params ⟨0x1000, 0x20000, 0x2000, 0x3000⟩ 0x1100 = none := by decide

/-! ### Witnesses: states and operands that meet each statement's hypotheses together, one per clause, at
the ends of its ranges -/

/-- An outcome that goes on is the next state it goes on in. -/
theorem goes_on {o : Host.Outcome State Fault Refusal} (h : seen o (fun _ => true) = some true)
    (s : State) : o = .next (thenState o s) := by
  cases o <;> first | rfl | simp [seen] at h

/-- A buffer written from nothing holds what was written. -/
theorem holds_written (a : Nat) (bs : List Byte) : (Memory.writeList [] a bs).holds a bs :=
  (Memory.writeList_storedAt [] a bs).1

/-- Received bytes are in RX. -/
theorem received_holds (bs : List Byte) (a : Word) : (received bs a).rx.holds 0 bs := holds_written 0 bs

theorem witness_IllegalWordChangesNothingElse :
    (∀ w ∈ [0x00000006#32, 0x000000FF#32, 0x00000100#32, 0x80000001#32, 0x00000012#32, 0x00000521#32,
      0x00000929#32, 0x00000228#32], illegalWord w
        ∧ { State.reset with host := [commandWrite w] }.host = [.write .regs 0x00 .word w])
    ∧ ∀ w ∈ [0x00000000#32, 0x0000002A#32, 0x00000112#32, 0x00000412#32, 0x00000128#32],
      ¬ illegalWord w := by
  simp [illegalWord, commandWrite, Reg.offset]

theorem witness_CmdWriteRunsTheCommand :
    ({ State.reset with host := [commandWrite 0x00000421#32] }.host
      = [.write .regs 0x00 .word 0x00000421#32] ∧ decode 0x00000421#32 = .ok (.spAppend 4#3))
    ∧ { State.reset with host := [.read .regs 0x00 .word] }.host = [.read .regs 0x00 .word] := by decide

theorem witness_CmdWriteOfAnIllegalWord :
    { State.reset with host := [commandWrite 0x00000012#32] }.host
      = [.write .regs 0x00 .word 0x00000012#32] ∧ decode 0x00000012#32 = .error .badCount := by decide

theorem witness_PlacedWordRunsNext : decodeTableWord 32 0x00000128 = some (.sfNew true) := by decide

theorem witness_IdleStepHoldsState : State.reset.host = [] := rfl

theorem witness_NopClearsTheErrorCode :
    ∀ w ∈ [0x00000100#32, 0x80000000#32], w.toNat % 256 = 0 ∧ w ≠ 0#32 := by
  simp

theorem witness_HdrLoadReadsAPacketHeader :
    (received [] 1#32).rxlen.toNat < (received [] 1#32).arg0.toNat
    ∧ ((received bFH1 16#32).arg0.toNat ≤ (received bFH1 16#32).rxlen.toNat
      ∧ (received bFH1 16#32).rxlen.toNat < (received bFH1 16#32).arg0.toNat + 20)
    ∧ ((received bPH1 0#32).arg0.toNat + 20 ≤ (received bPH1 0#32).rxlen.toNat
      ∧ ∀ j, j < 20 → (received bPH1 0#32).rx.read ((received bPH1 0#32).arg0.toNat + j)
        = some (bPH1[j]?.getD 0)) := by decide

theorem witness_FhdrLoadReadsAFragmentHeader :
    (received [] 1#32).rxlen.toNat < (received [] 1#32).arg0.toNat
    ∧ ((received bFH1 1#32).arg0.toNat ≤ (received bFH1 1#32).rxlen.toNat
      ∧ (received bFH1 1#32).rxlen.toNat < (received bFH1 1#32).arg0.toNat + 16)
    ∧ ((received bFH1 0#32).arg0.toNat + 16 ≤ (received bFH1 0#32).rxlen.toNat
      ∧ ∀ j, j < 16 → (received bFH1 0#32).rx.read ((received bFH1 0#32).arg0.toNat + j)
        = some (bFH1[j]?.getD 0)) := by decide

theorem witness_FragmentHeaderRoundTrip :
    bFH1.length = 16 ∧ ∃ s t u : State, exec .fhdrStore s = .next t ∧ u.fh = t.fh
      ∧ u.arg0.toNat + 16 ≤ u.rxlen.toNat
      ∧ ∀ j, j < 16 → u.rx.read (u.arg0.toNat + j) = t.obuf.read j :=
  ⟨rfl, { State.reset with fh := hFH1 }, _, { received bFH1 0#32 with fh := hFH1 },
    goes_on (by decide) State.reset, by decide, by decide, by decide⟩

theorem witness_PacketHeaderRoundTrip : bPH1.length = 20 := rfl

/-- The received bytes of V-L2-O3, with the flags of its two blocks. -/
def optState : State :=
  { received (List.replicate 20 0 ++ [2, 0, 0, 0, 0xaa, 0xbb, 1, 0, 0, 0, 0xcc]) 20#32 with
    hdr := packet 0x00003000#32 0#32 0#16 }

theorem witness_OptDecodeMeasuresTheRegion :
    (received [] 1#32).rxlen.toNat < (received [] 1#32).arg0.toNat
    ∧ (optState.arg0.toNat ≤ optState.rxlen.toNat
      ∧ optState.optCounts optState.rxlen.toNat 2#32 1#32
      ∧ (∀ k, optState.optEnd 2#32 1#32 k ≤ optState.rxlen.toNat →
        optState.rx.definedOn optState.arg0.toNat (optState.optEnd 2#32 1#32 k))
      ∧ optState.arg0.toNat + optTotal optState.hdr.flags 2 1 = optState.rxlen.toNat) := by
  refine ⟨by decide, by decide, ?_, fun k hk x h1 h2 => ?_, by decide⟩
  · unfold State.optCounts Memory.holds; decide
  · have : ∀ y, y < 31 → 20 ≤ y → (optState.rx.read y).isSome = true := by decide
    exact this x (Nat.lt_of_lt_of_le h2 hk) h1

/-- The same region cut off inside its last block. -/
theorem witness_OptDecodeTruncated :
    { optState with rxlen := 30#32 }.arg0.toNat ≤ { optState with rxlen := 30#32 }.rxlen.toNat
    ∧ { optState with rxlen := 30#32 }.optCounts 30 2#32 1#32
    ∧ (∀ k, optState.optEnd 2#32 1#32 k ≤ 30 → optState.rx.definedOn 20 (optState.optEnd 2#32 1#32 k))
    ∧ 30 < { optState with rxlen := 30#32 }.arg0.toNat + optTotal optState.hdr.flags 2 1 := by
  refine ⟨by decide, ?_, fun k hk x h1 h2 => ?_, by decide⟩
  · unfold State.optCounts Memory.holds; decide
  · have : ∀ y, y < 30 → 20 ≤ y → (optState.rx.read y).isSome = true := by decide
    exact this x (Nat.lt_of_lt_of_le h2 hk) h1

theorem witness_OptLenProperties :
    (∃ Q : Config.Params, Config.params.retxUnit = Q.retxUnit
      ∧ ∀ c ∈ optTable, has Config.params 0x00004000#32 c.1 = has Q 0x00000001#32 c.1)
    ∧ (∀ c ∈ optTable, has Config.params 0x01004000#32 c.1 = true
      ↔ (c.1 = .ackSequence ∨ c.1 = .timeSync))
    ∧ (has Config.params 0x00004000#32 .requestRetransmit = false
      ∧ has Config.params 0x00004000#32 .rejectRetransmit = false
      ∧ optLen Config.params 0x00004000#32 (listSource .rx [1, 2, 3, 4]) 0 4 = .ok 4)
    ∧ (0 + 12 ≤ 12 ∧ (listSource .rx (List.replicate 12 7)).definedOn 0 12)
    ∧ (0 + 4 ≤ 4 ∧ (listSource .rx [2, 0, 0, 0]).definedOn 0 4
      ∧ le32 (listSource .rx [2, 0, 0, 0]) 0 = .ok 2#32)
    ∧ noOptions Config.params 0x00000006#32 := by
  refine ⟨⟨{ Config.params with flagMask := fun f => if f = .ackSequence then 1#32 else 2#32 }, rfl,
    ?_⟩, ?_⟩
  · decide
  · unfold noOptions Source.definedOn
    refine ⟨by decide, by decide, ⟨by decide, fun x _ h => ?_⟩,
      ⟨by decide, fun x _ h => ?_, by decide⟩, by decide⟩ <;> revert x <;> decide

theorem witness_FragListFillsTheSpan :
    (15 < 0 + 16 ∧ 0 + 16 ≤ 16 ∧ decodeFH (listSource .cpd (List.replicate 16 0)) 0 = .ok .zero
      ∧ FragmentHeader.zero.size.toNat < 16)
    ∧ (decodeFH (listSource .cpd (bG6.drop 20)) 0 = .ok fG6 ∧ 16 ≤ fG6.size.toNat
      ∧ 19 < 0 + fG6.size.toNat ∧ 0 + fG6.size.toNat ≤ 20)
    ∧ fragList (listSource .cpd (bG6.drop 20)) 0 20 = .ok [(0, fG6)]
    ∧ fragList (listSource .cpd []) 0 0 = .ok [] := by decide

/-- One good fragment, alone and with one byte after it. -/
theorem witness_FragListFirstFailure :
    (∀ i f, [(0, fG6)][i]? = some f →
      f.1 = 0 + (([(0, fG6)].take i).map (fun g => g.2.size.toNat)).sum
      ∧ fragDecode (listSource .cpd (bG6.drop 20 ++ [9])) f.1 21 = .ok f.2)
    ∧ 0 + ([(0, fG6)].map (fun f => f.2.size.toNat)).sum < 21
    ∧ fragDecode (listSource .cpd (bG6.drop 20 ++ [9]))
      (0 + ([(0, fG6)].map (fun f => f.2.size.toNat)).sum) 21 = .error (.err .truncatedInput)
    ∧ fragDecode (listSource .cpd (bG6.drop 20)) 0 20 = .ok fG6 := by
  refine ⟨fun i f h => ?_, by decide, by decide, by decide⟩
  cases i with
  | zero => simp only [List.getElem?_cons_zero, Option.some.injEq] at h; subst h; decide
  | succ i => simp at h

/-- The four ways a region parses. -/
theorem witness_RegionParseJoinsItsParts :
    optLen Config.params 0x00004000#32 (listSource .cpd []) 0 0 = .error (.err .truncatedInput)
    ∧ (optLen Config.params 0#32 (listSource .cpd [1]) 0 1 = .ok 0
      ∧ has Config.params 0#32 .blobFragments = false)
    ∧ (optLen Config.params 4#32 (listSource .cpd (List.replicate 16 0)) 0 16 = .ok 0
      ∧ has Config.params 4#32 .blobFragments = true
      ∧ fragList (listSource .cpd (List.replicate 16 0)) 0 16 = .error (.err .invalidFragmentSize))
    ∧ fragList (listSource .cpd (bG6.drop 20)) 0 20 = .ok [(0, fG6)] := by decide

theorem witness_CpDecodeHoldsOrClearsThePacket :
    (received bFH1 0#32).rxlen.toNat < 20
    ∧ (20 ≤ (received (packetBytes (packet 3#32 0#32 0#16) 0#32) 0#32).rxlen.toNat
      ∧ flagsValid Config.params (packet 3#32 0#32 0#16).flags = false)
    ∧ (flagsValid Config.params (packet 0#32 0#32 1#16).flags = true
      ∧ (received (packetBytes (packet 0#32 0#32 1#16) 0#32) 0#32).rxlen.toNat
        < 20 + (packet 0#32 0#32 1#16).size.toNat)
    ∧ (flagsValid Config.params 0x00004000#32 = true
      ∧ regionParse Config.params 0x00004000#32 [] = .error (.err .truncatedInput))
    ∧ (received bG6 0#32).rx.holds 0 (packetBytes hG6 hG6.checksum)
    ∧ (received bG6 0#32).rx.holds 20 (bG6.drop 20)
    ∧ (20 + hG6.size.toNat ≤ (received bG6 0#32).rxlen.toNat
      ∧ (bG6.drop 20).length = hG6.size.toNat ∧ flagsValid Config.params hG6.flags = true
      ∧ regionParse Config.params hG6.flags (bG6.drop 20) = .ok ⟨0, [(0, fG6)]⟩) := by
  unfold Memory.holds; decide

theorem witness_CpDecodeHeaders :
    ∀ h ∈ [packet 3#32 0#32 0#16, packet 0#32 0#32 1#16, packet 0x00004000#32 0#32 0#16],
      (received (packetBytes h h.checksum) 0#32).rx.holds 0 (packetBytes h h.checksum) :=
  fun _ _ => received_holds _ _

theorem witness_FragmentReassembly :
    has Config.params hG6.flags .blobFragments = true ∧ noOptions Config.params hG6.flags
    ∧ flagsValid Config.params hG6.flags = true
    ∧ (∀ p ∈ [(fG6, ([0x41, 0x42, 0x43, 0x44] : List Byte))], p.1.size.toNat = 16 + p.2.length)
    ∧ hG6.size.toNat = ([(fG6, ([0x41, 0x42, 0x43, 0x44] : List Byte))].map
      (fun p => p.1.size.toNat)).sum
    ∧ 20 + hG6.size.toNat ≤ (received bG6 0#32).rxlen.toNat
    ∧ (received bG6 0#32).rx.holds 0 (packetBytes hG6 hG6.checksum
      ++ [(fG6, ([0x41, 0x42, 0x43, 0x44] : List Byte))].flatMap
        (fun p => fragmentBytes p.1 ++ p.2)) := by
  unfold noOptions Memory.holds; decide

theorem witness_CpFragSelectLoadsTheFragment :
    State.reset.cpValid = false
    ∧ ((heldG6 0).cpValid = true
      ∧ { heldG6 0 with arg0 := 1#32 }.cpNfrag ≤ { heldG6 0 with arg0 := 1#32 }.arg0.toNat)
    ∧ (heldG6 4).frags[(heldG6 4).arg0.toNat]? = some ⟨0, fG6, 4⟩ := by decide

theorem witness_CpFragReadMovesTheCursor :
    (countLegal 1#3 ∧ countLegal 4#3) ∧ State.reset.cpValid = false
    ∧ { heldG6 0 with cpFsel := 1#32 }.cpNfrag ≤ { heldG6 0 with cpFsel := 1#32 }.cpFsel.toNat
    ∧ ((heldG6 4).frags[(heldG6 4).cpFsel.toNat]? = some ⟨0, fG6, 4⟩
      ∧ fG6.size.toNat - 16 - 4 < (1#3 : BitVec 3).toNat)
    ∧ ((heldG6 0).frags[(heldG6 0).cpFsel.toNat]? = some ⟨0, fG6, 0⟩
      ∧ (4#3 : BitVec 3).toNat ≤ fG6.size.toNat - 16 - 0
      ∧ ∀ j, j < (4#3 : BitVec 3).toNat → (heldG6 0).cpd.read (0 + 16 + 0 + j)
        = some ([0x41, 0x42, 0x43, 0x44][j]?.getD 0)) := by decide

theorem witness_CpChecksumFollowsTheFormula :
    State.reset.cpValid = false
    ∧ ∀ flags ∈ [0#32, 2#32], (heldABCD flags 0#32).cpValid = true
      ∧ ([0x41, 0x42, 0x43, 0x44] : List Byte).length = (heldABCD flags 0#32).cpHdr.size.toNat
      ∧ (heldABCD flags 0#32).cpd.holds 0 [0x41, 0x42, 0x43, 0x44] :=
  ⟨rfl, fun _ _ => ⟨rfl, rfl, holds_written 0 _⟩⟩

/-- The checksum of the ABCD packet, whatever the hash is. -/
def sumABCD : Word := checksumFormula (packet 0#32 0#32 4#16) [0x41, 0x42, 0x43, 0x44] 0 [] 0#32

/-- Both outcomes of the comparison are there. -/
theorem witness_CpVerifyComparesTheChecksum :
    State.reset.cpValid = false
    ∧ ∀ c ∈ [sumABCD, sumABCD + 1#32], (heldABCD 0#32 c).cpValid = true
      ∧ ([0x41, 0x42, 0x43, 0x44] : List Byte).length = (heldABCD 0#32 c).cpHdr.size.toNat
      ∧ (heldABCD 0#32 c).cpd.holds 0 [0x41, 0x42, 0x43, 0x44] :=
  ⟨rfl, fun _ _ => ⟨rfl, rfl, holds_written 0 _⟩⟩

theorem witness_SpNewStartsAPacket :
    flagsValid Config.params { State.reset with arg1 := 3#32 }.arg1 = false
    ∧ flagsValid Config.params { State.reset with arg1 := 2#32 }.arg1 = true := by decide

theorem witness_SpAppendAddsPayload :
    (countLegal 1#3 ∧ countLegal 4#3) ∧ State.reset.spState ≠ .filling
    ∧ ({ filling 0#32 1#16 [] with spWp := 445#32 }.spState = .filling
      ∧ 448 < { filling 0#32 1#16 [] with spWp := 445#32 }.spWp.toNat + (4#3 : BitVec 3).toNat)
    ∧ { filling 0#32 1#16 [] with spWp := 444#32 }.spWp.toNat + (4#3 : BitVec 3).toNat ≤ 448 := by
  decide

theorem witness_SpFinalizeWritesTheHeader :
    State.reset.spState ≠ .filling
    ∧ ((filling 4#32 0#16 [1]).spState = .filling
      ∧ ([1] : List Byte).length = (filling 4#32 0#16 [1]).spWp.toNat
      ∧ (filling 4#32 0#16 [1]).tx.holds 20 [1]
      ∧ regionParse Config.params (filling 4#32 0#16 [1]).spHdr.flags [1]
        = .error (.err .truncatedInput))
    ∧ (([] : List Byte).length = (filling 2#32 1#16 []).spWp.toNat
      ∧ (filling 2#32 1#16 []).tx.holds 20 []
      ∧ regionParse Config.params (filling 2#32 1#16 []).spHdr.flags [] = .ok ⟨0, []⟩) := by
  unfold Memory.holds; decide

theorem witness_SfAppendAddsPayload :
    (countLegal 1#3 ∧ countLegal 4#3) ∧ State.reset.sfState ≠ .filling
    ∧ ({ State.reset with sfState := .filling, sfWp := 445#32 }.sfState = .filling
      ∧ 448 < { State.reset with sfWp := 445#32 }.sfWp.toNat + (4#3 : BitVec 3).toNat)
    ∧ { State.reset with sfState := .filling, sfWp := 444#32 }.sfWp.toNat + (4#3 : BitVec 3).toNat
      ≤ 448 := by decide

/-- Both builders open, with payload cursors given and a payload in SFB. -/
def emitting (spWp : Word) (payload : List Byte) : State :=
  { State.reset with
    spState := .filling, sfState := .filling, spWp := spWp
    sfWp := BitVec.ofNat 32 payload.length, sfb := Memory.writeList [] 0 payload }

theorem witness_SfEmitAppendsTheFragment :
    (State.reset.sfState ≠ .filling ∨ State.reset.spState ≠ .filling)
    ∧ ((emitting 431#32 [1, 2]).sfState = .filling ∧ (emitting 431#32 [1, 2]).spState = .filling
      ∧ 448 < (emitting 431#32 [1, 2]).spWp.toNat + (16 + (emitting 431#32 [1, 2]).sfWp.toNat))
    ∧ ((emitting 430#32 [1, 2]).spWp.toNat + (16 + (emitting 430#32 [1, 2]).sfWp.toNat) ≤ 448
      ∧ ([1, 2] : List Byte).length = (emitting 430#32 [1, 2]).sfWp.toNat
      ∧ (emitting 430#32 [1, 2]).sfb.holds 0 [1, 2]) := by
  unfold Memory.holds; decide

/-- A freshly reset engine, or one with a new server packet, meets the invariant. -/
theorem filling_inv : (filling 0#32 1#16 []).Inv Config.params where
  r56 := ⟨by decide, by decide, by decide, by decide, by decide, by decide, by decide, by decide⟩
  wf sp := by cases sp <;> exact List.Pairwise.nil
  inside sp := by cases sp <;> exact fun c hc => absurd hc (List.not_mem_nil)
  txLen_zero _ := rfl
  sp_empty _ := rfl
  sf_empty _ := rfl
  sp_flags _ := by decide
  tiled h := by cases h
  plain h := by cases h
  fsel := .inl rfl
  cpd_defined h := by cases h
  tx_defined _ x h1 h2 := absurd (Nat.lt_of_le_of_lt h1 h2) (by decide)
  sfb_defined x _ h := absurd h (Nat.not_lt_zero x)
  errseen_bits := rfl
  err_noted e h := by cases h

theorem witness_ReceiverAgreesWithSender : ∃ s t u : State, s.Inv Config.params
    ∧ exec .spFinalize s = .next t ∧ t.err = none ∧ u.rxlen = t.txLen
    ∧ (∀ x, x < t.txLen.toNat → (t.tx.read x).isSome = true ∧ u.rx.read x = t.tx.read x)
    ∧ has Config.params t.spHdr.flags .encryptedChecksum = false := by
  refine ⟨filling 0#32 1#16 [], _,
    { State.reset with
      rx := (thenState (exec .spFinalize (filling 0#32 1#16 [])) State.reset).tx, rxlen := 20#32 },
    filling_inv, goes_on (by decide) State.reset, by decide, by decide, fun x hx => ⟨?_, rfl⟩, by decide⟩
  revert x
  decide

theorem witness_FlagCheckIsTheConjunction :
    flagsValid Config.params { State.reset with arg1 := 3#32 }.arg1 = false
    ∧ (20 ≤ (received (packetBytes (packet 3#32 0#32 0#16) 0#32) 0#32).rxlen.toNat
      ∧ flagsValid Config.params (packet 3#32 0#32 0#16).flags = false)
    ∧ seen (exec .spNew { State.reset with arg1 := 3#32 }) (fun t => t.err)
      = some (some .invalidFlagCombination) := by decide

theorem witness_ErrorsComeFromTheirCommands :
    Instr.spFinalize.WellFormed
    ∧ seen (exec .spFinalize State.reset) (fun t => t.err) = some (some .stateError)
    ∧ { State.reset with host := [commandWrite 0x00000006#32] }.host
      = [.write .regs 0x00 .word 0x00000006#32] ∧ illegalWord 0x00000006#32 :=
  ⟨rfl, by decide, rfl, by simp [illegalWord]⟩

theorem witness_FailingCommandCommitsNothing :
    seen (exec .nop State.reset) (fun t => t.err) = some none
    ∧ seen (exec .spFinalize State.reset) (fun t => t.err) = some (some .stateError)
    ∧ seen (exec .cpDecode State.reset) (fun t => t.err) = some (some .truncatedInput)
    ∧ seen (exec .cpVerify State.reset) (fun t => t.err) = some (some .stateError) := by decide

/-- A mismatch that keeps RES, whatever the hash is. -/
theorem witness_ChecksumMismatch :
    seen (exec .cpVerify (heldABCD 0#32 (sumABCD + 1#32))) (fun t => t.err)
      = some (some .checksumMismatch) := by
  have hc := clientChecksum_of_holds (s := heldABCD 0#32 (sumABCD + 1#32)) rfl rfl
    (holds_written 0 [0x41, 0x42, 0x43, 0x44])
  have hm : maskIn (heldABCD 0#32 (sumABCD + 1#32)) .client (packet 0#32 (sumABCD + 1#32) 4#16)
      = 0#32 := if_neg (by decide)
  have he : checksumFormula (packet 0#32 (sumABCD + 1#32) 4#16) [0x41, 0x42, 0x43, 0x44] 0 [] 0#32
      = sumABCD := rfl
  have hn : sumABCD ≠ sumABCD + 1#32 := by
    generalize sumABCD = x
    intro h
    have := congrArg BitVec.toNat h
    simp only [BitVec.toNat_add, BitVec.toNat_ofNat] at this
    omega
  simp only [exec, execCpVerify, runCpVerify, hc]
  simp only [heldABCD, State.fragSpans, State.reset, List.map_nil] at hm ⊢
  rw [hm, show (0#32 : Word).toNat = 0 from rfl, he,
    if_neg (show sumABCD ≠ (packet 0#32 (sumABCD + 1#32) 4#16).checksum from hn)]
  rfl

theorem witness_Invariants : State.reset.R56 Config.params ∧ (filling 0#32 1#16 []).Inv Config.params
    ∧ exec .nop State.reset = .next State.reset ∧ step State.reset = .next State.reset
    ∧ step (filling 0#32 1#16 []) = .next (filling 0#32 1#16 []) :=
  ⟨⟨by decide, by decide, by decide, by decide, by decide, by decide, by decide, by decide⟩,
    filling_inv, rfl, rfl, rfl⟩

/-- The state a fault needs: bytes below RXLEN that were never written. -/
theorem witness_UnwrittenRxByteIsAFault :
    (∀ j ∈ [0, 19], { State.reset with rxlen := 20#32 }.arg0.toNat + 20
        ≤ { State.reset with rxlen := 20#32 }.rxlen.toNat ∧ j < 20
      ∧ { State.reset with rxlen := 20#32 }.rx.read j = none)
    ∧ (∀ j ∈ [0, 15], { State.reset with rxlen := 16#32 }.arg0.toNat + 16
        ≤ { State.reset with rxlen := 16#32 }.rxlen.toNat ∧ j < 16)
    ∧ ((received (packetBytes (packet 0#32 0#32 1#16) 0#32) 0#32).rx.holds 0
        (packetBytes (packet 0#32 0#32 1#16) 0#32)
      ∧ flagsValid Config.params (packet 0#32 0#32 1#16).flags = true
      ∧ 20 + (packet 0#32 0#32 1#16).size.toNat
        ≤ { received (packetBytes (packet 0#32 0#32 1#16) 0#32) 0#32 with rxlen := 21#32 }.rxlen.toNat
      ∧ (received (packetBytes (packet 0#32 0#32 1#16) 0#32) 0#32).rx.read 20 = none) := by
  unfold Memory.holds; decide

/-- OPT_DECODE over a count prefix, and over opaque bytes after one, that were never written. -/
theorem witness_OptDecodeUnwritten :
    (({ optState with rx := [], rxlen := 24#32 } : State).optCounts 20 0#32 0#32
      ∧ ({ optState with rx := [], rxlen := 24#32 } : State).optEnd 0#32 0#32 2 ≤ 24
      ∧ 20 < ({ optState with rx := [], rxlen := 24#32 } : State).optEnd 0#32 0#32 2)
    ∧ (({ optState with rx := optState.rx.take 25 } : State).optCounts 25 2#32 0#32
      ∧ optState.optEnd 2#32 0#32 3 ≤ optState.rxlen.toNat ∧ 25 < optState.optEnd 2#32 0#32 3
      ∧ Memory.read (optState.rx.take 25) 24 = some 0xaa ∧ Memory.read (optState.rx.take 25) 25 = none)
    := by
  unfold State.optCounts Memory.holds; decide

theorem witness_CommandsStopOnlyAtUnwrittenRx :
    (filling 0#32 1#16 []).Inv Config.params
    ∧ exec .hdrLoad { State.reset with rxlen := 20#32 } = .fault (.noValue .rx 0) :=
  ⟨filling_inv, rfl⟩

theorem witness_OnlyThreeCommandsWriteFlags :
    seen (exec .spNew { State.reset with arg1 := 4#32 }) (fun t => (t.err, t.spHdr.flags))
      = some (none, 4#32)
    ∧ seen (exec (.spAppend 1#3) State.reset) (fun t => t.spHdr.flags) = some 0#32 := by
  decide

theorem witness_CursorsOnlyMoveForward :
    Instr.cpFragRead 1#3 ≠ .cpDecode
    ∧ seen (exec (.cpFragRead 1#3) (heldG6 0)) (fun t => t.frags) = some [⟨0, fG6, 1⟩]
    ∧ (heldG6 0).frags[0]? = some ⟨0, fG6, 0⟩ := by decide

theorem witness_DecodedPacketIsACopy :
    Instr.cpFragSelect ≠ .hdrLoad ∧ Instr.cpFragSelect ≠ .fhdrLoad ∧ Instr.cpFragSelect ≠ .optDecode
    ∧ Instr.cpFragSelect ≠ .cpDecode
    ∧ seen (exec .cpFragSelect (heldG6 0)) (fun t => t.res) = some 4#32 := by decide

theorem witness_KeystreamQueriedOnlyWhenEncrypted :
    seen (exec .cpChecksum (heldABCD 2#32 0#32)) (fun t => t.ksDraws) = some 1
    ∧ seen (exec .spFinalize (filling 2#32 1#16 [])) (fun t => t.ksDraws) = some 1
    ∧ (heldABCD 2#32 0#32).ksDraws = 0 ∧ (filling 2#32 1#16 []).ksDraws = 0 := by decide

theorem witness_ErrseenIsSticky :
    (step State.reset = .next State.reset ∧ State.reset.host.head? ≠ some .reset)
    ∧ seen (exec .spFinalize State.reset) (fun t => t.err) = some (some .stateError)
    ∧ { State.reset with host := [.write .regs 0x08 .word 0x2#32] }.host
      = [.write .regs 0x08 .word 0x2#32]
    ∧ State.reset.errseen &&& 0xFFFFFE01#32 = 0#32 := ⟨⟨rfl, by decide⟩, by decide, rfl, rfl⟩

theorem witness_RegisterReadsBackWhatWasWritten :
    ∀ r ∈ [Reg.arg0, .hdr .id, .spHdr .table, .fh .seq, .sf .group], (∃ mask, r.storesMask = some mask)
      ∧ { State.reset with
        host := [.write .regs r.offset .word 0x12345678#32, .read .regs r.offset .word] }.host
        = [.write .regs r.offset .word 0x12345678#32, .read .regs r.offset .word] := by
  intro r hr
  simp only [List.mem_cons, List.not_mem_nil, or_false] at hr
  rcases hr with rfl | rfl | rfl | rfl | rfl <;> exact ⟨⟨_, rfl⟩, rfl⟩

theorem witness_RxlenIsClamped :
    (∀ v ∈ [65555#32, 65556#32, 0xFFFFFFFF#32],
      { State.reset with host := [.write .regs 0x18 .word v] }.host = [.write .regs 0x18 .word v])
    ∧ exec .nop State.reset = .next State.reset := ⟨fun _ _ => rfl, rfl⟩

theorem witness_ReadOnlyAndReservedIgnoreWrites :
    (Reg.status.readOnly ∧ (Reg.cpHdr .flags).readOnly ∧ (Reg.spHdr .size).readOnly
      ∧ (Reg.sf .size).readOnly)
    ∧ { State.reset with host := [.write .regs 0x34 .word 1#32] }.host = [.write .regs 0x34 .word 1#32]
    ∧ 0x34 ∈ reservedOffsets ∧ 0xFC ∈ reservedOffsets
    ∧ (0x20, 1#32) ∈ (heldG6 0).registerValues ∧ (0x74, 20#32) ∈ (heldG6 0).registerValues
    ∧ (0x84, 4#32) ∈ (filling 4#32 1#16 []).registerValues
    ∧ (0xCC, 0#32) ∈ State.reset.registerValues
    ∧ { heldG6 0 with host := [.read .regs 0x20 .word] }.host = [.read .regs 0x20 .word] :=
  ⟨⟨trivial, trivial, trivial, trivial⟩, rfl, by decide, by decide, by decide, by decide, by decide,
    by decide, rfl⟩

theorem witness_HostReads :
    { State.reset with host := [.read .regs 0x04 .word] }.host = [.read .regs 0x04 .word]
    ∧ seen (step { State.reset with host := [.read .regs 0x04 .word] }) (fun t => t.observed)
      = some (some (.word 0#32)) := by decide

theorem witness_RxReadsReturnTheLastWrite :
    65554 < Config.params.rxCap ∧ { State.reset with
      host := [.write .rx 65554 .byte 0x1FF#32, .read .rx 65554 .byte] }.host
      = [.write .rx 65554 .byte 0x1FF#32, .read .rx 65554 .byte] := by decide

theorem witness_OtherHostAccessesAreRefused :
    (¬(AccessWidth.word = .word ∧ 2 % 4 = 0) ∧ ¬(AccessWidth.half = .word ∧ 0 % 4 = 0))
    ∧ AccessWidth.word ≠ .byte
    ∧ { State.reset with host := [.read .regs 2 .word] }.host = [.read .regs 2 .word]
    ∧ { State.reset with host := [.write .tx 0 .byte 1#32] }.host = [.write .tx 0 .byte 1#32]
    ∧ { State.reset with host := [.read .cpd 0 .byte] }.host = [.read .cpd 0 .byte] := by decide

theorem witness_HostReadsOfUndefinedBytesFault :
    (20 + (filling 0#32 1#16 [7]).spWp.toNat ≤ 21 ∧ (filling 0#32 1#16 [7]).tx.read 0 = none
      ∧ 20 < 20 + (filling 0#32 1#16 [7]).spWp.toNat ∧ (filling 0#32 1#16 [7]).tx.read 20 = some 7)
    ∧ (State.reset.obuf.read 19 = none ∧ Memory.read [(19, 7)] 19 = some 7)
    ∧ (65554 < Config.params.rxCap ∧ State.reset.rx.read 65554 = none)
    ∧ { filling 0#32 1#16 [7] with host := [.read .tx 20 .byte] }.host = [.read .tx 20 .byte] := by
  decide

theorem witness_ResetClearsTheEngine :
    { heldG6 0 with host := [.reset] }.host = [.reset] := rfl

theorem witness_FrameOfNonStoringCommands :
    (seen (exec .nop State.reset) (fun _ => true) = some true
      ∧ seen (exec .hdrLoad (received bPH1 0#32)) (fun _ => true) = some true
      ∧ seen (exec .fhdrLoad (received bFH1 0#32)) (fun _ => true) = some true
      ∧ seen (exec .hdrHash State.reset) (fun _ => true) = some true
      ∧ seen (exec .optDecode optState) (fun _ => true) = some true)
    ∧ (seen (exec .cpFragSelect (heldG6 0)) (fun _ => true) = some true
      ∧ seen (exec (.cpFragRead 4#3) (heldG6 0)) (fun _ => true) = some true
      ∧ seen (exec .cpChecksum (heldABCD 0#32 0#32)) (fun _ => true) = some true
      ∧ seen (exec .spNew State.reset) (fun _ => true) = some true) := by decide

theorem witness_FrameOfBufferStores :
    seen (exec .hdrStore State.reset) (fun _ => true) = some true
    ∧ seen (exec .fhdrStore State.reset) (fun _ => true) = some true
    ∧ seen (exec .cpDecode (received bG6 0#32)) (fun t => t.err) = some none
    ∧ seen (exec (.sfNew true) State.reset) (fun _ => true) = some true
    ∧ seen (exec (.sfAppend 4#3) (emitting 0#32 [1, 2])) (fun t => t.err) = some none := by decide

theorem witness_FrameOfTransmitStores :
    seen (exec (.spAppend 4#3) (filling 0#32 1#16 [])) (fun t => t.err) = some none
    ∧ seen (exec .sfEmit (emitting 0#32 [1, 2])) (fun t => t.err) = some none
    ∧ seen (exec .spFinalize (filling 0#32 1#16 [])) (fun t => t.err) = some none := by decide

end Sys2Proof.Tests
end

/-! ## The state family (10_state.md)

The proofs of the statements about registers, the host interface and the invariants. What a command can do
to the state is said once (`State.Commits`, `exec_next`), what a step can do once (`step_next`); the
statements follow case by case. -/

namespace Sys2Proof.Machine

open Sys2Proof

/-! ### What a command can commit -/

/-- The writes a command can make before it ends with its code: `s.Commits P i u` says that command `i`,
run in `s`, may end as `u` with STATUS.ERR and ERRSEEN still to be set (40_control.md R110). The guards are
those the invariants rest on. -/
inductive State.Commits (P : Config.Params) (s : State) : Instr → State → Prop
  /-- NOP, and any command an error of which keeps no write (60_exceptions.md R205). -/
  | nothing (i : Instr) : s.Commits P i s
  | hdrLoad (k : PacketHeader) : s.Commits P .hdrLoad { s with hdr := k }
  | fhdrLoad (k : FragmentHeader) : s.Commits P .fhdrLoad { s with fh := k }
  | hdrStore :
    s.Commits P .hdrStore { s with obuf := s.obuf.writeList 0 (packetBytes s.hdr s.hdr.checksum) }
  | fhdrStore : s.Commits P .fhdrStore { s with obuf := s.obuf.writeList 0 (fragmentBytes s.fh) }
  | hdrHash (v : Word) : s.Commits P .hdrHash { s with res := v }
  | optDecode (v : Word) : s.Commits P .optDecode { s with res := v }
  /-- CP_DECODE that raised an error. -/
  | cpClear : s.Commits P .cpDecode s.clearClient
  | cpDecode (k : PacketHeader) (data : List Byte) (r : Region) (length : data.length = k.size.toNat)
    (parsed : regionParse P k.flags data = .ok r) :
    s.Commits P .cpDecode { s with
      cpd := s.cpd.writeList 0 data, cpHdr := k, cpOptlen := BitVec.ofNat 32 r.optLen
      frags := r.entries, cpFsel := 0#32, cpValid := true }
  | cpFragSelect (f : FragEntry) (v : Word) (selected : s.frags[s.arg0.toNat]? = some f) :
    s.Commits P .cpFragSelect { s with fh := f.hdr, cpFsel := s.arg0, res := v }
  | cpFragRead (n : BitVec 3) (f : FragEntry) (v : Word) (selected : s.frags[s.cpFsel.toNat]? = some f)
    (room : n.toNat ≤ f.left) :
    s.Commits P (.cpFragRead n) { s with
      res := v, frags := s.frags.set s.cpFsel.toNat { f with cur := f.cur + n.toNat } }
  | cpChecksum (v : Word) : s.Commits P .cpChecksum { s with res := v, ksDraws := drawsAfter s s.cpHdr }
  | cpVerify (v : Word) : s.Commits P .cpVerify { s with res := v, ksDraws := drawsAfter s s.cpHdr }
  | spNew (valid : flagsValid P s.arg1 = true) :
    s.Commits P .spNew { s with
      spHdr := { PacketHeader.zero with flags := s.arg1, id := s.arg0Half }
      spWp := 0#32, txLen := 0#32, spState := .filling }
  | spAppend (n : BitVec 3) (filling : s.spState = .filling) (room : s.spWp.toNat + n.toNat ≤ 448) :
    s.Commits P (.spAppend n) { s with
      tx := s.tx.writeList (20 + s.spWp.toNat) (wordBytes s.arg1 n.toNat)
      spWp := BitVec.ofNat 32 (s.spWp.toNat + n.toNat) }
  | spFinalize (data : List Byte) (r : Region) (filling : s.spState = .filling) :
    s.Commits P .spFinalize { s with
      ksDraws := drawsAfter s s.sizedHeader
      tx := s.tx.writeList 0 (encodePH (s.finalHeader P data r))
      spHdr := s.finalHeader P data r
      txLen := 20#32 + s.spWp, spState := .final }
  | sfNew (o : Bool) : s.Commits P (.sfNew o) { s with
      sfHdr := { FragmentHeader.zero with group := s.arg0Half }
      sfb := if o then s.sfb.writeList 0 (bytes32 s.arg1) else s.sfb
      sfWp := if o then 4#32 else 0#32
      sfState := .filling }
  | sfAppend (n : BitVec 3) (filling : s.sfState = .filling) (room : s.sfWp.toNat + n.toNat ≤ 448) :
    s.Commits P (.sfAppend n) { s with
      sfb := s.sfb.writeList s.sfWp.toNat (wordBytes s.arg1 n.toNat)
      sfWp := BitVec.ofNat 32 (s.sfWp.toNat + n.toNat) }
  | sfEmit (payload : List Byte) (filling : s.spState = .filling)
    (room : s.spWp.toNat + s.sfTotal ≤ 448) (length : payload.length = s.sfWp.toNat) :
    s.Commits P .sfEmit { s with
      tx := s.tx.writeList (20 + s.spWp.toNat) (encodeFH s.emitted ++ payload)
      spWp := BitVec.ofNat 32 (s.spWp.toNat + s.sfTotal)
      sfHdr := s.emitted, sfState := .empty, sfWp := 0#32 }

/-- Every command that goes on commits some writes and ends with some code (40_control.md R110). -/
theorem exec_next {i : Instr} {s t : State} (h : exec i s = .next t) :
    ∃ u e, s.Commits Config.params i u ∧ t = u.finish e := by
  cases i with
  | nop => exact ⟨s, none, .nothing _, execNop_next h⟩
  | hdrLoad =>
    rcases execHdrLoad_next h with ⟨-, k, -, rfl⟩ | ⟨e, rfl⟩
    · exact ⟨_, none, .hdrLoad k, rfl⟩
    · exact ⟨s, some e, .nothing _, rfl⟩
  | hdrStore => exact ⟨_, none, .hdrStore, execHdrStore_next h⟩
  | hdrHash => exact ⟨_, none, .hdrHash _, execHdrHash_next h⟩
  | fhdrLoad =>
    rcases execFhdrLoad_next h with ⟨-, k, -, rfl⟩ | ⟨e, rfl⟩
    · exact ⟨_, none, .fhdrLoad k, rfl⟩
    · exact ⟨s, some e, .nothing _, rfl⟩
  | fhdrStore => exact ⟨_, none, .fhdrStore, execFhdrStore_next h⟩
  | optDecode =>
    rcases execOptDecode_next h with ⟨n, -, rfl⟩ | ⟨e, rfl⟩
    · exact ⟨_, none, .optDecode _, rfl⟩
    · exact ⟨s, some e, .nothing _, rfl⟩
  | cpDecode =>
    rcases execCpDecode_next h with ⟨k, data, r, -, -, hl, -, hr, rfl⟩ | ⟨e, rfl⟩
    · exact ⟨_, none, .cpDecode k data r hl hr, rfl⟩
    · exact ⟨_, some e, .cpClear, rfl⟩
  | cpFragSelect =>
    rcases execCpFragSelect_next h with ⟨-, f, hf, rfl⟩ | ⟨e, rfl⟩
    · exact ⟨_, none, .cpFragSelect f _ hf, rfl⟩
    · exact ⟨s, some e, .nothing _, rfl⟩
  | cpFragRead n =>
    rcases execCpFragRead_next h with ⟨-, -, f, hf, hn, v, rfl⟩ | ⟨e, rfl⟩
    · exact ⟨_, none, .cpFragRead n f v hf hn, rfl⟩
    · exact ⟨s, some e, .nothing _, rfl⟩
  | cpChecksum =>
    rcases execCpChecksum_next h with ⟨-, v, rfl⟩ | ⟨e, rfl⟩
    · exact ⟨_, none, .cpChecksum v, rfl⟩
    · exact ⟨s, some e, .nothing _, rfl⟩
  | cpVerify =>
    rcases execCpVerify_next h with ⟨-, v, rfl⟩ | ⟨e, -, rfl⟩
    · exact ⟨_, _, .cpVerify v, rfl⟩
    · exact ⟨s, some e, .nothing _, rfl⟩
  | spNew =>
    rcases execSpNew_next h with ⟨hf, rfl⟩ | ⟨e, rfl⟩
    · exact ⟨_, none, .spNew hf, rfl⟩
    · exact ⟨s, some e, .nothing _, rfl⟩
  | spAppend n =>
    rcases execSpAppend_next h with ⟨hs, hb, -, rfl⟩ | ⟨e, rfl⟩
    · exact ⟨_, none, .spAppend n hs hb, rfl⟩
    · exact ⟨s, some e, .nothing _, rfl⟩
  | spFinalize =>
    rcases execSpFinalize_next h with ⟨hs, data, r, -, -, -, rfl⟩ | ⟨e, rfl⟩
    · exact ⟨_, none, .spFinalize data r hs, rfl⟩
    · exact ⟨s, some e, .nothing _, rfl⟩
  | sfNew o => exact ⟨_, none, .sfNew o, execSfNew_next h⟩
  | sfAppend n =>
    rcases execSfAppend_next h with ⟨hs, hb, -, rfl⟩ | ⟨e, rfl⟩
    · exact ⟨_, none, .sfAppend n hs hb, rfl⟩
    · exact ⟨s, some e, .nothing _, rfl⟩
  | sfEmit =>
    rcases execSfEmit_next h with ⟨-, hs, hb, p, hl, -, rfl⟩ | ⟨e, rfl⟩
    · exact ⟨_, none, .sfEmit p hs hb hl, rfl⟩
    · exact ⟨s, some e, .nothing _, rfl⟩

section CommitsFields

variable {P : Config.Params} {s u : State} {i : Instr}

/-- ERRSEEN changes only as a command ends. -/
theorem State.Commits.errseen_eq (h : s.Commits P i u) : u.errseen = s.errseen := by cases h <;> rfl

/-- No command writes RXLEN. -/
theorem State.Commits.rxlen_eq (h : s.Commits P i u) : u.rxlen = s.rxlen := by cases h <;> rfl

/-- Only HDR_LOAD writes HDR. -/
theorem State.Commits.hdr_eq (h : s.Commits P i u) (hi : i ≠ .hdrLoad) : u.hdr = s.hdr := by
  cases h <;> first | rfl | exact absurd rfl hi

/-- Only CP_DECODE writes CP_HDR. -/
theorem State.Commits.cpHdr_eq (h : s.Commits P i u) (hi : i ≠ .cpDecode) : u.cpHdr = s.cpHdr := by
  cases h <;> first | rfl | exact absurd rfl hi

/-- Of SP_HDR's fields only SP_NEW writes FLAGS. -/
theorem State.Commits.spHdr_flags_eq (h : s.Commits P i u) (hi : i ≠ .spNew) :
    u.spHdr.flags = s.spHdr.flags := by
  cases h <;> first | rfl | exact absurd rfl hi

end CommitsFields

/-! ### Command statements -/

/-- Settles O40: what each command commits to the three headers; SP_NEW without an error did construct the
packet. -/
theorem onlyThreeCommandsWriteFlags : Obligations.OnlyThreeCommandsWriteFlags := by
  intro i s t h
  obtain ⟨u, e, hu, rfl⟩ := exec_next h
  refine ⟨fun hi => congrArg PacketHeader.flags (hu.hdr_eq hi),
    fun hi => congrArg PacketHeader.flags (hu.cpHdr_eq hi), hu.spHdr_flags_eq, ?_⟩
  rintro rfl herr
  rcases execSpNew_next h with ⟨-, ht⟩ | ⟨e', ht⟩
  · rw [ht]; rfl
  · rw [ht] at herr; cases herr

/-- A checksum command makes no query, or exactly one for an encrypted packet (46_checksum.md R191). -/
theorem drawsAfter_ne {s : State} {h : PacketHeader} (hd : drawsAfter s h ≠ s.ksDraws) :
    drawsAfter s h = s.ksDraws + 1 ∧ has Config.params h.flags .encryptedChecksum = true := by
  unfold drawsAfter at *
  split_ifs at * with he
  · exact ⟨rfl, he⟩
  · exact absurd rfl hd

/-- Settles O43: only the three checksum commands touch the count, each as `drawsAfter` says of its header. -/
theorem keystreamQueriedOnlyWhenEncrypted : Obligations.KeystreamQueriedOnlyWhenEncrypted := by
  intro i s t h hne
  obtain ⟨u, e, hu, rfl⟩ := exec_next h
  rw [finish_ksDraws] at hne ⊢
  cases hu with
  | cpChecksum v =>
    obtain ⟨h1, he⟩ := drawsAfter_ne hne
    exact ⟨h1, .inl ⟨.inl rfl, he⟩⟩
  | cpVerify v =>
    obtain ⟨h1, he⟩ := drawsAfter_ne hne
    exact ⟨h1, .inl ⟨.inr rfl, he⟩⟩
  | spFinalize data r hs =>
    obtain ⟨h1, he⟩ := drawsAfter_ne (h := s.sizedHeader) hne
    exact ⟨h1, .inr ⟨rfl, he⟩⟩
  | _ => exact absurd rfl hne

end Sys2Proof.Machine

namespace Sys2Proof.Machine

open Sys2Proof

/-! ### The listed invariants (10_state.md R56) -/

/-- A number a cursor or a length can take is held whole by its register. -/
theorem toNat_ofNat_of_le {n : Nat} (h : n ≤ 65535) : (BitVec.ofNat 32 n).toNat = n := by
  rw [BitVec.toNat_ofNat]; omega

/-- A new fragment holds its opcode or nothing (44_fragment_codec.md R156). -/
theorem newCursor_le (o : Bool) : (if o then 4#32 else 0#32 : Word).toNat ≤ 4 := by
  cases o <;> decide

/-- A fragment put in the place of one with the same header changes no size. -/
theorem fragSum_set {fs : List FragEntry} {k : Nat} {f g : FragEntry} (hf : fs[k]? = some f)
    (hg : g.hdr = f.hdr) : fragSum (fs.set k g) = fragSum fs := by
  induction fs generalizing k with
  | nil => rfl
  | cons a fs ih =>
    cases k with
    | zero =>
      obtain rfl : a = f := by simpa using hf
      simp [fragSum, hg]
    | succ k =>
      have := ih (k := k) (by simpa using hf)
      simpa [fragSum] using this

/-- A fresh table takes as many bytes as its region's fragments. -/
theorem fragSum_entries (r : Region) :
    fragSum r.entries = (r.frags.map (fun f => f.2.size.toNat)).sum := by
  rw [fragSum, Region.entries, List.map_map]; rfl

/-- With BlobFragments a parsed region is its optional part and its fragments, to the last byte. -/
theorem regionParse_sum {P : Config.Params} {flags : Word} {data : List Byte} {r : Region}
    (h : regionParse P flags data = .ok r) (hb : has P flags .blobFragments = true) :
    r.optLen + fragSum r.entries = data.length := by
  obtain ⟨-, hle, hfrags, -⟩ := regionParse_ok h
  rw [fragSum_entries]
  exact fragsOf_sum hle (hfrags hb)

/-- The optional part of a packet that fits CPD is held whole by CP_OPTLEN. -/
theorem regionParse_optLen {P : Config.Params} {k : PacketHeader} {data : List Byte} {r : Region}
    (h : regionParse P k.flags data = .ok r) (hl : data.length = k.size.toNat) :
    (BitVec.ofNat 32 r.optLen).toNat = r.optLen ∧ r.optLen ≤ k.size.toNat := by
  obtain ⟨-, hle, -, -⟩ := regionParse_ok h
  have := k.size.isLt
  exact ⟨toNat_ofNat_of_le (by omega), by omega⟩

/-- STATUS.ERR and ERRSEEN do not enter R56. -/
theorem State.R56.finish {P : Config.Params} {s : State} (hs : s.R56 P) (e : Option Err) :
    (s.finish e).R56 P := { hs with }

/-- Nor does OBUF. -/
theorem State.R56.storeObuf {P : Config.Params} {s : State} (hs : s.R56 P) (m : Memory) :
    { s with obuf := m }.R56 P := { hs with }

/-- Without a client packet its three clauses say nothing. -/
theorem State.R56.clearClient {P : Config.Params} {s : State} (hs : s.R56 P) : s.clearClient.R56 P :=
  { hs with invalid_frags := fun _ => rfl, valid_sum := nofun, valid_opt := nofun }

/-- An append to the payload of the packet being filled keeps R56 while it fits. -/
theorem State.R56.appendTx {P : Config.Params} {s : State} (hs : s.R56 P) (m : Memory) {n : Nat}
    (hfill : s.spState = .filling) (hn : s.spWp.toNat + n ≤ 448) :
    { s with tx := m, spWp := BitVec.ofNat 32 (s.spWp.toNat + n) }.R56 P :=
  { hs with
    spWp_le := by rwa [toNat_ofNat_of_le (by omega)]
    final_size := fun h => absurd (hfill.symm.trans h) nofun
    final_txLen := fun h => absurd (hfill.symm.trans h) nofun }

/-- So does closing the fragment being built. -/
theorem State.R56.closeFragment {P : Config.Params} {s : State} (hs : s.R56 P) (k : FragmentHeader) :
    { s with sfHdr := k, sfState := .empty, sfWp := 0#32 }.R56 P :=
  { hs with sfWp_le := Nat.zero_le _ }

/-- What any command commits keeps R56. -/
theorem State.R56.commits {P : Config.Params} {s u : State} {i : Instr} (hs : s.R56 P)
    (h : s.Commits P i u) : u.R56 P := by
  cases h with
  | nothing => exact hs
  | hdrLoad | fhdrLoad | hdrHash | optDecode | cpFragSelect | cpChecksum | cpVerify =>
    exact { hs with }
  | hdrStore | fhdrStore => exact hs.storeObuf _
  | cpClear => exact hs.clearClient
  | cpDecode k data r hl hr =>
    obtain ⟨hopt, hle⟩ := regionParse_optLen hr hl
    exact { hs with
      invalid_frags := nofun
      valid_sum := fun _ hb => by rw [hopt, regionParse_sum hr hb, hl]
      valid_opt := fun _ => by rwa [hopt] }
  | cpFragRead n f v hf hn =>
    exact { hs with
      invalid_frags := fun hv => by
        have := hs.invalid_frags hv
        rwa [State.cpNfrag, List.length_set]
      valid_sum := fun hv hb =>
        (congrArg (s.cpOptlen.toNat + ·)
          (fragSum_set (g := { f with cur := f.cur + n.toNat }) hf rfl)).trans (hs.valid_sum hv hb) }
  | spNew => exact { hs with spWp_le := Nat.zero_le _, final_size := nofun, final_txLen := nofun }
  | spAppend n hfill hn => exact hs.appendTx _ hfill hn
  | spFinalize data r =>
    have hle := hs.spWp_le
    -- What TX holds does not enter R56; unnamed, its 20 writes are never unfolded.
    generalize s.tx.writeList 0 _ = m
    exact { hs with
      final_size := fun _ => by
        show (s.spWp.setWidth 16).toNat = s.spWp.toNat
        rw [BitVec.toNat_setWidth]; omega
      final_txLen := fun _ => by
        show (20#32 + s.spWp).toNat = 20 + s.spWp.toNat
        rw [BitVec.toNat_add, BitVec.toNat_ofNat]; omega }
  | sfNew o => exact { hs with sfWp_le := (newCursor_le o).trans (by decide) }
  | sfAppend n _ hn => exact { hs with sfWp_le := by rwa [toNat_ofNat_of_le (by omega)] }
  | sfEmit payload hfill hn _ => exact (hs.appendTx _ hfill hn).closeFragment _

/-- Settles O35: a command commits writes that keep R56 and then sets its code. -/
theorem everyCommandKeepsR56 : Obligations.EveryCommandKeepsR56 := by
  intro i s t hs h
  obtain ⟨u, e, hu, rfl⟩ := exec_next h
  exact (hs.commits hu).finish e

end Sys2Proof.Machine

namespace Sys2Proof.Machine

open Sys2Proof

/-! ### What a step can do -/

/-- RXLEN holds `min(v, RX_CAP)` whole (10_state.md R27). -/
theorem toNat_clampRxlen (v : Word) :
    (clampRxlen Config.params v).toNat = min v.toNat Config.params.rxCap := by
  have hcap : Config.params.rxCap = 65555 := rfl
  rw [clampRxlen, hcap, BitVec.toNat_ofNat]
  omega

/-- A read that goes on changes nothing but what the host has seen (20_memory.md R60). -/
theorem hostRead_next {P : Config.Params} {sp : Space} {a : Nat} {w : AccessWidth} {s t : State}
    (h : hostRead P sp a w s = .next t) : ∃ o, t = { s with observed := o } := by
  unfold hostRead at h
  split at h
  · split_ifs at h
    split at h <;> exact ⟨_, (Host.Outcome.next.inj h).symm⟩
  · cases h
  · cases h
  all_goals
    split_ifs at h
    split at h
    · exact ⟨_, (Host.Outcome.next.inj h).symm⟩
    · cases h

/-- A write that goes on is ignored, sets a register, or sets a byte of RX. -/
theorem hostWrite_next {P : Config.Params} {sp : Space} {a : Nat} {w : AccessWidth} {v : Word}
    {s t : State} (h : hostWrite P sp a w v s = .next t) :
    t = s ∨ (∃ r, t = s.writeReg P v r) ∨
      a < P.rxCap ∧ t = { s with rx := s.rx.write a (v.setWidth 8) } := by
  unfold hostWrite at h
  split at h
  · split_ifs at h
    split at h
    · exact .inr (.inl ⟨_, (Host.Outcome.next.inj h).symm⟩)
    · exact .inl (Host.Outcome.next.inj h).symm
  · cases h
  · cases h
  · cases h
  · cases h
  · split_ifs at h with _ ha
    exact .inr (.inr ⟨ha, (Host.Outcome.next.inj h).symm⟩)

/-- A written word runs its command or ends with IllegalCommand (40_control.md R110): either way it commits
some writes and ends with some code. -/
theorem runCommand_next {w : Word} {s t : State} (h : runCommand w s = .next t) :
    ∃ i u e, s.Commits Config.params i u ∧ t = u.finish e := by
  unfold runCommand at h
  split at h
  · exact ⟨_, exec_next h⟩
  · exact ⟨.nop, s, _, .nothing _, (Host.Outcome.next.inj h).symm⟩

/-- What one action of the host can do to the state it is taken in. -/
inductive HostAction.Does (P : Config.Params) (act : HostAction) (s : State) : State → Prop
  /-- A read, in every field but the one that holds what was read; or an ignored write. -/
  | observe (o : Option HostValue) : act.Does P s { s with observed := o }
  | setReg (r : Reg) (v : Word) : act.Does P s (s.writeReg P v r)
  | setRx (a : Nat) (b : Byte) (inside : a < P.rxCap) : act.Does P s { s with rx := s.rx.write a b }
  | command (i : Instr) (u : State) (e : Option Err) (commits : s.Commits P i u) :
    act.Does P s (u.finish e)
  | reset (asserted : act = .reset) : act.Does P s s.resetEngine

/-- An action that goes on does one of these. -/
theorem hostAct_next {act : HostAction} {s t : State} (h : hostAct act s = .next t) :
    act.Does Config.params s t := by
  cases act with
  | read sp a w =>
    obtain ⟨o, rfl⟩ := hostRead_next h
    exact .observe o
  | write sp a w v =>
    unfold hostAct at h
    dsimp only at h
    split_ifs at h
    · obtain ⟨i, u, e, hu, rfl⟩ := runCommand_next h
      exact .command i u e hu
    · rcases hostWrite_next h with rfl | ⟨r, rfl⟩ | ⟨ha, rfl⟩
      · exact .observe t.observed
      · exact .setReg r v
      · exact .setRx a _ ha
  | reset =>
    obtain rfl := Host.Outcome.next.inj h
    exact .reset rfl

/-- A step takes the host's next action, or holds the state when there is none. -/
theorem step_next {s t : State} (h : step s = .next t) :
    t = s ∨ ∃ act rest, s.host = act :: rest ∧
      act.Does Config.params { s with host := rest } t := by
  unfold step takeAction at h
  split at h
  · exact .inl (Host.Outcome.next.inj h).symm
  · next act rest hs => exact .inr ⟨act, rest, hs, hostAct_next h⟩

/-! ### Commands and STATUS -/

/-- The host's write of a command word runs it at once. -/
theorem step_commandWrite {s : State} {rest : List HostAction} {w : Word}
    (h : s.host = commandWrite w :: rest) : step s = runCommand w { s with host := rest } := by
  have hc : startsCommand .regs Reg.cmd.offset .word := ⟨rfl, rfl, rfl⟩
  simp only [step, takeAction, h, commandWrite, hostAct, if_pos hc]

/-- A legal word runs its command. -/
theorem runCommand_ok {w : Word} {i : Instr} {s : State} (h : decode w = .ok i) :
    runCommand w s = exec i s := by
  rw [runCommand, h]

/-- Any other word ends with IllegalCommand (30_encoding.md R92). -/
theorem runCommand_error {w : Word} {e : DecodeError} {s : State} (h : decode w = .error e) :
    runCommand w s = .next (s.failed .illegalCommand) := by
  rw [runCommand, h]; rfl

/-- Settles O4: the step is `runCommand` of the word written; CMD is the register that reads 0. -/
theorem cmdWriteRunsTheCommand : Obligations.CmdWriteRunsTheCommand := by
  intro s rest
  refine ⟨fun w i hs hd => ?_, fun w e hs hd => ?_, fun hs => step_readReg (r := .cmd) hs⟩
  · rw [step_commandWrite hs, runCommand_ok hd]
  · rw [step_commandWrite hs, runCommand_error hd]

/-- Settles O5: placing the word puts its write to CMD first, and taking it gives the state back. -/
theorem placedWordRunsNext : Obligations.PlacedWordRunsNext := by
  intro s nbits w i hd
  have hdec : decode (tableWord nbits w) = .ok i := by
    unfold decodeTableWord at hd
    split at hd
    · next j hj => rw [hj, Option.some.inj hd]
    · cases hd
  have hhost : (s.withFetchWord nbits w).host = commandWrite (tableWord nbits w) :: s.host := rfl
  rw [step_commandWrite hhost, runCommand_ok hdec]
  rfl

/-- Bits appended below, as a number. -/
theorem toNat_append_add {n m : Nat} (x : BitVec n) (y : BitVec m) :
    (x ++ y).toNat = x.toNat * 2 ^ m + y.toNat := by
  rw [BitVec.toNat_append, ← Nat.shiftLeft_add_eq_or_of_lt y.isLt, Nat.shiftLeft_eq]

/-- STATUS as a number: each field at its place (10_state.md R25). -/
theorem statusWord_toNat (s : State) : s.statusWord.toNat =
    s.sfState.bits.toNat * 2048 + s.spState.bits.toNat * 512 + s.cpValid.toNat * 256
      + (errBits s.err).toNat := by
  unfold State.statusWord
  rw [toNat_append_add, toNat_append_add, toNat_append_add, toNat_append_add, BitVec.toNat_ofBool,
    BitVec.toNat_ofNat]
  omega

theorem errBits_toNat (e : Option Err) :
    (errBits e).toNat = (match e with | none => 0 | some e => e.code) := by
  rcases e with _ | e
  · rfl
  · cases e <;> rfl

theorem spBits_toNat (p : SpState) :
    p.bits.toNat = (match p with | .empty => 0 | .filling => 1 | .final => 2) := by cases p <;> rfl

theorem sfBits_toNat (p : SfState) :
    p.bits.toNat = (match p with | .empty => 0 | .filling => 1) := by cases p <;> rfl

/-- Settles O48: each field is cut out of STATUS as a number. -/
theorem statusFieldsAreAsLaidOut : Obligations.StatusFieldsAreAsLaidOut := by
  intro s rest hs
  have hw := statusWord_toNat s
  have hsf := s.sfState.bits.isLt
  have hsp := s.spState.bits.isLt
  have hcp := s.cpValid.toNat_lt
  have he := (errBits s.err).isLt
  have hcut (a n : Nat) : (s.statusWord.extractLsb' a n).toNat = s.statusWord.toNat / 2 ^ a % 2 ^ n := by
    rw [BitVec.extractLsb'_toNat, Nat.shiftRight_eq_div_pow]
  refine ⟨s.statusWord, step_readReg (r := .status) hs, ?_, ?_, ?_, ?_, ?_⟩
  · refine Eq.trans ?_ (errBits_toNat s.err)
    rw [hcut]; omega
  · rw [BitVec.getLsbD, Nat.testBit_eq_decide_div_mod_eq,
      show s.statusWord.toNat / 2 ^ 8 % 2 = s.cpValid.toNat by omega]
    cases s.cpValid <;> rfl
  · refine Eq.trans ?_ (spBits_toNat s.spState)
    rw [hcut]; omega
  · refine Eq.trans ?_ (sfBits_toNat s.sfState)
    rw [hcut]; omega
  · apply BitVec.eq_of_toNat_eq
    rw [hcut, BitVec.toNat_ofNat]; omega

/-! ### ERRSEEN (10_state.md R26) -/

/-- Noting an error clears no bit. -/
theorem and_noteError (seen : Word) (e : Option Err) : seen &&& noteError seen e = seen := by
  cases e with
  | none => exact BitVec.and_self
  | some e =>
    apply BitVec.eq_of_getLsbD_eq
    intro i _
    rw [noteError_some, BitVec.getLsbD_and, BitVec.getLsbD_or]
    cases seen.getLsbD i <;> rfl

/-- The bit of an error is the one of its code. -/
theorem errorBit_getLsbD (e : Err) : (1#32 <<< e.code).getLsbD e.code = true := by cases e <;> rfl

/-- Every error has its bit in [8:1]. -/
theorem errorBit_and_unused (e : Err) : 1#32 <<< e.code &&& 0xFFFFFE01#32 = 0#32 := by cases e <;> rfl

/-- A noted error is in ERRSEEN. -/
theorem noteError_getLsbD (seen : Word) (e : Err) :
    (noteError seen (some e)).getLsbD e.code = true := by
  rw [noteError_some, BitVec.getLsbD_or, errorBit_getLsbD, Bool.or_true]

/-- Noting an error sets none of the bits that stay 0. -/
theorem noteError_and_unused {seen : Word} (h : seen &&& 0xFFFFFE01#32 = 0#32) (e : Option Err) :
    noteError seen e &&& 0xFFFFFE01#32 = 0#32 := by
  cases e with
  | none => exact h
  | some e => rw [noteError_some, BitVec.and_or_distrib_right, h, errorBit_and_unused, BitVec.or_self]

/-- A host write of a register leaves ERRSEEN. -/
theorem writeReg_errseen (P : Config.Params) (s : State) (v : Word) (r : Reg) :
    (s.writeReg P v r).errseen = s.errseen := by cases r <;> rfl

/-- An action keeps ERRSEEN, notes an error in it, or is the reset. -/
theorem HostAction.Does.errseen_cases {P : Config.Params} {act : HostAction} {s t : State}
    (h : act.Does P s t) :
    (∃ e, t.errseen = noteError s.errseen e) ∨ act = .reset ∧ t.errseen = 0#32 := by
  cases h with
  | observe | setRx => exact .inl ⟨none, rfl⟩
  | setReg r v => exact .inl ⟨none, writeReg_errseen P s v r⟩
  | command i u e hu => exact .inl ⟨e, by rw [finish_errseen, hu.errseen_eq]⟩
  | reset ha => exact .inr ⟨ha, rfl⟩

/-- Settles O44: ERRSEEN changes only by `noteError` and by a reset. -/
theorem errseenIsSticky : Obligations.ErrseenIsSticky := by
  refine ⟨fun s rest hs => step_readReg (r := .errseen) hs, fun s t h hr => ?_,
    fun i s t e h he => ?_, fun s rest v hs => step_writeReg (r := .errseen) nofun hs,
    fun s t hz h => ?_⟩
  · rcases step_next h with rfl | ⟨act, rest, hs, hd⟩
    · exact BitVec.and_self
    · rcases hd.errseen_cases with ⟨e, ht⟩ | ⟨rfl, -⟩
      · rw [ht]; exact and_noteError s.errseen e
      · rw [hs] at hr; exact absurd rfl hr
  · obtain ⟨u, e', -, rfl⟩ := exec_next h
    rw [finish_err] at he
    rw [finish_errseen, he]
    exact noteError_getLsbD u.errseen e
  · rcases step_next h with rfl | ⟨act, rest, -, hd⟩
    · exact hz
    · rcases hd.errseen_cases with ⟨e, ht⟩ | ⟨-, ht⟩
      · rw [ht]; exact noteError_and_unused hz e
      · rw [ht]; rfl

/-! ### Register accesses (10_state.md R27, R28, R40) -/

/-- Settles O46: RXLEN's own write rule, and no command commits a write to it. -/
theorem rxlenIsClamped : Obligations.RxlenIsClamped := by
  refine ⟨fun s rest hs => step_readReg (r := .rxlen) hs, fun s v rest hs => ?_, fun i s t h => ?_⟩
  · refine ⟨clampRxlen Config.params v, ?_, step_writeReg (r := .rxlen) nofun hs⟩
    exact toNat_clampRxlen v
  · obtain ⟨u, e, hu, rfl⟩ := exec_next h
    exact hu.rxlen_eq

/-- A writable register then reads what was written, less the bits it does not have. -/
theorem readReg_writeReg_self {P : Config.Params} {s : State} {r : Reg} {mask v : Word}
    (hm : r.storesMask = some mask) : (s.writeReg P v r).readReg r = v &&& mask := by
  have hword : v = v &&& 0xFFFFFFFF#32 := BitVec.and_allOnes.symm
  have hhalf := half_register v
  cases r with
  | arg0 | arg1 => cases hm; exact hword
  | hdr f | spHdr f => cases f <;> cases hm <;> first | exact hword | exact hhalf
  | fh f | sf f => cases f <;> cases hm <;> first | exact hword | exact hhalf
  | _ => cases hm

/-- A write to a writable register changes the register sets the host may write and nothing else. -/
theorem writeReg_frame {P : Config.Params} {s : State} {r : Reg} {mask v : Word}
    (hm : r.storesMask = some mask) : s.writeReg P v r = { s with
      arg0 := (s.writeReg P v r).arg0, arg1 := (s.writeReg P v r).arg1
      hdr := (s.writeReg P v r).hdr, fh := (s.writeReg P v r).fh
      spHdr := (s.writeReg P v r).spHdr, sfHdr := (s.writeReg P v r).sfHdr } := by
  cases r <;> first | rfl | cases hm

/-- Settles O45: the write is `writeReg`, which shows in its own register only. -/
theorem registerReadsBackWhatWasWritten : Obligations.RegisterReadsBackWhatWasWritten := by
  intro s r mask v rest hm hs
  have hr : r ≠ .cmd := by rintro rfl; cases hm
  have hback := readReg_writeReg_self (P := Config.params) (s := { s with host := rest }) (v := v) hm
  refine ⟨_, step_writeReg hr hs, writeReg_frame hm, fun q hq => ?_, hback, fun more hmore => ?_⟩
  · rw [State.readReg_writeReg_of_ne hm hq]; cases q <;> rfl
  · subst hmore
    rw [step_readReg (r := r) (rest := more), hback]
    rw [writeReg_frame hm]

/-- A write to a read-only register is ignored. -/
theorem writeReg_readOnly {P : Config.Params} {s : State} {r : Reg} {v : Word} (hr : r.readOnly) :
    s.writeReg P v r = s := by
  cases r with
  | arg0 | arg1 | rxlen | hdr | fh => exact hr.elim
  | spHdr f => cases f <;> first | rfl | exact hr.elim
  | sf f => cases f <;> first | rfl | exact hr.elim
  | _ => rfl

/-- The reserved offsets are aligned offsets of the window, hold no register and do not start a command. -/
theorem reservedOffsets_spec : ∀ a ∈ reservedOffsets,
    regAt a = none ∧ a % 4 = 0 ∧ a < 256 ∧ a ≠ 0 := by decide

/-- Settles O47: the register map decides what an offset answers. -/
theorem readOnlyAndReservedIgnoreWrites : Obligations.ReadOnlyAndReservedIgnoreWrites := by
  refine ⟨fun s r v rest hr hs => ?_, fun s rest c hc hs => ?_, fun s rest a ha => ?_⟩
  · have hcmd : r ≠ .cmd := by rintro rfl; exact hr
    rw [step_writeReg hcmd hs, writeReg_readOnly hr]
  · obtain ⟨r, hoff, hval⟩ := State.registerValues_readReg hc
    rw [← hoff] at hs
    rw [step_readReg hs, hval]
  · obtain ⟨hreg, h4, hlt, h0⟩ := reservedOffsets_spec a ha
    have hword : wordAccess a .word := ⟨rfl, h4⟩
    have hin : a < spaceSize Config.params .regs := hlt
    refine ⟨fun v hs => ?_, fun hs => ?_⟩
    · have hcmd : ¬startsCommand .regs a .word := fun h => h0 h.2.1
      simp only [step, takeAction, hs, hostAct, if_neg hcmd, hostWrite, if_pos hword, if_pos hin, hreg]
    · simp only [step, takeAction, hs, hostAct, hostRead, if_pos hword, if_pos hin, hreg]

end Sys2Proof.Machine

namespace Sys2Proof.Machine

open Sys2Proof

/-! ### The whole invariant -/

/-- The fragments a parsed region lists lie back to back, every cursor at 0. -/
theorem fragsTile_of_fragsOf {src : Source} {stop p : Nat} {l : List (Nat × FragmentHeader)}
    (h : fragsOf src stop p l) :
    fragsTile p (l.map (fun f => { off := f.1, hdr := f.2, cur := 0 })) := by
  induction l generalizing p with
  | nil => trivial
  | cons f fs ih =>
    obtain ⟨hoff, -, hd, hrest⟩ := h
    obtain ⟨-, hsize, -⟩ := fragDecode_ok hd
    exact ⟨hoff, hsize, Nat.zero_le _, ih hrest⟩

/-- Without BlobFragments the table is empty (45_packet_assembler.md R170). -/
theorem regionParse_plain {P : Config.Params} {flags : Word} {data : List Byte} {r : Region}
    (h : regionParse P flags data = .ok r) (hb : has P flags .blobFragments = false) :
    r.entries = [] := by
  obtain ⟨-, -, -, hplain⟩ := regionParse_ok h
  rw [Region.entries, hplain hb, List.map_nil]

/-- The table of a parsed region lies back to back from its optional part on. -/
theorem fragsTile_entries {P : Config.Params} {flags : Word} {data : List Byte} {r : Region}
    (h : regionParse P flags data = .ok r) : fragsTile r.optLen r.entries := by
  cases hb : has P flags .blobFragments with
  | true =>
    obtain ⟨-, -, hblob, -⟩ := regionParse_ok h
    exact fragsTile_of_fragsOf (hblob hb)
  | false => rw [regionParse_plain h hb]; trivial

/-- A cursor moved on inside its payload keeps the table as it is laid out. -/
theorem fragsTile_advance {p k n : Nat} {fs : List FragEntry} {f : FragEntry} (h : fragsTile p fs)
    (hf : fs[k]? = some f) (hn : n ≤ f.left) :
    fragsTile p (fs.set k { f with cur := f.cur + n }) := by
  induction fs generalizing p k with
  | nil => exact h
  | cons a fs ih =>
    obtain ⟨hoff, hsize, hcur, hrest⟩ := h
    cases k with
    | zero =>
      obtain rfl : a = f := by simpa using hf
      unfold FragEntry.left at hn
      exact ⟨hoff, hsize, by show a.cur + n ≤ a.hdr.size.toNat - 16; omega, hrest⟩
    | succ k => exact ⟨hoff, hsize, hcur, ih hrest (by simpa using hf)⟩

/-- The bytes a list write stores at the start of a buffer have values. -/
theorem Memory.definedOn_writeList (m : Memory) (bs : List Byte) :
    (m.writeList 0 bs).definedOn 0 bs.length :=
  Memory.writeList_definedOn fun _ h1 h2 hx => absurd ⟨h1, by omega⟩ hx

/-- An append leaves every byte below its end with a value. -/
theorem Memory.definedOn_append {m : Memory} {lo a hi : Nat} {bs : List Byte} (h : m.definedOn lo a)
    (hhi : hi = a + bs.length) : (m.writeList a bs).definedOn lo hi :=
  Memory.writeList_definedOn fun x h1 h2 hx => h x h1 (by omega)

/-- A write to one buffer, inside its space, keeps all of them in canonical form and inside theirs. -/
theorem State.Inv.stored {P : Config.Params} {s t : State} (hs : s.Inv P) {sp : Space} {a : Nat}
    {bs : List Byte} (hlen : a + bs.length ≤ spaceSize P sp)
    (ht : ∀ q, t.buffer q = if q = sp then (s.buffer sp).writeList a bs else s.buffer q) :
    (∀ q, (t.buffer q).wf) ∧ ∀ q, (t.buffer q).below (spaceSize P q) := by
  refine ⟨fun q => ?_, fun q => ?_⟩ <;> rw [ht q] <;> split_ifs with hq
  · exact Memory.writeList_wf (hs.wf sp) a bs
  · exact hs.wf q
  · subst hq; exact Memory.writeList_below (hs.inside q) hlen
  · exact hs.inside q

/-- Ending a command with any code keeps the error history. -/
theorem State.Inv.finish {P : Config.Params} {s : State} (hs : s.Inv P) (e : Option Err) :
    (s.finish e).Inv P :=
  { hs with
    r56 := hs.r56.finish e
    errseen_bits := noteError_and_unused hs.errseen_bits e
    err_noted := fun e' he => by
      obtain rfl : e = some e' := he
      exact noteError_getLsbD s.errseen e' }

/-- Reset meets the invariant: every object is empty and every buffer without contents. -/
theorem resetEngine_inv (P : Config.Params) (s : State) : s.resetEngine.Inv P where
  r56 := {
    spWp_le := Nat.zero_le _
    sfWp_le := Nat.zero_le _
    final_size := nofun
    final_txLen := nofun
    invalid_frags := fun _ => rfl
    valid_sum := nofun
    valid_opt := nofun
    rxlen_le := Nat.zero_le _ }
  wf := reset_wf
  inside sp := by cases sp <;> exact nofun
  txLen_zero _ := rfl
  sp_empty _ := rfl
  sf_empty _ := rfl
  sp_flags h := absurd rfl h
  tiled := nofun
  plain := nofun
  fsel := .inl rfl
  cpd_defined := nofun
  tx_defined h := absurd rfl h
  sfb_defined _ _ h := absurd h (Nat.not_lt_zero _)
  errseen_bits := BitVec.zero_and
  err_noted := nofun

/-- A write to SP_HDR never reaches FLAGS or SIZE (10_state.md R31). -/
theorem writeSpHdr_keeps (h : PacketHeader) (v : Word) (f : PacketField) :
    (writeSpHdr h v f).flags = h.flags ∧ (writeSpHdr h v f).size = h.size := by
  cases f <;> exact ⟨rfl, rfl⟩

/-- No host write to a register breaks the invariant: RXLEN is clamped, and of the rest only SP_HDR
enters it, by fields the host cannot write. -/
theorem State.Inv.writeReg {s : State} (hs : s.Inv Config.params) (v : Word) (r : Reg) :
    (s.writeReg Config.params v r).Inv Config.params := by
  cases r with
  | rxlen =>
    have hle : (clampRxlen Config.params v).toNat ≤ Config.params.rxCap := by
      rw [toNat_clampRxlen]; exact Nat.min_le_right ..
    exact { hs with r56 := { hs.r56 with rxlen_le := hle } }
  | spHdr f =>
    obtain ⟨hflags, hsize⟩ := writeSpHdr_keeps s.spHdr v f
    exact { hs with
      r56 := { hs.r56 with
        final_size := fun h => (congrArg BitVec.toNat hsize).trans (hs.r56.final_size h) }
      sp_flags := fun h => (congrArg (flagsValid _) hflags).trans (hs.sp_flags h) }
  | arg0 | arg1 | hdr | fh | sf => exact { hs with r56 := { hs.r56 with } }
  | _ => exact hs

/-- The host's write of a byte of RX. -/
theorem State.Inv.storeRx {P : Config.Params} {s : State} (hs : s.Inv P) {a : Nat} (b : Byte)
    (ha : a < P.rxCap) : { s with rx := s.rx.write a b }.Inv P := by
  obtain ⟨hwf, hin⟩ := hs.stored (t := { s with rx := s.rx.write a b }) (sp := .rx)
    (bs := [b]) ha (fun q => by cases q <;> rfl)
  exact { hs with r56 := { hs.r56 with }, wf := hwf, inside := hin }

/-- HDR_STORE and FHDR_STORE: a write to OBUF inside it. -/
theorem State.Inv.storeObuf {P : Config.Params} {s : State} (hs : s.Inv P) {bs : List Byte}
    (hlen : bs.length ≤ 20) : { s with obuf := s.obuf.writeList 0 bs }.Inv P := by
  obtain ⟨hwf, hin⟩ := hs.stored (t := { s with obuf := s.obuf.writeList 0 bs }) (sp := .obuf)
    (by show 0 + bs.length ≤ 20; omega) (fun q => by cases q <;> rfl)
  exact { hs with r56 := hs.r56.storeObuf _, wf := hwf, inside := hin }

/-- A write to TX below its payload. -/
theorem State.Inv.storeTxHeader {P : Config.Params} {s : State} (hs : s.Inv P) {bs : List Byte}
    (hlen : bs.length = 20) : { s with tx := s.tx.writeList 0 bs }.Inv P := by
  obtain ⟨hwf, hin⟩ := hs.stored (t := { s with tx := s.tx.writeList 0 bs }) (sp := .tx)
    (by show 0 + bs.length ≤ 484; omega) (fun q => by cases q <;> rfl)
  exact { hs with
    r56 := { hs.r56 with }
    wf := hwf
    inside := hin
    tx_defined := fun h =>
      Memory.writeList_definedOn fun x h1 h2 _ => hs.tx_defined h x h1 h2 }

/-- SP_APPEND and SF_EMIT: an append to the payload of the packet being filled. -/
theorem State.Inv.appendTx {P : Config.Params} {s : State} (hs : s.Inv P) {bs : List Byte} {n : Nat}
    (hfill : s.spState = .filling) (hn : s.spWp.toNat + n ≤ 448) (hlen : bs.length = n) :
    { s with
      tx := s.tx.writeList (20 + s.spWp.toNat) bs
      spWp := BitVec.ofNat 32 (s.spWp.toNat + n) }.Inv P := by
  obtain ⟨hwf, hin⟩ := hs.stored (t := { s with
      tx := s.tx.writeList (20 + s.spWp.toNat) bs
      spWp := BitVec.ofNat 32 (s.spWp.toNat + n) }) (sp := .tx)
    (by show 20 + s.spWp.toNat + bs.length ≤ 484; omega) (fun q => by cases q <;> rfl)
  have hdef := hs.tx_defined (by rw [hfill]; nofun)
  exact { hs with
    r56 := hs.r56.appendTx _ hfill hn
    wf := hwf
    inside := hin
    sp_empty := fun h => absurd (hfill.symm.trans h) nofun
    tx_defined := fun _ => Memory.definedOn_append hdef (by rw [toNat_ofNat_of_le (by omega)]; omega) }

/-- SF_EMIT's other half: the fragment builder is empty again. -/
theorem State.Inv.closeFragment {P : Config.Params} {s : State} (hs : s.Inv P) (k : FragmentHeader) :
    { s with sfHdr := k, sfState := .empty, sfWp := 0#32 }.Inv P :=
  { hs with
    r56 := hs.r56.closeFragment k
    sf_empty := fun _ => rfl
    sfb_defined := fun _ _ h => absurd h (Nat.not_lt_zero _) }

/-- SF_NEW and SF_APPEND: a write to SFB at or below the fragment's cursor, which then stands at the end of
what was written. -/
theorem State.Inv.storeSfb {P : Config.Params} {s : State} (hs : s.Inv P) (k : FragmentHeader)
    {st : SfState} {a : Nat} {bs : List Byte} {wp : Word} (hst : st = .filling) (ha : a ≤ s.sfWp.toNat)
    (hwp : wp.toNat = a + bs.length) (hle : wp.toNat ≤ 448) :
    { s with sfHdr := k, sfb := s.sfb.writeList a bs, sfWp := wp, sfState := st }.Inv P := by
  obtain ⟨hwf, hin⟩ := hs.stored (t := { s with
      sfHdr := k, sfb := s.sfb.writeList a bs, sfWp := wp, sfState := st }) (sp := .sfb)
    (hwp ▸ hle) (fun q => by cases q <;> rfl)
  have hdef : s.sfb.definedOn 0 a := fun x h1 h2 => hs.sfb_defined x h1 (by omega)
  exact { hs with
    r56 := { hs.r56 with sfWp_le := hle }
    wf := hwf
    inside := hin
    sf_empty := fun h => absurd (hst.symm.trans h) nofun
    sfb_defined := Memory.definedOn_append hdef hwp }

/-- CP_DECODE that succeeds: the packet's data is copied whole and its fragments tile what follows the
optional part. -/
theorem State.Inv.holdClient {P : Config.Params} {s : State} (hs : s.Inv P) {k : PacketHeader}
    {data : List Byte} {r : Region} (hl : data.length = k.size.toNat)
    (hr : regionParse P k.flags data = .ok r) :
    { s with
      cpd := s.cpd.writeList 0 data, cpHdr := k, cpOptlen := BitVec.ofNat 32 r.optLen
      frags := r.entries, cpFsel := 0#32, cpValid := true }.Inv P := by
  obtain ⟨hopt, -⟩ := regionParse_optLen hr hl
  have hsize := k.size.isLt
  obtain ⟨hwf, hin⟩ := hs.stored (t := { s with
      cpd := s.cpd.writeList 0 data, cpHdr := k, cpOptlen := BitVec.ofNat 32 r.optLen
      frags := r.entries, cpFsel := 0#32, cpValid := true }) (sp := .cpd)
    (by show 0 + data.length ≤ 65535; omega) (fun q => by cases q <;> rfl)
  exact { hs with
    r56 := hs.r56.commits (.cpDecode k data r hl hr)
    wf := hwf
    inside := hin
    tiled := fun _ => hopt.symm ▸ fragsTile_entries hr
    plain := fun _ hb => regionParse_plain hr hb
    fsel := .inl rfl
    cpd_defined := fun _ => hl ▸ Memory.definedOn_writeList s.cpd data }

/-- What any command commits keeps the whole invariant. -/
theorem State.Inv.commits {s u : State} {i : Instr} (hs : s.Inv Config.params)
    (h : s.Commits Config.params i u) : u.Inv Config.params := by
  have h56 := hs.r56.commits h
  cases h with
  | nothing => exact hs
  | hdrLoad | fhdrLoad | hdrHash | optDecode | cpChecksum | cpVerify => exact { hs with r56 := h56 }
  | hdrStore => exact hs.storeObuf (Nat.le_refl 20)
  | fhdrStore => exact hs.storeObuf (by decide : 16 ≤ 20)
  | cpClear =>
    exact { hs with
      r56 := h56, tiled := nofun, plain := nofun, fsel := .inl rfl, cpd_defined := nofun }
  | cpDecode k data r hl hr => exact hs.holdClient hl hr
  | cpFragSelect f v hf =>
    have hlt : s.arg0.toNat < s.frags.length := (List.getElem?_eq_some_iff.1 hf).1
    exact { hs with r56 := h56, fsel := .inr hlt }
  | cpFragRead n f v hf hn =>
    exact { hs with
      r56 := h56
      tiled := fun hv => fragsTile_advance (hs.tiled hv) hf hn
      plain := fun hv hb => by
        have hnil := hs.plain hv hb
        rw [hnil] at hf
        cases hf
      fsel := by
        rw [State.cpNfrag, List.length_set]
        exact hs.fsel }
  | spNew hvalid =>
    exact { hs with
      r56 := h56
      txLen_zero := fun _ => rfl
      sp_empty := nofun
      sp_flags := fun _ => hvalid
      tx_defined := fun _ x h1 h2 => absurd h2 (Nat.not_lt.2 h1) }
  | spAppend n hfill hn => exact hs.appendTx hfill hn (wordBytes_length ..)
  | spFinalize data r hfill =>
    have htx := hs.storeTxHeader (encodePH_length (s.finalHeader Config.params data r))
    -- From here on only `htx` is needed of TX; unnamed, its 20 writes are never unfolded.
    generalize s.tx.writeList 0 _ = m at *
    exact { htx with
      r56 := h56
      txLen_zero := fun h => absurd rfl h
      sp_empty := nofun
      sp_flags := fun _ => hs.sp_flags (by rw [hfill]; nofun)
      tx_defined := fun _ => htx.tx_defined (by rw [hfill]; nofun) }
  | sfNew o =>
    cases o with
    | false => exact hs.storeSfb (bs := []) _ rfl (Nat.zero_le _) rfl (Nat.zero_le _)
    | true => exact hs.storeSfb (bs := bytes32 s.arg1) _ rfl (Nat.zero_le _) rfl (by decide : 4 ≤ 448)
  | sfAppend n hfill hn =>
    have hwp := toNat_ofNat_of_le (n := s.sfWp.toNat + n.toNat) (by omega)
    exact hs.storeSfb s.sfHdr hfill (Nat.le_refl _) (by rw [hwp, wordBytes_length]) (hwp.le.trans hn)
  | sfEmit payload hfill hn hl =>
    have hlen : (encodeFH s.emitted ++ payload).length = s.sfTotal := by
      rw [List.length_append, encodeFH_length, hl]; rfl
    have htx := hs.appendTx hfill hn hlen
    generalize s.tx.writeList _ _ = m at *
    exact htx.closeFragment s.emitted

/-- An action of the host keeps the invariant. -/
theorem State.Inv.does {s t : State} {act : HostAction} (hs : s.Inv Config.params)
    (h : act.Does Config.params s t) : t.Inv Config.params := by
  cases h with
  | observe o => exact { hs with r56 := { hs.r56 with } }
  | setReg r v => exact hs.writeReg v r
  | setRx a b ha => exact hs.storeRx b ha
  | command i u e hu => exact (hs.commits hu).finish e
  | reset => exact resetEngine_inv Config.params s

/-- Settles O37: a step changes nothing, or takes the action from the list and does what it says. -/
theorem everyStepKeepsTheInvariant : Obligations.EveryStepKeepsTheInvariant := by
  intro s t hs h
  rcases step_next h with rfl | ⟨act, rest, -, hd⟩
  · exact hs
  · have hrest : { s with host := rest }.Inv Config.params := { hs with r56 := { hs.r56 with } }
    exact hrest.does hd

end Sys2Proof.Machine

/-! ## The memory family (20_memory.md)

The proofs of the statements about what the host reads and writes in the spaces, and about commands and RX:
where a command stops at a byte without a value, and which commands RX does not enter. -/

namespace Sys2Proof.Machine

open Sys2Proof

/-! ### Host accesses to the spaces (20_memory.md R60, R64, R75) -/

/-- A step that takes a host read. -/
theorem step_read {s : State} {sp : Space} {a : Nat} {w : AccessWidth} {rest : List HostAction}
    (h : s.host = .read sp a w :: rest) :
    step s = hostRead Config.params sp a w { s with host := rest } := by
  simp only [step, takeAction, h, hostAct]

/-- A step that takes a host write other than the one that starts a command. -/
theorem step_write {s : State} {sp : Space} {a : Nat} {w : AccessWidth} {v : Word}
    {rest : List HostAction} (hc : ¬startsCommand sp a w) (h : s.host = .write sp a w v :: rest) :
    step s = hostWrite Config.params sp a w v { s with host := rest } := by
  simp only [step, takeAction, h, hostAct, if_neg hc]

/-- A step that takes a host write to a space other than the register window. -/
theorem step_writeBuffer {s : State} {sp : Space} {a : Nat} {w : AccessWidth} {v : Word}
    {rest : List HostAction} (h : s.host = .write sp a w v :: rest) (hsp : sp ≠ .regs) :
    step s = hostWrite Config.params sp a w v { s with host := rest } :=
  step_write (fun hc => hsp hc.1) h

section HostAccess

variable {P : Config.Params} {sp : Space} {a : Nat} {w : AccessWidth} {v : Word} {s : State}

/-- A byte read of RX, OBUF or TX returns the byte if it has a value. -/
theorem hostRead_of_some (hsp : sp = .rx ∨ sp = .obuf ∨ sp = .tx) (ha : a < spaceSize P sp) {b : Byte}
    (hb : s.hostByte sp a = some b) :
    hostRead P sp a .byte s = .next { s with observed := some (.byte b) } := by
  rcases hsp with rfl | rfl | rfl <;> simp only [hostRead, if_true, if_pos ha, hb]

/-- A byte read of RX, OBUF or TX faults at a byte without a value. -/
theorem hostRead_of_none (hsp : sp = .rx ∨ sp = .obuf ∨ sp = .tx) (ha : a < spaceSize P sp)
    (hb : s.hostByte sp a = none) : hostRead P sp a .byte s = .fault (.noValue sp a) := by
  rcases hsp with rfl | rfl | rfl <;> simp only [hostRead, if_true, if_pos ha, hb]

/-- A byte write of RX stores the low byte of the value. -/
theorem hostWrite_rx (ha : a < P.rxCap) :
    hostWrite P .rx a .byte v s = .next { s with rx := s.rx.write a (v.setWidth 8) } := by
  have ha : a < spaceSize P .rx := ha
  simp only [hostWrite, if_true, if_pos ha]

/-- RX, OBUF and TX are read by bytes only. -/
theorem hostRead_notByte (hsp : sp = .rx ∨ sp = .obuf ∨ sp = .tx) (hw : w ≠ .byte) :
    hostRead P sp a w s = .refused (.bufferAccessNotByte sp a) := by
  rcases hsp with rfl | rfl | rfl <;> exact if_neg hw

end HostAccess

/-- What a host byte read of TX finds (20_memory.md R75). -/
theorem hostByte_tx (s : State) (a : Nat) :
    s.hostByte .tx a = if a < 20 + s.spWp.toNat then s.tx.read a else none := rfl

/-- Settles O49: a read that goes on sets what was observed only. -/
theorem hostReadsHaveNoSideEffect : Obligations.HostReadsHaveNoSideEffect := by
  intro s t sp a w rest hs h
  rw [step_read hs] at h
  obtain ⟨o, rfl⟩ := hostRead_next h
  rfl

/-- Settles O50: the write is one `Memory.write`, which the read that follows finds. -/
theorem rxReadsReturnTheLastWrite : Obligations.RxReadsReturnTheLastWrite := by
  intro s a v rest ha hs
  have hwrite := step_writeBuffer hs nofun
  rw [hostWrite_rx ha] at hwrite
  refine ⟨_, _, hwrite, (step_read rfl).trans (hostRead_of_some (.inl rfl) ha ?_), fun x hx => ?_, rfl⟩
  · exact (Memory.read_write s.rx a a _).trans (if_pos rfl)
  · exact (Memory.read_write s.rx a x _).trans (if_neg hx)

/-- Settles O51: each space decides by itself which accesses it takes. -/
theorem otherHostAccessesAreRefused : Obligations.OtherHostAccessesAreRefused := by
  intro s a w v rest
  refine ⟨fun hw => ⟨fun hs => ?_, fun hs => ?_⟩, fun hw => ⟨fun hs => ?_, fun sp hsp hs => ?_⟩,
    fun sp hsp hs => ?_, fun sp hsp => ⟨fun hs => ?_, fun hs => ?_⟩⟩
  · rw [step_read hs]; exact if_neg hw
  · have hc : ¬startsCommand .regs a w := fun ⟨_, ha, hw'⟩ => hw ⟨hw', by rw [ha]; rfl⟩
    rw [step_write hc hs]; exact if_neg hw
  · rw [step_writeBuffer hs nofun]; exact if_neg hw
  · rw [step_read hs, hostRead_notByte hsp hw]
  · rcases hsp with rfl | rfl <;> exact step_writeBuffer hs nofun
  · rcases hsp with rfl | rfl <;> exact step_read hs
  · rcases hsp with rfl | rfl <;> exact step_writeBuffer hs nofun

/-- Settles O52: `hostByte` says which bytes have a value for the host. -/
theorem hostReadsOfUndefinedBytesFault : Obligations.HostReadsOfUndefinedBytesFault := by
  intro s a rest
  refine ⟨fun ha hs => ⟨fun hb => ?_, fun b hlt hb => ?_⟩,
    fun ha hs => ⟨fun hb => ?_, fun b hb => ?_⟩, fun ha hs hb => ?_⟩
  · rw [step_read hs, hostRead_of_none (.inr (.inr rfl)) ha]
    rw [hostByte_tx, ite_eq_right_iff]
    rcases hb with hb | hb
    · exact fun hlt => absurd hlt (Nat.not_lt.2 hb)
    · exact fun _ => hb
  · rw [step_read hs, hostRead_of_some (.inr (.inr rfl)) ha]
    exact (if_pos hlt).trans hb
  · exact (step_read hs).trans (hostRead_of_none (.inr (.inl rfl)) ha hb)
  · exact (step_read hs).trans (hostRead_of_some (.inr (.inl rfl)) ha hb)
  · exact (step_read hs).trans (hostRead_of_none (.inl rfl) ha hb)

/-! ### Bytes a decoder has read -/

section Defined

variable {src : Source} {a b c o n : Nat}

/-- Two spans of defined bytes that meet are one. -/
theorem Source.definedOn.append (h : src.definedOn a b) (h' : src.definedOn b c) :
    src.definedOn a c := fun x hx1 hx2 =>
  (Nat.lt_or_ge x b).elim (fun hlt => h x hx1 hlt) (fun hge => h' x hge hx2)

/-- No byte of a defined span lacks a value. -/
theorem Source.definedOn.ne_none (h : src.definedOn a b) {x : Nat} (h1 : a ≤ x) (h2 : x < b) :
    src.get x ≠ none := fun hx => by simpa [hx] using h x h1 h2

/-- A span that was read has values. -/
theorem Source.bytes_definedOn {bs : List Byte} (h : src.bytes a n = .ok bs) :
    src.definedOn a (a + n) := fun x h1 h2 => by
  obtain ⟨hl, hg⟩ := Source.bytes_ok_iff.1 h
  obtain ⟨j, rfl⟩ := Nat.exists_eq_add_of_le h1
  rw [hg j (by omega), List.getElem?_eq_getElem (by omega)]; rfl

/-- A u16 that was read has both its bytes. -/
theorem le16_definedOn {v : Half} (h : le16 src o = .ok v) : src.definedOn o (o + 2) := by
  obtain ⟨b0, b1, h0, h1, -⟩ := le16_ok_iff.1 h
  intro x hx1 hx2
  obtain rfl | rfl : x = o ∨ x = o + 1 := by omega
  · rw [h0]; rfl
  · rw [h1]; rfl

/-- A u32 that was read has all its bytes. -/
theorem le32_definedOn {v : Word} (h : le32 src o = .ok v) : src.definedOn o (o + 4) := by
  obtain ⟨m, bs, -, hb⟩ | ⟨e, he, -⟩ := le32_as_bytes src o
  · exact Source.bytes_definedOn hb
  · rw [he] at h; cases h

/-- A packet header that was decoded has all its 20 bytes. -/
theorem decodePH_definedOn {h : PacketHeader} (hd : decodePH src o = .ok h) :
    src.definedOn o (o + 20) := by
  simp only [decodePH, bind_ok_iff] at hd
  obtain ⟨_, h0, _, h4, _, h8, _, h12, _, h14, _, h16, _, h18, -⟩ := hd
  exact (le32_definedOn h0).append <| (le32_definedOn h4).append <| (le32_definedOn h8).append <|
    (le16_definedOn h12).append <| (le16_definedOn h14).append <| (le16_definedOn h16).append <|
    le16_definedOn h18

/-- A fragment header that was decoded has all its 16 bytes. -/
theorem decodeFH_definedOn {h : FragmentHeader} (hd : decodeFH src o = .ok h) :
    src.definedOn o (o + 16) := by
  simp only [decodeFH, bind_ok_iff] at hd
  obtain ⟨_, h0, _, h4, _, h8, _, h10, _, h12, _, h14, -⟩ := hd
  exact (le32_definedOn h0).append <| (le32_definedOn h4).append <| (le16_definedOn h8).append <|
    (le16_definedOn h10).append <| (le16_definedOn h12).append <| le16_definedOn h14

/-- `x` stops at a byte of `[a, b)` of the source that has no value. -/
def stopsIn {α : Type} (src : Source) (a b : Nat) (x : Except Stop α) : Prop :=
  ∃ i, a ≤ i ∧ i < b ∧ x = .error (.fault (.noValue src.space i))

/-- What comes after a read that stops is not reached. -/
theorem stopsIn.bind {α β : Type} {x : Except Stop α} (h : stopsIn src a b x)
    (f : α → Except Stop β) : stopsIn src a b (x >>= f) := by
  obtain ⟨i, h1, h2, rfl⟩ := h
  exact ⟨i, h1, h2, rfl⟩

/-- A read that ends well only on defined bytes, and stops only at an undefined one, stops in a span with a
hole. -/
theorem stopsIn_of_hole {α : Type} {x : Except Stop α} {i : Nat}
    (hok : ∀ v, x = .ok v → src.definedOn a b)
    (herr : ∀ e, x = .error e →
      ∃ j, a ≤ j ∧ j < b ∧ src.get j = none ∧ e = .fault (.noValue src.space j))
    (h1 : a ≤ i) (h2 : i < b) (hi : src.get i = none) : stopsIn src a b x := by
  cases x with
  | ok v => exact absurd hi ((hok v rfl).ne_none h1 h2)
  | error e =>
    obtain ⟨j, hj1, hj2, -, rfl⟩ := herr e rfl
    exact ⟨j, hj1, hj2, rfl⟩

/-- A command whose body stops at an undefined byte is a fault. -/
theorem stopsIn.endCommand {body : Except Stop State} (h : stopsIn src a b body) (r : State) :
    ∃ i, a ≤ i ∧ i < b ∧ endCommand r body = .fault (.noValue src.space i) := by
  obtain ⟨i, h1, h2, hi⟩ := h
  exact ⟨i, h1, h2, endCommand_fault_iff.2 hi⟩

end Defined

/-! ### Commands at an RX byte that was never written (20_memory.md R75, R66) -/

section RxHole

variable {P : Config.Params} {s : State} {j : Nat}

/-- HDR_LOAD with a byte of its header undefined. -/
theorem hdrLoadBody_of_hole (hin : s.arg0.toNat + 20 ≤ s.rxlen.toNat) (hj : j < 20)
    (hx : s.rx.read (s.arg0.toNat + j) = none) :
    stopsIn s.rxSource s.arg0.toNat (s.arg0.toNat + 20) (hdrLoadBody s) := by
  have hspan : checkRxSpan s s.arg0.toNat 20 = .ok () := checkRxSpan_ok_iff.2 ⟨by omega, hin⟩
  unfold hdrLoadBody State.rxOffset Config.phSize
  rw [hspan, ok_bind]
  exact (stopsIn_of_hole (fun _ => decodePH_definedOn) (fun _ => decodePH_error)
    (Nat.le_add_right _ j) (by omega) hx).bind _

/-- FHDR_LOAD with a byte of its header undefined. -/
theorem fhdrLoadBody_of_hole (hin : s.arg0.toNat + 16 ≤ s.rxlen.toNat) (hj : j < 16)
    (hx : s.rx.read (s.arg0.toNat + j) = none) :
    stopsIn s.rxSource s.arg0.toNat (s.arg0.toNat + 16) (fhdrLoadBody s) := by
  have hspan : checkRxSpan s s.arg0.toNat 16 = .ok () := checkRxSpan_ok_iff.2 ⟨by omega, hin⟩
  unfold fhdrLoadBody State.rxOffset Config.fhSize
  rw [hspan, ok_bind]
  exact (stopsIn_of_hole (fun _ => decodeFH_definedOn) (fun _ => decodeFH_error)
    (Nat.le_add_right _ j) (by omega) hx).bind _

/-- CP_DECODE with a byte of the header undefined. -/
theorem cpDecodeBody_of_headerHole (hin : 20 ≤ s.rxlen.toNat) (hj : j < 20) (hx : s.rx.read j = none) :
    stopsIn s.rxSource 0 20 (cpDecodeBody P s) := by
  unfold cpDecodeBody
  rw [require_pos (show Config.phSize ≤ s.rxlen.toNat from hin), ok_bind]
  exact (stopsIn_of_hole (fun _ => decodePH_definedOn) (fun _ => decodePH_error)
    (Nat.zero_le j) hj hx).bind _

/-- CP_DECODE with the header there and a byte of the data region undefined. -/
theorem cpDecodeBody_of_dataHole {h : PacketHeader} (hh : s.rx.holds 0 (packetBytes h h.checksum))
    (hf : flagsValid P h.flags = true) (hin : 20 + h.size.toNat ≤ s.rxlen.toNat)
    (hj : j < h.size.toNat) (hx : s.rx.read (20 + j) = none) :
    stopsIn s.rxSource 20 (20 + h.size.toNat) (cpDecodeBody P s) := by
  have hhdr : Config.phSize ≤ s.rxlen.toNat := by show 20 ≤ _; omega
  have hdata : h.size.toNat ≤ s.rxlen.toNat - Config.phSize := by show _ ≤ _ - 20; omega
  have hdec : decodePH s.rxSource 0 = .ok h := decodePH_of_packetBytes fun k hk => hh k hk
  unfold cpDecodeBody
  rw [require_pos hhdr, ok_bind, hdec, ok_bind, require_pos hf, ok_bind,
    require_pos hdata, ok_bind]
  exact (stopsIn_of_hole (fun _ => Source.bytes_definedOn) (fun _ => Source.bytes_error)
    (Nat.le_add_right 20 j) (by omega) hx).bind _

/-- OPT_DECODE stops at the first undefined byte of its region, in a span that fits. -/
theorem optDecodeBody_of_hole {req rej : Word} {k : Nat} (hc : s.optCounts (s.arg0.toNat + j) req rej)
    (hin : s.optEnd req rej k ≤ s.rxlen.toNat) (hj : s.arg0.toNat + j < s.optEnd req rej k)
    (hd : s.rx.definedOn s.arg0.toNat (s.arg0.toNat + j))
    (hx : s.rx.read (s.arg0.toNat + j) = none) :
    optDecodeBody Config.params s = .error (.fault (.noValue .rx (s.arg0.toNat + j))) := by
  obtain ⟨hreq, hrej⟩ := hc
  have hwalk : optWalk Config.params s.hdr.flags s.rxSource s.rxlen.toNat optTable s.arg0.toNat
      = .error (.fault (.noValue .rx (s.arg0.toNat + j))) :=
    optWalk_of_hole hd hx (Nat.le_add_right _ j) hj hin (fun hf hle => le32_of_holds (hreq hf hle))
      (fun hf hle => le32_of_holds (hrej hf hle))
  unfold optDecodeBody optLen State.rxOffset
  rw [require_pos (by omega), ok_bind, hwalk]
  rfl

end RxHole

/-- Settles O39: each reader of RX stops in the span that has a hole. -/
theorem unwrittenRxByteIsAFault : Obligations.UnwrittenRxByteIsAFault := by
  intro s j
  refine ⟨fun hin hj hx => (hdrLoadBody_of_hole hin hj hx).endCommand s,
    fun hin hj hx => (fhdrLoadBody_of_hole hin hj hx).endCommand s, fun hin hj hx => ?_,
    fun h hh hf hin hj hx => (cpDecodeBody_of_dataHole hh hf hin hj hx).endCommand s.clearClient,
    fun req rej k hc hin hj hd hx => endCommand_fault_iff.2 (optDecodeBody_of_hole hc hin hj hd hx)⟩
  obtain ⟨i, -, h2, hi⟩ := (cpDecodeBody_of_headerHole hin hj hx).endCommand s.clearClient
  exact ⟨i, h2, hi⟩

/-! ### Commands under the invariant (20_memory.md R75, 40_control.md R110) -/

/-- A command whose body stops with error codes only ends. -/
theorem endCommand_ends {r : State} {b : Except Stop State}
    (h : ∀ x, b = .error x → ∃ e, x = .err e) : ∃ t, endCommand r b = .next t := by
  cases b with
  | ok u => exact ⟨_, rfl⟩
  | error x =>
    obtain ⟨e, rfl⟩ := h x rfl
    exact ⟨_, rfl⟩

/-- The commands that read RX (20_memory.md R75). -/
def readsRx (i : Instr) : Prop := i = .hdrLoad ∨ i = .fhdrLoad ∨ i = .optDecode ∨ i = .cpDecode

/-- A command that reads RX ends, or stops at an RX byte below RXLEN without a value. -/
theorem endCommand_rxStop {i : Instr} {s r : State} {b : Except Stop State} (hi : readsRx i)
    (h : ∀ x, b = .error x → rxStop s x) :
    (∃ t, endCommand r b = .next t) ∨ ∃ a, endCommand r b = .fault (.noValue .rx a)
      ∧ a < s.rxlen.toNat ∧ s.rx.read a = none ∧ readsRx i := by
  cases b with
  | ok u => exact .inl ⟨_, rfl⟩
  | error x =>
    rcases h x rfl with ⟨e, rfl⟩ | ⟨a, ha, hx, rfl⟩
    · exact .inl ⟨_, rfl⟩
    · exact .inr ⟨a, rfl, ha, hx, hi⟩

/-- No byte of a defined span of a buffer lacks a value. -/
theorem Memory.definedOn.ne_none {m : Memory} {a b x : Nat} (h : m.definedOn a b) (h1 : a ≤ x)
    (h2 : x < b) : m.read x ≠ none := fun hx => by simpa [hx] using h x h1 h2

/-- A fragment of a table laid out back to back lies inside the bytes the table takes, its cursor inside its
payload. -/
theorem fragsTile_getElem {p k : Nat} {fs : List FragEntry} {f : FragEntry} (h : fragsTile p fs)
    (hf : fs[k]? = some f) :
    16 ≤ f.hdr.size.toNat ∧ f.cur ≤ f.hdr.size.toNat - 16 ∧
      f.off + f.hdr.size.toNat ≤ p + fragSum fs := by
  induction fs generalizing p k with
  | nil => simp at hf
  | cons a fs ih =>
    obtain ⟨hoff, hsize, hcur, hrest⟩ := h
    have hsum : fragSum (a :: fs) = a.hdr.size.toNat + fragSum fs := by simp [fragSum]
    cases k with
    | zero =>
      obtain rfl : a = f := by simpa using hf
      exact ⟨hsize, hcur, by omega⟩
    | succ k =>
      obtain ⟨h1, h2, h3⟩ := ih hrest (by simpa using hf)
      exact ⟨h1, h2, by omega⟩

/-- Every fragment of the client packet lies inside its data region, its cursor inside its payload. -/
theorem State.Inv.frag_inside {P : Config.Params} {s : State} (hs : s.Inv P) (hv : s.cpValid = true)
    {k : Nat} {f : FragEntry} (hf : s.frags[k]? = some f) :
    16 ≤ f.hdr.size.toNat ∧ f.cur ≤ f.hdr.size.toNat - 16 ∧
      f.off + f.hdr.size.toNat ≤ s.cpHdr.size.toNat := by
  cases hb : has P s.cpHdr.flags .blobFragments with
  | true =>
    rw [← hs.r56.valid_sum hv hb]
    exact fragsTile_getElem (hs.tiled hv) hf
  | false =>
    rw [hs.plain hv hb] at hf
    simp at hf

section UnderInv

variable {P : Config.Params} {s : State} {x : Stop}

/-- Under the invariant CP_FRAG_READ lacks no byte: it reads inside a fragment of the decoded packet. -/
theorem State.Inv.cpFragRead_error {n : BitVec 3} (hs : s.Inv P)
    (h : cpFragReadBody n s = .error x) : ∃ e, x = .err e := by
  rcases cpFragReadBody_error h with he | ⟨f, a, hv, hf, hleft, h1, h2, hx, -⟩
  · exact he
  · obtain ⟨h16, hcur, hin⟩ := hs.frag_inside hv hf
    unfold FragEntry.left at hleft
    exact absurd hx ((hs.cpd_defined hv).ne_none (Nat.zero_le a) (by omega))

/-- Under the invariant the client checksum lacks no byte: CPD holds the decoded packet. -/
theorem State.Inv.clientChecksum_error (hs : s.Inv P) (h : clientChecksum P s = .error x) :
    ∃ e, x = .err e := by
  rcases Machine.clientChecksum_error h with rfl | ⟨a, hv, ha, hx, -⟩
  · exact ⟨_, rfl⟩
  · exact absurd hx ((hs.cpd_defined hv).ne_none (Nat.zero_le a) ha)

/-- Nor does CP_CHECKSUM, which reads no more than that. -/
theorem State.Inv.cpChecksum_error (hs : s.Inv P) (h : cpChecksumBody P s = .error x) :
    ∃ e, x = .err e := by
  simp only [cpChecksumBody, bind_error_iff, pure_eq_ok] at h
  rcases h with h | ⟨_, -, h⟩
  · exact hs.clientChecksum_error h
  · cases h

/-- Under the invariant CP_VERIFY ends. -/
theorem State.Inv.cpVerify_ends (hs : s.Inv P) : ∃ t, runCpVerify P s = .next t := by
  unfold runCpVerify
  cases h : clientChecksum P s with
  | error x =>
    obtain ⟨e, rfl⟩ := hs.clientChecksum_error h
    exact ⟨_, rfl⟩
  | ok c =>
    dsimp only
    split_ifs <;> exact ⟨_, rfl⟩

/-- Under the invariant SP_FINALIZE lacks no byte: TX holds the payload appended. -/
theorem State.Inv.spFinalize_error (hs : s.Inv P) (h : spFinalizeBody P s = .error x) :
    ∃ e, x = .err e := by
  rcases spFinalizeBody_error h with he | ⟨a, hfill, h1, h2, hx, -⟩
  · exact he
  · exact absurd hx ((hs.tx_defined (by rw [hfill]; nofun)).ne_none h1 h2)

/-- Under the invariant SF_EMIT lacks no byte: SFB holds the payload appended. -/
theorem State.Inv.sfEmit_error (hs : s.Inv P) (h : sfEmitBody s = .error x) : ∃ e, x = .err e := by
  rcases sfEmitBody_error h with he | ⟨a, ha, hx, -⟩
  · exact he
  · exact absurd hx (hs.sfb_defined.ne_none (Nat.zero_le a) ha)

end UnderInv

/-- Settles O38: the four readers of RX stop as `rxStop` says, and the invariant gives every other command
the bytes it reads. -/
theorem commandsStopOnlyAtUnwrittenRx : Obligations.CommandsStopOnlyAtUnwrittenRx := by
  intro i s hs
  cases i with
  | nop | hdrStore | hdrHash | fhdrStore | sfNew => exact .inl ⟨_, rfl⟩
  | hdrLoad => exact endCommand_rxStop (.inl rfl) fun _ => hdrLoadBody_error
  | fhdrLoad => exact endCommand_rxStop (.inr (.inl rfl)) fun _ => fhdrLoadBody_error
  | optDecode => exact endCommand_rxStop (.inr (.inr (.inl rfl))) fun _ => optDecodeBody_error
  | cpDecode => exact endCommand_rxStop (.inr (.inr (.inr rfl))) fun _ => cpDecodeBody_error
  | cpFragSelect => exact .inl (endCommand_ends fun _ => cpFragSelectBody_error)
  | cpFragRead n => exact .inl (endCommand_ends fun _ => hs.cpFragRead_error)
  | cpChecksum => exact .inl (endCommand_ends fun _ => hs.cpChecksum_error)
  | cpVerify => exact .inl hs.cpVerify_ends
  | spNew => exact .inl (endCommand_ends fun _ => spNewBody_error)
  | spAppend n => exact .inl (endCommand_ends fun _ => spAppendBody_error)
  | spFinalize => exact .inl (endCommand_ends fun _ => hs.spFinalize_error)
  | sfAppend n => exact .inl (endCommand_ends fun _ => sfAppendBody_error)
  | sfEmit => exact .inl (endCommand_ends fun _ => hs.sfEmit_error)

/-! ### Commands that RX does not enter (20_memory.md R69)

The body of each such command commutes with a change of RX and RXLEN. After `map_bind` both sides take the
same steps and `rfl` compares what they commit; where that holds a stored header, `State.withRx` is unfolded
first, so that the stores are compared by their arguments and not run. -/

/-- `s` with another RX and RXLEN. -/
def State.withRx (m : Memory) (len : Word) (s : State) : State := { s with rx := m, rxlen := len }

/-- A command whose body commutes with the change of RX ends alike under it. -/
theorem endCommand_withRx {m : Memory} {len : Word} {r t : State} {b b' : Except Stop State}
    (hb : b' = State.withRx m len <$> b) (h : endCommand r b = .next t) :
    endCommand (r.withRx m len) b' = .next (t.withRx m len) := by
  subst hb
  rcases endCommand_next_iff.1 h with ⟨u, rfl, rfl⟩ | ⟨e, rfl, rfl⟩ <;> rfl

section WithRx

variable (P : Config.Params) (m : Memory) (len : Word) (s : State)

/-- The keystream query is the same, and leaves RX. -/
theorem drawMask_withRx (dir : Direction) (h : PacketHeader) :
    drawMask P dir h (s.withRx m len)
      = ((drawMask P dir h s).1, (drawMask P dir h s).2.withRx m len) := by
  unfold drawMask; split_ifs <;> rfl

/-- The client checksum is the same, and its query leaves RX. -/
theorem clientChecksum_withRx : clientChecksum P (s.withRx m len)
    = (fun c => (c.1, c.2.withRx m len)) <$> clientChecksum P s := by
  simp only [clientChecksum, drawMask_withRx, map_bind]
  rfl

theorem cpChecksumBody_withRx :
    cpChecksumBody P (s.withRx m len) = State.withRx m len <$> cpChecksumBody P s := by
  simp only [cpChecksumBody, clientChecksum_withRx, map_bind, bind_map_left]
  rfl

theorem cpFragSelectBody_withRx :
    cpFragSelectBody (s.withRx m len) = State.withRx m len <$> cpFragSelectBody s := by
  simp only [cpFragSelectBody, map_bind]
  refine bind_congr fun _ => ?_
  show (match s.frags[s.fragIndex]? with | none => _ | some f => _) = _
  cases s.frags[s.fragIndex]? <;> rfl

theorem cpFragReadBody_withRx (n : BitVec 3) :
    cpFragReadBody n (s.withRx m len) = State.withRx m len <$> cpFragReadBody n s := by
  simp only [cpFragReadBody, map_bind]
  refine bind_congr fun count => bind_congr fun _ => ?_
  show (match s.frags[s.cpFsel.toNat]? with | none => _ | some f => _) = _
  cases s.frags[s.cpFsel.toNat]? with
  | none => rfl
  | some f => simp only [map_bind]; rfl

theorem spNewBody_withRx :
    spNewBody P (s.withRx m len) = State.withRx m len <$> spNewBody P s := by
  simp only [spNewBody, map_bind]; rfl

theorem spAppendBody_withRx (n : BitVec 3) :
    spAppendBody n (s.withRx m len) = State.withRx m len <$> spAppendBody n s := by
  simp only [spAppendBody, map_bind]; rfl

theorem sfAppendBody_withRx (n : BitVec 3) :
    sfAppendBody n (s.withRx m len) = State.withRx m len <$> sfAppendBody n s := by
  simp only [sfAppendBody, map_bind]; rfl

theorem sfEmitBody_withRx :
    sfEmitBody (s.withRx m len) = State.withRx m len <$> sfEmitBody s := by
  simp only [sfEmitBody, map_bind, map_pure, State.withRx]
  rfl

/-- The header SP_FINALIZE sizes is the same. -/
theorem sizedHeader_withRx : (s.withRx m len).sizedHeader = s.sizedHeader := rfl

theorem spFinalizeBody_withRx :
    spFinalizeBody P (s.withRx m len) = State.withRx m len <$> spFinalizeBody P s := by
  simp only [spFinalizeBody, drawMask_withRx, sizedHeader_withRx, map_bind, map_pure]
  simp only [State.withRx]
  rfl

/-- CP_VERIFY compares the same checksum. -/
theorem runCpVerify_withRx {t : State} (h : runCpVerify P s = .next t) :
    runCpVerify P (s.withRx m len) = .next (t.withRx m len) := by
  unfold runCpVerify at h ⊢
  rw [clientChecksum_withRx]
  cases hc : clientChecksum P s with
  | error x =>
    rw [hc] at h
    exact endCommand_withRx (b := .error x) rfl h
  | ok c =>
    rw [hc] at h
    refine endCommand_withRx (m := m) (len := len) ?_ h
    show (if c.1 = s.cpHdr.checksum then _ else _) = _
    split_ifs <;> rfl

end WithRx

/-- Settles O42: the body of every such command commutes with the change of RX. -/
theorem decodedPacketIsACopy : Obligations.DecodedPacketIsACopy := by
  intro i s t m len h1 h2 h3 h4 h
  show exec i (s.withRx m len) = .next (t.withRx m len)
  cases i with
  | hdrLoad => exact absurd rfl h1
  | fhdrLoad => exact absurd rfl h2
  | optDecode => exact absurd rfl h3
  | cpDecode => exact absurd rfl h4
  | nop | hdrStore | hdrHash | fhdrStore | sfNew =>
    obtain rfl := Host.Outcome.next.inj h
    simp only [exec, execNop, execHdrStore, execHdrHash, runHdrHash, execFhdrStore, execSfNew,
      endCommand_ok, State.finish, State.withRx, State.arg0Half]
  | cpFragSelect => exact endCommand_withRx (cpFragSelectBody_withRx m len s) h
  | cpFragRead n => exact endCommand_withRx (cpFragReadBody_withRx m len s n) h
  | cpChecksum => exact endCommand_withRx (cpChecksumBody_withRx _ m len s) h
  | cpVerify => exact runCpVerify_withRx _ m len s h
  | spNew => exact endCommand_withRx (spNewBody_withRx _ m len s) h
  | spAppend n => exact endCommand_withRx (spAppendBody_withRx m len s n) h
  | spFinalize => exact endCommand_withRx (spFinalizeBody_withRx _ m len s) h
  | sfAppend n => exact endCommand_withRx (sfAppendBody_withRx m len s n) h
  | sfEmit => exact endCommand_withRx (sfEmitBody_withRx m len s) h

end Sys2Proof.Machine

/-! ## The encoding family (30_encoding.md)

The proofs of the statements about command words. A word is compared with an encoding as a number: one lemma
per format says which words that format encodes (`encodeC0_eq_iff` and its two neighbours), and `decode` is
then taken case by case along the opcode map of R91. -/

namespace Sys2Proof

open Sys2Proof.Machine

/-! ### The fields of a command word as numbers (30_encoding.md R90) -/

theorem toNat_opcField (w : Word) : (opcField w).toNat = w.toNat % 256 := by
  rw [opcField, BitVec.extractLsb'_toNat, Nat.shiftRight_zero]

theorem toNat_countField (w : Word) : (countField w).toNat = w.toNat / 256 % 8 := by
  rw [countField, BitVec.extractLsb'_toNat, Nat.shiftRight_eq_div_pow]

/-- The field O is bit 8. -/
theorem toNat_oField (w : Word) : (w.getLsbD 8).toNat = w.toNat / 256 % 2 :=
  Nat.toNat_testBit w.toNat 8

/-- The bits of a word from `a` to its top are 0 exactly when the word is below `2 ^ a`. -/
theorem extractLsb'_top_eq_zero_iff (w : Word) {a n : Nat} (h : a + n = 32) :
    w.extractLsb' a n = 0#n ↔ w.toNat / 2 ^ a = 0 := by
  have hlt : w.toNat / 2 ^ a < 2 ^ n :=
    Nat.div_lt_of_lt_mul (by rw [← Nat.pow_add, h]; exact w.isLt)
  rw [← BitVec.toNat_inj, BitVec.extractLsb'_toNat, Nat.shiftRight_eq_div_pow, Nat.mod_eq_of_lt hlt,
    BitVec.toNat_ofNat, Nat.zero_mod]

theorem aboveOpc_eq_zero_iff (w : Word) : aboveOpc w = 0#24 ↔ w.toNat / 256 = 0 :=
  extractLsb'_top_eq_zero_iff w rfl

theorem aboveO_eq_zero_iff (w : Word) : aboveO w = 0#23 ↔ w.toNat / 512 = 0 :=
  extractLsb'_top_eq_zero_iff w rfl

theorem aboveCount_eq_zero_iff (w : Word) : aboveCount w = 0#21 ↔ w.toNat / 2048 = 0 :=
  extractLsb'_top_eq_zero_iff w rfl

/-! ### Which words a format encodes -/

/-- A C0 word is its opcode with nothing above. -/
theorem encodeC0_eq_iff {opc : BitVec 8} {w : Word} :
    encodeC0 opc = w ↔ (opcField w).toNat = opc.toNat ∧ aboveOpc w = 0#24 := by
  have hopc := opc.isLt
  rw [aboveOpc_eq_zero_iff, toNat_opcField, ← BitVec.toNat_inj, encodeC0, toNat_append_add,
    BitVec.toNat_ofNat]
  omega

/-- A CN word is its opcode and its count with nothing above. -/
theorem encodeCN_eq_iff {opc : BitVec 8} {n : BitVec 3} {w : Word} :
    encodeCN opc n = w ↔
      (opcField w).toNat = opc.toNat ∧ countField w = n ∧ aboveCount w = 0#21 := by
  have hopc := opc.isLt
  have hn := n.isLt
  rw [aboveCount_eq_zero_iff, ← BitVec.toNat_inj (y := n), toNat_countField, toNat_opcField,
    ← BitVec.toNat_inj, encodeCN, toNat_append_add, toNat_append_add, BitVec.toNat_ofNat]
  omega

/-- A CF word is its opcode and its bit O with nothing above. -/
theorem encodeCF_eq_iff {opc : BitVec 8} {o : Bool} {w : Word} :
    encodeCF opc o = w ↔
      (opcField w).toNat = opc.toNat ∧ w.getLsbD 8 = o ∧ aboveO w = 0#23 := by
  have hopc := opc.isLt
  have ho := o.toNat_lt
  have hbit : w.getLsbD 8 = o ↔ (w.getLsbD 8).toNat = o.toNat :=
    (Function.LeftInverse.injective Bool.ofNat_toNat).eq_iff.symm
  rw [aboveO_eq_zero_iff, hbit, toNat_oField, toNat_opcField, ← BitVec.toNat_inj, encodeCF,
    toNat_append_add, toNat_append_add, BitVec.toNat_ofBool, BitVec.toNat_ofNat]
  omega

/-! ### What the reader of a format answers -/

section Formats

variable {w : Word} {i j : Instr} {opc : BitVec 8} {mkN : BitVec 3 → Instr} {mkO : Bool → Instr}

theorem decodeC0_eq_ok : decodeC0 i w = .ok j ↔ aboveOpc w = 0#24 ∧ i = j := by
  unfold decodeC0
  split_ifs with h <;> simp [h]

theorem decodeCN_eq_ok : decodeCN mkN w = .ok j ↔
    aboveCount w = 0#21 ∧ countLegal (countField w) ∧ mkN (countField w) = j := by
  unfold decodeCN
  split_ifs with h hn
  · simpa [h] using fun _ => hn
  · simp [hn]
  · simp [h]

theorem decodeCF_eq_ok : decodeCF mkO w = .ok j ↔ aboveO w = 0#23 ∧ mkO (w.getLsbD 8) = j := by
  unfold decodeCF
  split_ifs with h <;> simp [h]

/-- What a C0 word reads as is well-formed and has that word, for a row of the map whose command has format
C0 and opcode `opc`. -/
theorem encode_of_decodeC0 (h : decodeC0 i w = .ok j) (hi : i.WellFormed)
    (henc : encode i = encodeC0 opc) (hopc : (opcField w).toNat = opc.toNat) :
    j.WellFormed ∧ encode j = w := by
  obtain ⟨habove, rfl⟩ := decodeC0_eq_ok.mp h
  exact ⟨hi, henc ▸ encodeC0_eq_iff.mpr ⟨hopc, habove⟩⟩

/-- The same for a row of format CN, whose command is well-formed where its count is legal. -/
theorem encode_of_decodeCN (h : decodeCN mkN w = .ok j)
    (hi : ∀ n, (mkN n).wellFormed = decide (countLegal n)) (henc : ∀ n, encode (mkN n) = encodeCN opc n)
    (hopc : (opcField w).toNat = opc.toNat) : j.WellFormed ∧ encode j = w := by
  obtain ⟨habove, hn, rfl⟩ := decodeCN_eq_ok.mp h
  exact ⟨(hi _).trans (decide_eq_true hn), (henc _).trans (encodeCN_eq_iff.mpr ⟨hopc, rfl, habove⟩)⟩

/-- The same for a row of format CF. -/
theorem encode_of_decodeCF (h : decodeCF mkO w = .ok j) (hi : ∀ o, (mkO o).WellFormed)
    (henc : ∀ o, encode (mkO o) = encodeCF opc o) (hopc : (opcField w).toNat = opc.toNat) :
    j.WellFormed ∧ encode j = w := by
  obtain ⟨habove, rfl⟩ := decodeCF_eq_ok.mp h
  exact ⟨hi _, (henc _).trans (encodeCF_eq_iff.mpr ⟨hopc, rfl, habove⟩)⟩

end Formats

/-! ### The decoder and the encoder -/

/-- What a word decodes to is well-formed and encodes to the word: row by row of the opcode map. -/
theorem encode_of_decode {w : Word} {i : Instr} (h : decode w = .ok i) :
    i.WellFormed ∧ encode i = w := by
  unfold decode at h
  split at h
  case h_10 hopc | h_14 hopc | h_17 hopc =>
    exact encode_of_decodeCN h (fun _ => rfl) (fun _ => rfl) hopc
  case h_16 hopc => exact encode_of_decodeCF h (fun _ => rfl) (fun _ => rfl) hopc
  case h_19 => cases h
  all_goals next hopc => exact encode_of_decodeC0 h rfl rfl hopc

/-- A well-formed command's word decodes to the command. A C0 command has one word; the word of another is
taken apart into its fields. -/
theorem decode_encode {i : Instr} (hi : i.WellFormed) : decode (encode i) = .ok i := by
  cases i with
  | cpFragRead n | spAppend n | sfAppend n =>
    obtain ⟨hopc, hn, habove⟩ := encodeCN_eq_iff.mp rfl
    unfold decode encode
    rw [hopc]
    exact decodeCN_eq_ok.mpr ⟨habove, hn.symm ▸ of_decide_eq_true hi, congrArg _ hn⟩
  | sfNew o =>
    obtain ⟨hopc, ho, habove⟩ := encodeCF_eq_iff.mp rfl
    unfold decode encode
    rw [hopc]
    exact decodeCF_eq_ok.mpr ⟨habove, congrArg _ ho⟩
  | nop | hdrLoad | hdrStore | hdrHash | fhdrLoad | fhdrStore | optDecode | cpDecode | cpFragSelect
  | cpChecksum | cpVerify | spNew | spFinalize | sfEmit => rfl

/-- Settles O2: `encode_of_decode` one way, `decode_encode` the other. -/
theorem decodeAgreesWithEncode : Obligations.DecodeAgreesWithEncode := by
  intro w i
  refine ⟨encode_of_decode, ?_⟩
  rintro ⟨hi, rfl⟩
  exact decode_encode hi

/-! ### Illegal words (30_encoding.md R92) -/

/-- The words that decode are the words that R92 does not make illegal: in each row of the map, the reserved
bits and the count as numbers. -/
theorem exists_decode_ok_iff (w : Word) : (∃ i, decode w = .ok i) ↔ ¬ illegalWord w := by
  unfold decode
  split
  case h_10 hopc | h_14 hopc | h_17 hopc =>
    rw [toNat_opcField] at hopc
    simp [illegalWord, hopc, decodeCN_eq_ok, aboveCount_eq_zero_iff, countLegal, toNat_countField,
      Nat.one_le_iff_ne_zero]
  case h_16 hopc =>
    rw [toNat_opcField] at hopc
    simp [illegalWord, hopc, decodeCF_eq_ok, aboveO_eq_zero_iff]
  case h_19 =>
    have hill : illegalWord w := .inl (by simp_all [toNat_opcField])
    simp [hill]
  all_goals next hopc =>
    rw [toNat_opcField] at hopc
    simp [illegalWord, hopc, decodeC0_eq_ok, aboveOpc_eq_zero_iff]

/-- Settles O3: a word that R92 makes illegal does not decode, so its write ends with the error. -/
theorem illegalWordChangesNothingElse : Obligations.IllegalWordChangesNothingElse := by
  refine ⟨fun s w rest hs hw => ?_, fun w hw => (exists_decode_ok_iff w).mpr hw⟩
  rw [step_commandWrite hs]
  cases hd : decode w with
  | ok i => exact absurd hw ((exists_decode_ok_iff w).mp ⟨i, hd⟩)
  | error e => exact runCommand_error hd

/-- Settles O1: each word is evaluated. -/
theorem commandWordsDecodeAsListed : Obligations.CommandWordsDecodeAsListed := by
  unfold Obligations.CommandWordsDecodeAsListed
  decide

/-- Settles O54: each expansion is evaluated. -/
theorem pseudoInstructionsExpand : Obligations.PseudoInstructionsExpand := fun _ _ _ =>
  ⟨rfl, rfl, rfl, rfl, rfl, rfl, rfl, rfl, rfl, rfl, rfl, rfl, rfl⟩

end Sys2Proof

/-! ## The control family (40_control.md)

What NOP does, and the frames of the commands that store no byte: they are read off `State.Commits`, the one
list of what each command can write. -/

namespace Sys2Proof.Machine

open Sys2Proof

/-! ### NOP (40_control.md R111) -/

/-- The only legal word with opcode 0x00 is 0: the opcode's format is C0. -/
theorem illegalWord_of_opcode_zero {w : Word} (hopc : w.toNat % 256 = 0) (hw : w ≠ 0#32) :
    illegalWord w := by
  have hne : w.toNat ≠ 0 := fun h => hw (BitVec.eq_of_toNat_eq h)
  have habove : w.toNat / 256 ≠ 0 := by omega
  exact .inr (.inl ⟨by simp [hopc], habove⟩)

/-- Settles O7: `finish` with no error keeps ERRSEEN, and `illegalWord_of_opcode_zero` for the other words. -/
theorem nopClearsTheErrorCode : Obligations.NopClearsTheErrorCode :=
  ⟨fun _ => rfl, decode_encode (i := .nop) rfl, fun _ => illegalWord_of_opcode_zero⟩

/-! ### Commands that store no byte -/

/-- The command stores to no buffer in any of its outcomes. -/
def storesNothing : Instr → Bool
  | .nop | .hdrLoad | .hdrHash | .fhdrLoad | .optDecode | .cpFragSelect | .cpFragRead _ | .cpChecksum
  | .cpVerify | .spNew => true
  | .hdrStore | .fhdrStore | .cpDecode | .spAppend _ | .spFinalize | .sfNew _ | .sfAppend _
  | .sfEmit => false

/-- STATUS.ERR and ERRSEEN lie in no buffer. -/
@[simp] theorem finish_buffer (s : State) (e : Option Err) (sp : Space) :
    (s.finish e).buffer sp = s.buffer sp := by cases sp <;> rfl

/-- What such a command commits leaves every buffer. -/
theorem State.Commits.buffer_eq {P : Config.Params} {s u : State} {i : Instr} (h : s.Commits P i u)
    (hi : storesNothing i = true) (sp : Space) : u.buffer sp = s.buffer sp := by
  cases h with
  | hdrStore | fhdrStore | cpClear | cpDecode | spAppend | spFinalize | sfNew | sfAppend | sfEmit =>
    cases hi
  | nothing | hdrLoad | fhdrLoad | hdrHash | optDecode | cpFragSelect | cpFragRead | cpChecksum
  | cpVerify | spNew => cases sp <;> rfl

/-- So does the whole command. -/
theorem exec_sameBytes {s t : State} {i : Instr} (h : exec i s = .next t)
    (hi : storesNothing i = true) : sameBytes s t := by
  obtain ⟨u, e, hu, rfl⟩ := exec_next h
  intro sp x
  rw [finish_buffer, hu.buffer_eq hi]

/-- Settles O55: the bytes by `exec_sameBytes`, the fields by what the command can commit. NOP and HDR_HASH
raise no error, so that ERRSEEN stays too. -/
theorem frameOfNonStoringCommands : Obligations.FrameOfNonStoringCommands := by
  intro s t
  refine ⟨fun h => ⟨?nop, exec_sameBytes h rfl⟩, fun h => ⟨?_, exec_sameBytes h rfl⟩,
    fun h => ⟨?_, exec_sameBytes h rfl⟩, fun h => ⟨?hdrHash, exec_sameBytes h rfl⟩,
    fun h => ⟨?_, exec_sameBytes h rfl⟩, fun h => ⟨?_, exec_sameBytes h rfl⟩,
    fun n h => ⟨?_, exec_sameBytes h rfl⟩,
    fun h => ⟨?checksums, h.elim (exec_sameBytes · rfl) (exec_sameBytes · rfl)⟩,
    fun h => ⟨?_, exec_sameBytes h rfl⟩⟩
  case nop => obtain rfl := execNop_next h; rfl
  case hdrHash => obtain rfl := execHdrHash_next h; rfl
  case checksums =>
    rcases h with h | h <;> obtain ⟨u, e, hu, rfl⟩ := exec_next h <;> cases hu <;> rfl
  all_goals
    obtain ⟨u, e, hu, rfl⟩ := exec_next h
    cases hu <;> rfl

end Sys2Proof.Machine

/-! ## The fragment header codec family (41_fragment_header_codec.md)

Each outcome of FHDR_LOAD and FHDR_STORE once, as an equation; then encoding as the inverse of decoding. -/

namespace Sys2Proof.Machine

open Sys2Proof

/-! ### FHDR_LOAD and FHDR_STORE (41_fragment_header_codec.md R122, R123) -/

section Commands

variable {s : State}

theorem execFhdrLoad_outOfRange (h : s.rxlen.toNat < s.arg0.toNat) :
    exec .fhdrLoad s = .next (s.finish (some .outOfRange)) := by
  change endCommand s (fhdrLoadBody s) = _
  rw [fhdrLoadBody, State.rxOffset, checkRxSpan_outOfRange h, raise_bind, endCommand_raise]

theorem execFhdrLoad_truncatedInput (hle : s.arg0.toNat ≤ s.rxlen.toNat)
    (hlt : s.rxlen.toNat < s.arg0.toNat + 16) :
    exec .fhdrLoad s = .next (s.finish (some .truncatedInput)) := by
  change endCommand s (fhdrLoadBody s) = _
  rw [fhdrLoadBody, State.rxOffset, Config.fhSize, checkRxSpan_truncated hle hlt, raise_bind,
    endCommand_raise]

/-- No check of the decoded size stands between the decoder and FH. -/
theorem execFhdrLoad_of_decodeFH {k : FragmentHeader} (hin : s.arg0.toNat + 16 ≤ s.rxlen.toNat)
    (hk : decodeFH s.rxSource s.arg0.toNat = .ok k) :
    exec .fhdrLoad s = .next ({ s with fh := k }.finish none) :=
  endCommand_next_iff.2 (.inl ⟨_, fhdrLoadBody_ok_iff.2 ⟨hin, k, hk, rfl⟩, rfl⟩)

theorem execFhdrStore_eq :
    exec .fhdrStore s = .next ({ s with obuf := s.obuf.writeList 0 (fragmentBytes s.fh) }.finish none) :=
  rfl

end Commands

/-- Settles O11: the two bounds by the outcomes above, the fields by `decodeFH_of_bytes`. -/
theorem fhdrLoadReadsAFragmentHeader : Obligations.FhdrLoadReadsAFragmentHeader :=
  ⟨decode_encode (i := .fhdrLoad) rfl, fun _ => ⟨execFhdrLoad_outOfRange, execFhdrLoad_truncatedInput,
    fun _ hin hb => execFhdrLoad_of_decodeFH hin (decodeFH_of_bytes hb)⟩⟩

/-- Settles O12: the store is one list write, which stores exactly its bytes. -/
theorem fhdrStoreWritesSixteenBytes : Obligations.FhdrStoreWritesSixteenBytes :=
  ⟨decode_encode (i := .fhdrStore) rfl, fun s =>
    ⟨_, execFhdrStore_eq, Memory.writeList_storedAt s.obuf 0 (fragmentBytes s.fh)⟩⟩

/-! ### Round trips (41_fragment_header_codec.md R124) -/

/-- Encoding the six fields put together from 16 bytes gives the bytes back, in order. -/
theorem encodeFH_of_bytes (b : Nat → Byte) :
    encodeFH ⟨b 3 ++ b 2 ++ b 1 ++ b 0, b 7 ++ b 6 ++ b 5 ++ b 4, b 9 ++ b 8, b 11 ++ b 10,
      b 13 ++ b 12, b 15 ++ b 14⟩ = (List.range 16).map b := by
  simp only [encodeFH, bytes32, bytes16, word_bytes, half_bytes]
  rfl

theorem decodeFH_encodeFH (h : FragmentHeader) (sp : Space) :
    decodeFH (listSource sp (encodeFH h)) 0 = .ok h :=
  decodeFH_of_fragmentBytes fun j _ => by rw [listSource_get, Nat.zero_add, encodeFH_eq]

/-- A list of 16 bytes is some header's encoding: that of the header it decodes to. -/
theorem exists_decodeFH_encodeFH_eq {b : List Byte} (sp : Space) (hb : b.length = 16) :
    ∃ h, decodeFH (listSource sp b) 0 = .ok h ∧ encodeFH h = b := by
  refine ⟨_, decodeFH_of_bytes (b := fun j => b[j]?.getD 0) fun j hj => ?_, ?_⟩
  · rw [listSource_get, Nat.zero_add, List.getElem?_eq_getElem (by omega), Option.getD_some]
  · refine (encodeFH_of_bytes fun j => b[j]?.getD 0).trans
      (List.ext_getElem (by simp [hb]) fun j _ hj => ?_)
    rw [List.getElem_map, List.getElem_range, List.getElem?_eq_getElem hj, Option.getD_some]

/-- What FHDR_STORE left in OBUF, FHDR_LOAD reads back from RX. -/
theorem execFhdrLoad_after_fhdrStore {s t u : State} (hst : exec .fhdrStore s = .next t)
    (hin : u.arg0.toNat + 16 ≤ u.rxlen.toNat)
    (hcopy : ∀ j, j < 16 → u.rx.read (u.arg0.toNat + j) = t.obuf.read j) :
    exec .fhdrLoad u = .next ({ u with fh := s.fh }.finish none) := by
  obtain rfl := execFhdrStore_next hst
  refine execFhdrLoad_of_decodeFH hin (decodeFH_of_fragmentBytes fun j hj => ?_)
  have hstored := (Memory.writeList_storedAt s.obuf 0 (fragmentBytes s.fh)).1 j hj
  rw [Nat.zero_add] at hstored
  exact (hcopy j hj).trans hstored

/-- Settles O13: both directions of the codec, and `execFhdrLoad_after_fhdrStore` for the host. -/
theorem fragmentHeaderRoundTrip : Obligations.FragmentHeaderRoundTrip :=
  ⟨decodeFH_encodeFH, fun _ sp => exists_decodeFH_encodeFH_eq sp,
    fun _ _ _ hst _ hin hcopy => ⟨_, execFhdrLoad_after_fhdrStore hst hin hcopy, rfl⟩⟩

end Sys2Proof.Machine

/-! ## The packet header codec family (42_packet_header_codec.md)

Each outcome of HDR_LOAD, HDR_STORE and HDR_HASH once, as an equation; then encoding as the inverse of
decoding, and the frames of the commands that store to OBUF, CPD and SFB. -/

namespace Sys2Proof.Machine

open Sys2Proof

/-! ### The header hash (42_packet_header_codec.md R133, R136) -/

/-- The checksum field does not occur in what is hashed: the sentinel stands in its bytes. -/
theorem headerHash_eq (P : Config.Params) (h : PacketHeader) :
    headerHash P h = P.hash32 (packetBytes h P.sentinel) := rfl

/-- Settles O15: what is hashed has no byte of the checksum field. -/
theorem headerHashIgnoresTheChecksum : Obligations.HeaderHashIgnoresTheChecksum := fun P h c => by
  rw [headerHash_eq, packetBytes_checksum, headerHash_eq]

/-! ### HDR_LOAD, HDR_STORE and HDR_HASH (42_packet_header_codec.md R131, R132, R134) -/

section Commands

variable {s : State}

theorem execHdrLoad_outOfRange (h : s.rxlen.toNat < s.arg0.toNat) :
    exec .hdrLoad s = .next (s.finish (some .outOfRange)) := by
  change endCommand s (hdrLoadBody s) = _
  rw [hdrLoadBody, State.rxOffset, checkRxSpan_outOfRange h, raise_bind, endCommand_raise]

theorem execHdrLoad_truncatedInput (hle : s.arg0.toNat ≤ s.rxlen.toNat)
    (hlt : s.rxlen.toNat < s.arg0.toNat + 20) :
    exec .hdrLoad s = .next (s.finish (some .truncatedInput)) := by
  change endCommand s (hdrLoadBody s) = _
  rw [hdrLoadBody, State.rxOffset, Config.phSize, checkRxSpan_truncated hle hlt, raise_bind,
    endCommand_raise]

/-- No check of the decoded size or flags stands between the decoder and HDR. -/
theorem execHdrLoad_of_decodePH {k : PacketHeader} (hin : s.arg0.toNat + 20 ≤ s.rxlen.toNat)
    (hk : decodePH s.rxSource s.arg0.toNat = .ok k) :
    exec .hdrLoad s = .next ({ s with hdr := k }.finish none) :=
  endCommand_next_iff.2 (.inl ⟨_, hdrLoadBody_ok_iff.2 ⟨hin, k, hk, rfl⟩, rfl⟩)

/-- A command that does no more than store to OBUF. -/
theorem endCommand_storeObuf (r : State) (m : Memory) :
    endCommand r (.ok { s with obuf := m }) = .next { s with err := none, obuf := m } := rfl

theorem execHdrStore_eq :
    exec .hdrStore s = .next { s with
      err := none, obuf := s.obuf.writeList 0 (packetBytes s.hdr s.hdr.checksum) } := by
  rw [← encodePH_eq]
  exact endCommand_storeObuf s _

theorem execHdrHash_eq :
    exec .hdrHash s = .next { s with err := none, res := headerHash Config.params s.hdr } := rfl

end Commands

/-- Settles O8: the two bounds by the outcomes above, the fields by `decodePH_of_bytes`. -/
theorem hdrLoadReadsAPacketHeader : Obligations.HdrLoadReadsAPacketHeader :=
  ⟨decode_encode (i := .hdrLoad) rfl, fun _ => ⟨execHdrLoad_outOfRange, execHdrLoad_truncatedInput,
    fun _ hin hb => execHdrLoad_of_decodePH hin (decodePH_of_bytes hb)⟩⟩

/-- Settles O9: the store is one list write, which stores exactly its bytes. -/
theorem hdrStoreWritesTwentyBytes : Obligations.HdrStoreWritesTwentyBytes :=
  ⟨decode_encode (i := .hdrStore) rfl, fun s =>
    ⟨_, execHdrStore_eq, Memory.writeList_storedAt s.obuf 0 (packetBytes s.hdr s.hdr.checksum)⟩⟩

/-- Settles O10: `headerHash_eq` at the machine's configuration, whose sentinel is 0x0BADD70D. -/
theorem hdrHashUsesTheSentinel : Obligations.HdrHashUsesTheSentinel :=
  ⟨decode_encode (i := .hdrHash) rfl, fun s => by rw [execHdrHash_eq, headerHash_eq]; rfl⟩

/-! ### Round trips (42_packet_header_codec.md R135) -/

/-- Encoding the seven fields put together from 20 bytes gives the bytes back, in order. -/
theorem encodePH_of_bytes (b : Nat → Byte) :
    encodePH ⟨b 3 ++ b 2 ++ b 1 ++ b 0, b 7 ++ b 6 ++ b 5 ++ b 4, b 11 ++ b 10 ++ b 9 ++ b 8,
      b 13 ++ b 12, b 15 ++ b 14, b 17 ++ b 16, b 19 ++ b 18⟩ = (List.range 20).map b := by
  simp only [encodePH, bytes32, bytes16, word_bytes, half_bytes]
  rfl

theorem decodePH_encodePH (h : PacketHeader) (sp : Space) :
    decodePH (listSource sp (encodePH h)) 0 = .ok h :=
  decodePH_of_packetBytes fun j _ => by rw [listSource_get, Nat.zero_add, encodePH_eq]

/-- A byte list is the list of its bytes. -/
theorem map_range_getElem_getD (b : List Byte) :
    (List.range b.length).map (fun j => b[j]?.getD 0) = b :=
  List.ext_getElem (by simp) fun j _ hj => by
    rw [List.getElem_map, List.getElem_range, List.getElem?_eq_getElem hj, Option.getD_some]

/-- A list of 20 bytes is some header's encoding: that of the header it decodes to. -/
theorem exists_decodePH_encodePH_eq {b : List Byte} (sp : Space) (hb : b.length = 20) :
    ∃ h, decodePH (listSource sp b) 0 = .ok h ∧ encodePH h = b := by
  have hget (j : Nat) (hj : j < 20) : (listSource sp b).get (0 + j) = some (b[j]?.getD 0) := by
    rw [listSource_get, Nat.zero_add, List.getElem?_eq_getElem (by omega), Option.getD_some]
  refine ⟨_, decodePH_of_bytes hget, ?_⟩
  rw [encodePH_of_bytes fun j => b[j]?.getD 0, ← hb, map_range_getElem_getD]

/-- Settles O14: both directions of the codec. -/
theorem packetHeaderRoundTrip : Obligations.PacketHeaderRoundTrip :=
  ⟨decodePH_encodePH, fun _ sp => exists_decodePH_encodePH_eq sp⟩

/-! ### Commands that store to OBUF, CPD and SFB -/

theorem packetBytes_length (h : PacketHeader) (c : Word) : (packetBytes h c).length = 20 := rfl

/-- A store from address 0 on leaves every byte past what it stores. -/
theorem Memory.storedAt.read_of_le {m m' : Memory} {bs : List Byte} {n x : Nat}
    (h : m.storedAt m' 0 bs) (hn : bs.length = n) (hx : n ≤ x) : m'.read x = m.read x :=
  h.2 x (.inr (by omega))

/-- Settles O56: each next state by the command's outcomes, the bytes by what a store leaves. HDR_STORE,
FHDR_STORE and SF_NEW raise no error, so that ERRSEEN stays too. -/
theorem frameOfBufferStores : Obligations.FrameOfBufferStores := by
  intro s t
  refine ⟨fun h => ?hdrStore, fun h => ?fhdrStore, fun h => ?cpDecode, fun o h => ?sfNew,
    fun n h => ?sfAppend⟩
  case hdrStore =>
    obtain ⟨m, hm, hst⟩ := hdrStoreWritesTwentyBytes.2 s
    obtain rfl := Host.Outcome.next.inj (hm.symm.trans h)
    exact ⟨rfl, fun _ => hst.read_of_le (packetBytes_length s.hdr s.hdr.checksum)⟩
  case fhdrStore =>
    obtain ⟨m, hm, hst⟩ := fhdrStoreWritesSixteenBytes.2 s
    obtain rfl := Host.Outcome.next.inj (hm.symm.trans h)
    exact ⟨rfl, fun _ => hst.read_of_le (encodeFH_length s.fh)⟩
  case cpDecode =>
    rcases execCpDecode_next h with ⟨k, data, r, -, -, hlen, -, -, rfl⟩ | ⟨e, rfl⟩
    · exact ⟨rfl, fun _ => (Memory.writeList_storedAt s.cpd 0 data).read_of_le hlen⟩
    · exact ⟨rfl, fun _ _ => rfl⟩
  case sfNew =>
    obtain rfl := execSfNew_next h
    cases o with
    | false => exact ⟨rfl, fun _ _ => rfl⟩
    | true =>
      exact ⟨rfl, fun _ => (Memory.writeList_storedAt s.sfb 0 _).read_of_le (bytes32_length s.arg1)⟩
  case sfAppend =>
    rcases execSfAppend_next h with ⟨-, -, -, rfl⟩ | ⟨e, rfl⟩
    · refine ⟨rfl, fun x hx => (Memory.writeList_storedAt s.sfb s.sfWp.toNat _).2 x ?_⟩
      rwa [wordBytes_length]
    · exact ⟨rfl, fun _ _ => rfl⟩

end Sys2Proof.Machine

/-! ## The optional header family (43_optional_header.md)

OPT_DECODE through the walk over spans; then the walk without a counted block as one span of fixed size. -/

namespace Sys2Proof.Machine

open Sys2Proof

/-! ### OPT_DECODE (43_optional_header.md R142) -/

section Commands

variable {s : State}

theorem execOptDecode_outOfRange (h : s.rxlen.toNat < s.arg0.toNat) :
    exec .optDecode s = .next (s.finish (some .outOfRange)) := by
  change endCommand s (optDecodeBody Config.params s) = _
  rw [optDecodeBody, State.rxOffset, require_neg (by omega), raise_bind, endCommand_raise]

/-- The region of a state whose counts are `req` and `rej`, measured: its total, if it fits. -/
theorem optWalk_eq_optTotal {req rej : Word} (hle : s.arg0.toNat ≤ s.rxlen.toNat)
    (hc : s.optCounts s.rxlen.toNat req rej)
    (hd : ∀ k, s.optEnd req rej k ≤ s.rxlen.toNat →
      s.rx.definedOn s.arg0.toNat (s.optEnd req rej k)) :
    optWalk Config.params s.hdr.flags s.rxSource s.rxlen.toNat optTable s.arg0.toNat =
      if s.arg0.toNat + optTotal s.hdr.flags req.toNat rej.toNat ≤ s.rxlen.toNat then
        .ok (s.arg0.toNat + optTotal s.hdr.flags req.toNat rej.toNat)
      else raise .truncatedInput := by
  obtain ⟨hreq, hrej⟩ := hc
  have hspans : optWalk Config.params s.hdr.flags s.rxSource s.rxlen.toNat optTable s.arg0.toNat =
      spanWalk s.rxSource s.rxlen.toNat (optSpans s.hdr.flags req.toNat rej.toNat) s.arg0.toNat :=
    optWalk_eq_spanWalk
      (fun hf hin _ hm => Except.ok.inj (hm.symm.trans (le32_of_holds (hreq hf hin))))
      (fun hf hin _ hm => Except.ok.inj (hm.symm.trans (le32_of_holds (hrej hf hin))))
  rw [hspans, ← optSpans_sum]
  exact spanWalk_eq hle hd

theorem execOptDecode_of_optCounts {req rej : Word} (hle : s.arg0.toNat ≤ s.rxlen.toNat)
    (hc : s.optCounts s.rxlen.toNat req rej)
    (hd : ∀ k, s.optEnd req rej k ≤ s.rxlen.toNat →
      s.rx.definedOn s.arg0.toNat (s.optEnd req rej k)) :
    exec .optDecode s = .next
      (if s.arg0.toNat + optTotal s.hdr.flags req.toNat rej.toNat ≤ s.rxlen.toNat then
        { s with res := BitVec.ofNat 32 (optTotal s.hdr.flags req.toNat rej.toNat) }.finish none
      else s.finish (some .truncatedInput)) := by
  change endCommand s (optDecodeBody Config.params s) = _
  rw [optDecodeBody, State.rxOffset, require_pos hle, ok_bind, optLen, optWalk_eq_optTotal hle hc hd]
  split_ifs
  · rw [ok_bind, pure_eq_ok, ok_bind, pure_eq_ok, endCommand_ok, Nat.add_sub_cancel_left]
  · rw [raise_bind, raise_bind, endCommand_raise]

end Commands

/-- Settles O16: the bound, then the walk over the spans of the region. -/
theorem optDecodeMeasuresTheRegion : Obligations.OptDecodeMeasuresTheRegion :=
  ⟨decode_encode (i := .optDecode) rfl, fun _ => ⟨execOptDecode_outOfRange,
    fun _ _ hle hc hd => execOptDecode_of_optCounts hle hc hd⟩⟩

/-! ### What `optLen` depends on (43_optional_header.md R141, "Determinism") -/

section Congr

variable {P Q : Config.Params} {f g : Word} {src : Source} {stop : Nat}

/-- A configuration enters the size of a block by `RETX_UNIT` only. -/
theorem optBlock_congr (hu : P.retxUnit = Q.retxUnit) (p : Nat) (k : OptKind) :
    optBlock P src stop p k = optBlock Q src stop p k := by
  cases k with
  | fixed n => rfl
  | prefixed => rw [optBlock, optBlock, hu]

/-- The flags word and the rest of the configuration enter the walk by which entries are set only. -/
theorem optWalk_congr (hu : P.retxUnit = Q.retxUnit) {l : List (Flag × OptKind)}
    (hl : ∀ c ∈ l, has P f c.1 = has Q g c.1) (p : Nat) :
    optWalk P f src stop l p = optWalk Q g src stop l p := by
  induction l generalizing p with
  | nil => rfl
  | cons c l ih =>
    obtain ⟨hc, hl⟩ := List.forall_mem_cons.1 hl
    rw [optWalk, optWalk, optEntry, optEntry, hc, optBlock_congr hu]
    exact bind_congr_ok fun q _ => ih hl q

end Congr

/-! ### Regions without a counted block (43_optional_header.md R141) -/

/-- The bytes of a block that no count adds to. -/
def OptKind.fixedSize : OptKind → Nat
  | .fixed n  => n
  | .prefixed => 0

/-- The bytes an entry of the table adds to a region without a counted block. -/
def fixedPart (P : Config.Params) (flags : Word) (c : Flag × OptKind) : Nat :=
  if has P flags c.1 then c.2.fixedSize else 0

theorem fixedPart_prefixed (P : Config.Params) (flags : Word) (f : Flag) :
    fixedPart P flags (f, .prefixed) = 0 := ite_self 0

theorem fixedPart_le (P : Config.Params) (flags : Word) (c : Flag × OptKind) :
    fixedPart P flags c ≤ c.2.fixedSize := by
  unfold fixedPart
  split_ifs <;> omega

section Fixed

variable {P : Config.Params} {flags : Word} {src : Source} {stop p q : Nat}

/-- Of two spans that meet, both are defined exactly when their union is. -/
theorem Source.definedOn_add_iff {a m n : Nat} : src.definedOn a (a + (m + n)) ↔
    src.definedOn a (a + m) ∧ src.definedOn (a + m) (a + m + n) := by
  rw [← Nat.add_assoc]
  exact ⟨fun h => ⟨fun x h1 h2 => h x h1 (by omega), fun x h1 h2 => h x (by omega) h2⟩,
    fun ⟨h, h'⟩ => h.append h'⟩

/-- An entry that is not a counted block is a span of its fixed part. -/
theorem optEntry_eq_optSkip {c : Flag × OptKind} (hc : c.2 = .prefixed → has P flags c.1 = false) :
    optEntry P flags src stop p c = optSkip src stop p (fixedPart P flags c) := by
  obtain ⟨f, k⟩ := c
  unfold optEntry fixedPart
  split_ifs with hf
  · cases k with
    | fixed n => rfl
    | prefixed => exact absurd (hc rfl) (by simp [hf])
  · exact (optSkip_zero src stop p).symm

/-- A walk that meets no counted block succeeds exactly when its fixed parts fit and have values. -/
theorem optWalk_ok_iff_of_fixed {l : List (Flag × OptKind)}
    (hl : ∀ c ∈ l, c.2 = .prefixed → has P flags c.1 = false) (hp : p ≤ stop) :
    optWalk P flags src stop l p = .ok q ↔ p + (l.map (fixedPart P flags)).sum ≤ stop ∧
      src.definedOn p (p + (l.map (fixedPart P flags)).sum) ∧
      q = p + (l.map (fixedPart P flags)).sum := by
  induction l generalizing p with
  | nil =>
    have : src.definedOn p p := fun x h1 h2 => absurd h1 (by omega)
    simp [optWalk, hp, this, eq_comm]
  | cons c l ih =>
    obtain ⟨hc, hl⟩ := List.forall_mem_cons.1 hl
    simp only [optWalk, bind_ok_iff, optEntry_eq_optSkip hc, optSkip_ok_iff hp, List.map_cons,
      List.sum_cons, Source.definedOn_add_iff]
    constructor
    · rintro ⟨r, ⟨hr, hd, rfl⟩, h⟩
      obtain ⟨hq, hd', rfl⟩ := (ih hl hr).1 h
      exact ⟨by omega, ⟨hd, hd'⟩, Nat.add_assoc ..⟩
    · rintro ⟨hq, ⟨hd, hd'⟩, rfl⟩
      exact ⟨_, ⟨by omega, hd, rfl⟩,
        (ih hl (by omega)).2 ⟨by omega, hd', (Nat.add_assoc ..).symm⟩⟩

/-- A region without a counted block measures the sum of its fixed parts. -/
theorem optLen_ok_iff_of_fixed {start n : Nat}
    (hl : ∀ c ∈ optTable, c.2 = .prefixed → has P flags c.1 = false) (hp : start ≤ stop) :
    optLen P flags src start stop = .ok n ↔
      start + (optTable.map (fixedPart P flags)).sum ≤ stop ∧
      src.definedOn start (start + (optTable.map (fixedPart P flags)).sum) ∧
      n = (optTable.map (fixedPart P flags)).sum := by
  simp only [optLen, bind_ok_iff, optWalk_ok_iff_of_fixed hl hp, pure_eq_ok, Except.ok.injEq]
  constructor
  · rintro ⟨_, ⟨hq, hd, rfl⟩, rfl⟩
    exact ⟨hq, hd, Nat.add_sub_cancel_left ..⟩
  · rintro ⟨hq, hd, rfl⟩
    exact ⟨_, ⟨hq, hd, rfl⟩, Nat.add_sub_cancel_left ..⟩

/-- The table's only counted blocks are the two retransmit blocks (30_encoding.md R82). -/
theorem has_eq_false_of_prefixed (hreq : has P flags .requestRetransmit = false)
    (hrej : has P flags .rejectRetransmit = false) :
    ∀ c ∈ optTable, c.2 = .prefixed → has P flags c.1 = false := by
  simp [optTable, hreq, hrej]

/-- All fixed blocks of the table together take 46 bytes. -/
theorem sum_fixedPart_le (P : Config.Params) (flags : Word) :
    (optTable.map (fixedPart P flags)).sum ≤ 46 :=
  List.sum_le_sum (g := fun c => c.2.fixedSize) fun c _ => fixedPart_le P flags c

/-- The fixed parts under AckSequence and TimeSync alone. -/
theorem sum_fixedPart_of_ackSequence_timeSync
    (h : ∀ c ∈ optTable, has P flags c.1 = true ↔ (c.1 = .ackSequence ∨ c.1 = .timeSync)) :
    (optTable.map (fixedPart P flags)).sum = 12 := by
  have hmap : optTable.map (fixedPart P flags) =
      optTable.map fun c => if c.1 = .ackSequence ∨ c.1 = .timeSync then c.2.fixedSize else 0 :=
    List.map_congr_left fun c hc => if_congr (h c hc) rfl rfl
  rw [hmap]
  rfl

end Fixed

/-! ### Counted blocks (43_optional_header.md R141) -/

/-- A counted block whose count reads `n` takes 4 bytes and `n` units, if they fit. -/
theorem optBlock_prefixed {P : Config.Params} {src : Source} {stop p : Nat} {n : Word}
    (hp : p + 4 ≤ stop) (hd : src.definedOn p stop) (hn : le32 src p = .ok n) :
    optBlock P src stop p .prefixed =
      if p + (4 + n.toNat * P.retxUnit) ≤ stop then .ok (p + (4 + n.toNat * P.retxUnit))
      else raise .truncatedInput := by
  rw [optBlock, require_pos (by omega), ok_bind, hn, ok_bind,
    optSkip_eq hp fun hle x h1 h2 => hd x (by omega) (by omega), Nat.add_assoc]

/-- Settles O17: each property by the lemma above that states it. -/
theorem optLenProperties : Obligations.OptLenProperties := by
  refine ⟨?determined, ?twelve, ?fixed, fun _ _ _ _ _ hp hd hn => optBlock_prefixed hp hd hn,
    ?empty, fun _ _ _ _ _ _ hle h => optLen_le hle h⟩
  case determined =>
    intro P Q f g src start stop hu hfg
    rw [optLen, optLen, optWalk_congr hu hfg]
  case twelve =>
    intro P f src start stop hf hle hd
    have hkind : ∀ c ∈ optTable, c.2 = .prefixed → ¬(c.1 = .ackSequence ∨ c.1 = .timeSync) := by
      decide
    have hfixed : ∀ c ∈ optTable, c.2 = .prefixed → has P f c.1 = false := fun c hc hk =>
      Bool.eq_false_iff.2 (mt (hf c hc).1 (hkind c hc hk))
    refine (optLen_ok_iff_of_fixed hfixed (by omega)).2 ?_
    rw [sum_fixedPart_of_ackSequence_timeSync hf]
    exact ⟨hle, fun x h1 h2 => hd x h1 (by omega), rfl⟩
  case fixed =>
    intro P f src start stop n hle hreq hrej h
    obtain ⟨-, -, rfl⟩ := (optLen_ok_iff_of_fixed (has_eq_false_of_prefixed hreq hrej) hle).1 h
    refine ⟨congrArg List.sum (List.map_congr_left fun c _ => ?_), sum_fixedPart_le P f⟩
    obtain ⟨fl, k⟩ := c
    cases k with
    | fixed k => rfl
    | prefixed => exact fixedPart_prefixed P f fl
  case empty =>
    intro P f src start stop hf
    rw [optLen, optWalk_none hf, ok_bind, pure_eq_ok, Nat.sub_self]

end Sys2Proof.Machine

/-! ## The fragment codec family (44_fragment_codec.md)

The fragment loop against fragments that decode back to back (`fragsFrom`); then each outcome of the five
fragment commands once, as an equation. -/

namespace Sys2Proof.Machine

open Sys2Proof

/-! ### One fragment (44_fragment_codec.md R150, R152, 60_exceptions.md R206) -/

section Decode

variable {src : Source} {p stop : Nat} {h : FragmentHeader}

theorem fragDecode_of_noHeaderRoom (hlt : stop < p + 16) :
    fragDecode src p stop = raise .truncatedInput := by
  rw [fragDecode, require_neg (by omega), raise_bind]

/-- With room for the header, the two checks of its size decide. -/
theorem fragDecode_of_decodeFH (hroom : p + 16 ≤ stop) (hd : decodeFH src p = .ok h) :
    fragDecode src p stop =
      if h.size.toNat < 16 then raise .invalidFragmentSize
      else if stop < p + h.size.toNat then raise .truncatedInput
      else .ok h := by
  rw [fragDecode, require_pos (by omega), ok_bind, hd, ok_bind]
  split_ifs with hsize hend
  · rw [require_neg (by omega), raise_bind]
  · rw [require_pos (by omega), ok_bind, require_neg (by omega), raise_bind]
  · rw [require_pos (by omega), ok_bind, require_pos (by omega), ok_bind, pure_eq_ok]

end Decode

/-! ### Fragments back to back (44_fragment_codec.md R151) -/

/-- The bytes that listed fragments take. -/
def fragBytes (l : List (Nat × FragmentHeader)) : Nat := (l.map (fun f => f.2.size.toNat)).sum

theorem fragBytes_cons (f : Nat × FragmentHeader) (l : List (Nat × FragmentHeader)) :
    fragBytes (f :: l) = f.2.size.toNat + fragBytes l := rfl

/-- Each fragment of the list lies where the sizes before it end, counted from `p`, and decodes there. The
list need not reach `stop`. -/
def fragsFrom (src : Source) (stop p : Nat) (l : List (Nat × FragmentHeader)) : Prop :=
  ∀ i f, l[i]? = some f → f.1 = p + fragBytes (l.take i) ∧ fragDecode src f.1 stop = .ok f.2

section Loop

variable {src : Source} {stop p fuel : Nat} {l : List (Nat × FragmentHeader)}

theorem fragsFrom_nil : fragsFrom src stop p [] := nofun

theorem fragsFrom_cons_iff {f : Nat × FragmentHeader} : fragsFrom src stop p (f :: l) ↔
    f.1 = p ∧ fragDecode src p stop = .ok f.2 ∧ fragsFrom src stop (p + f.2.size.toNat) l := by
  constructor
  · intro h
    obtain ⟨hf, hd⟩ := h 0 f rfl
    have hf : f.1 = p := hf
    refine ⟨hf, hf ▸ hd, fun i g hg => ?_⟩
    have htail := h (i + 1) g hg
    rwa [List.take_succ_cons, fragBytes_cons, ← Nat.add_assoc] at htail
  · rintro ⟨hf, hd, htail⟩ i g hg
    cases i with
    | zero =>
      obtain rfl : f = g := Option.some.inj hg
      exact ⟨hf, hf.symm ▸ hd⟩
    | succ i =>
      rw [List.take_succ_cons, fragBytes_cons, ← Nat.add_assoc]
      exact htail i g hg

/-- To tile a span is to lie back to back from its start and to end at its end. -/
theorem fragsOf_iff : fragsOf src stop p l ↔ fragsFrom src stop p l ∧ p + fragBytes l = stop := by
  induction l generalizing p with
  | nil => exact ⟨fun h => ⟨fragsFrom_nil, h⟩, fun h => h.2⟩
  | cons f l ih =>
    rw [fragsOf, ih, fragsFrom_cons_iff, fragBytes_cons, ← Nat.add_assoc]
    constructor
    · rintro ⟨hf, -, hd, htail, hend⟩
      exact ⟨⟨hf, hd, htail⟩, hend⟩
    · rintro ⟨⟨hf, hd, htail⟩, hend⟩
      obtain ⟨-, hsize, hin⟩ := fragDecode_ok hd
      exact ⟨hf, by omega, hd, htail, hend⟩

/-- No fragment takes fewer than the 16 bytes of its header. -/
theorem fragsFrom.length_mul_sixteen_le (h : fragsFrom src stop p l) :
    l.length * 16 ≤ fragBytes l := by
  induction l generalizing p with
  | nil => exact Nat.zero_le _
  | cons f l ih =>
    obtain ⟨-, hd, htail⟩ := fragsFrom_cons_iff.1 h
    obtain ⟨-, hsize, -⟩ := fragDecode_ok hd
    have := ih htail
    rw [fragBytes_cons, List.length_cons]
    omega

/-- The loop passes the fragments that decode and stops at the first that does not. -/
theorem fragLoop_eq_error {e : Stop} (h : fragsFrom src stop p l) (hfuel : stop - p ≤ fuel)
    (hlt : p + fragBytes l < stop) (he : fragDecode src (p + fragBytes l) stop = .error e) :
    fragLoop src stop fuel p = .error e := by
  induction l generalizing p fuel with
  | nil =>
    obtain ⟨fuel, rfl⟩ : ∃ k, fuel = k + 1 := Nat.exists_eq_add_one.2 (by omega)
    have he : fragDecode src p stop = .error e := he
    rw [fragLoop, if_pos (by omega), he, error_bind]
  | cons f l ih =>
    obtain ⟨fuel, rfl⟩ : ∃ k, fuel = k + 1 := Nat.exists_eq_add_one.2 (by omega)
    obtain ⟨-, hd, htail⟩ := fragsFrom_cons_iff.1 h
    obtain ⟨-, hsize, -⟩ := fragDecode_ok hd
    rw [fragBytes_cons, ← Nat.add_assoc] at hlt he
    rw [fragLoop, if_pos (by omega), hd, ok_bind, ih htail (by omega) hlt he, error_bind]

end Loop

/-- Settles O18: one fragment by its checks, a list that is answered by `fragsOf_iff`, and the converse by
the same and `fragLoop_eq_error`. -/
theorem fragListFillsTheSpan : Obligations.FragListFillsTheSpan := by
  refine ⟨fun src p stop => ⟨fragDecode_of_noHeaderRoom, fun h hroom hd => ?oneFragment⟩,
    fun src start stop l hle hl => ?answered, fun src start stop l hl => ⟨fun hend => ?ok, ?error⟩⟩
  case oneFragment =>
    rw [fragDecode_of_decodeFH hroom hd]
    exact ⟨fun hsize => if_pos hsize,
      fun hsize hend => (if_neg (by omega)).trans (if_pos hend),
      fun hsize hend => (if_neg (by omega)).trans (if_neg (by omega))⟩
  case answered =>
    obtain ⟨hfrom, hend⟩ := fragsOf_iff.1 ((fragList_ok_iff hle).1 hl)
    have hcount := hfrom.length_mul_sixteen_le
    refine ⟨hend, (Nat.le_div_iff_mul_le (by decide)).2 (by omega), fun i f hf => ?_⟩
    obtain ⟨hoff, hd⟩ := hfrom i f hf
    obtain ⟨hheader, hsize, -⟩ := fragDecode_ok hd
    exact ⟨hoff, hsize, hheader⟩
  case ok => exact (fragList_ok_iff (by omega)).2 (fragsOf_iff.2 ⟨hl, hend⟩)
  case error => exact fun e hlt he => fragLoop_eq_error hl (Nat.le_refl _) hlt he

/-! ### CP_FRAG_SELECT (44_fragment_codec.md R153) -/

section FragSelect

variable {s : State}

theorem execCpFragSelect_stateError (hv : s.cpValid = false) :
    exec .cpFragSelect s = .next (s.finish (some .stateError)) := by
  change endCommand s (cpFragSelectBody s) = _
  rw [cpFragSelectBody, require_neg (by simp [hv]), raise_bind, endCommand_raise]

theorem execCpFragSelect_outOfRange (hv : s.cpValid = true) (hi : s.cpNfrag ≤ s.arg0.toNat) :
    exec .cpFragSelect s = .next (s.finish (some .outOfRange)) := by
  change endCommand s (cpFragSelectBody s) = _
  rw [cpFragSelectBody, require_pos hv, ok_bind, State.fragIndex, List.getElem?_eq_none hi]
  rfl

theorem execCpFragSelect_of_getElem? {f : FragEntry} (hv : s.cpValid = true)
    (hf : s.frags[s.arg0.toNat]? = some f) :
    exec .cpFragSelect s = .next
      ({ s with fh := f.hdr, cpFsel := s.arg0, res := BitVec.ofNat 32 f.left }.finish none) :=
  endCommand_next_iff.2 (.inl ⟨_, cpFragSelectBody_ok_iff.2 ⟨hv, f, hf, rfl⟩, rfl⟩)

end FragSelect

/-- Settles O21: the three outcomes above. -/
theorem cpFragSelectLoadsTheFragment : Obligations.CpFragSelectLoadsTheFragment :=
  ⟨decode_encode (i := .cpFragSelect) rfl, fun _ => ⟨execCpFragSelect_stateError,
    execCpFragSelect_outOfRange, fun _ => execCpFragSelect_of_getElem?⟩⟩

/-! ### Command words with a count -/

/-- A CN word as a number: its count above its opcode (30_encoding.md R90). -/
theorem encodeCN_eq_ofNat (opc : BitVec 8) (n : BitVec 3) :
    encodeCN opc n = BitVec.ofNat 32 (n.toNat * 256 + opc.toNat) := by
  have hopc := opc.isLt
  have hn := n.isLt
  apply BitVec.eq_of_toNat_eq
  rw [encodeCN, toNat_append_add, toNat_append_add, BitVec.toNat_ofNat, BitVec.toNat_ofNat]
  omega

/-- The word of a well-formed command of format CN decodes to it. -/
theorem decode_ofNat_count {i : Instr} {opc : BitVec 8} {n : BitVec 3} (hi : i.WellFormed)
    (henc : encode i = encodeCN opc n) :
    decode (BitVec.ofNat 32 (n.toNat * 256 + opc.toNat)) = .ok i := by
  rw [← encodeCN_eq_ofNat, ← henc]
  exact decode_encode hi

/-! ### CP_FRAG_READ (44_fragment_codec.md R154) -/

section FragRead

variable {s : State} {n : BitVec 3} {f : FragEntry}

theorem execCpFragRead_stateError (hn : countLegal n) (hv : s.cpValid = false) :
    exec (.cpFragRead n) s = .next (s.finish (some .stateError)) := by
  change endCommand s (cpFragReadBody n s) = _
  rw [cpFragReadBody, byteCount_legal hn, ok_bind, require_neg (by simp [hv]), raise_bind,
    endCommand_raise]

theorem execCpFragRead_outOfRange (hn : countLegal n) (hv : s.cpValid = true)
    (hi : s.cpNfrag ≤ s.cpFsel.toNat) :
    exec (.cpFragRead n) s = .next (s.finish (some .outOfRange)) := by
  change endCommand s (cpFragReadBody n s) = _
  rw [cpFragReadBody, byteCount_legal hn, ok_bind, require_pos hv, ok_bind, List.getElem?_eq_none hi]
  rfl

theorem execCpFragRead_truncatedInput (hn : countLegal n) (hv : s.cpValid = true)
    (hf : s.frags[s.cpFsel.toNat]? = some f) (hlt : f.left < n.toNat) :
    exec (.cpFragRead n) s = .next (s.finish (some .truncatedInput)) := by
  change endCommand s (cpFragReadBody n s) = _
  rw [cpFragReadBody, byteCount_legal hn, ok_bind, require_pos hv, ok_bind, hf]
  dsimp only
  rw [require_neg (by omega), raise_bind, endCommand_raise]

theorem execCpFragRead_of_bytes {bs : List Byte} (hn : countLegal n) (hv : s.cpValid = true)
    (hf : s.frags[s.cpFsel.toNat]? = some f) (hle : n.toNat ≤ f.left)
    (hbs : (s.cpd.source .cpd).bytes (f.off + 16 + f.cur) n.toNat = .ok bs) :
    exec (.cpFragRead n) s = .next ({ s with
      res := bytesWord bs
      frags := s.frags.set s.cpFsel.toNat { f with cur := f.cur + n.toNat } }.finish none) :=
  endCommand_next_iff.2 (.inl ⟨_, cpFragReadBody_ok_iff.2 ⟨hn, hv, f, hf, hle, bs, hbs, rfl⟩, rfl⟩)

end FragRead

/-- A buffer whose bytes have the values `b` gives them when read. -/
theorem Memory.bytes_of_read {m : Memory} {sp : Space} {a n : Nat} {b : Nat → Byte}
    (h : ∀ j, j < n → m.read (a + j) = some (b j)) :
    (m.source sp).bytes a n = .ok ((List.range n).map b) :=
  Memory.bytes_of_holds (by simp) fun j hj => by
    have hj : j < n := by simpa using hj
    rw [h j hj, List.getElem?_map, List.getElem?_range hj, Option.map_some]

/-- Read bytes put into a register, with 0 above them (20_memory.md R63). -/
theorem bytesWord_map_range_byte (b : Nat → Byte) (n : Nat) {j : Nat} (hj : j < 4) :
    (bytesWord ((List.range n).map b)).extractLsb' (8 * j) 8 = if j < n then b j else 0#8 := by
  rw [bytesWord_byte _ j hj, List.getElem?_map]
  split_ifs with hjn
  · rw [List.getElem?_range hjn, Option.map_some, Option.getD_some]
  · rw [List.getElem?_eq_none (by rw [List.length_range]; omega), Option.map_none, Option.getD_none]

/-- Settles O22: the four outcomes above, RES byte by byte by `bytesWord_map_range_byte`. -/
theorem cpFragReadMovesTheCursor : Obligations.CpFragReadMovesTheCursor := fun n hn =>
  ⟨decode_ofNat_count (i := .cpFragRead n) (opc := 0x12#8) (decide_eq_true hn) rfl, fun _ =>
    ⟨execCpFragRead_stateError hn, execCpFragRead_outOfRange hn, fun _ hv hf =>
      ⟨execCpFragRead_truncatedInput hn hv hf, fun b hle hb =>
        ⟨_, execCpFragRead_of_bytes hn hv hf hle (Memory.bytes_of_read hb),
          fun _ => bytesWord_map_range_byte b n.toNat⟩⟩⟩⟩

/-! ### SF_NEW (44_fragment_codec.md R156) -/

/-- The header SF_NEW gives a fragment: its group is the low half of ARG0. -/
theorem newFragment_eq (s : State) : { FragmentHeader.zero with group := s.arg0Half } =
    ⟨0#32, 0#32, 0#16, 0#16, 0#16, s.arg0.extractLsb' 0 16⟩ := by
  rw [State.arg0Half, BitVec.setWidth_eq_extractLsb' (by decide)]
  rfl

theorem execSfNew_eq (o : Bool) (s : State) : exec (.sfNew o) s = .next { s with
    err := none, sfHdr := ⟨0#32, 0#32, 0#16, 0#16, 0#16, s.arg0.extractLsb' 0 16⟩
    sfb := if o then s.sfb.writeList 0 (wordLE s.arg1) else s.sfb
    sfWp := if o then 4#32 else 0#32
    sfState := .filling } := by
  rw [← newFragment_eq]
  rfl

/-- Settles O28: `execSfNew_eq` in both forms; the store is one list write. -/
theorem sfNewStartsAFragment : Obligations.SfNewStartsAFragment :=
  ⟨decode_encode (i := .sfNew false) rfl, decode_encode (i := .sfNew true) rfl, fun s =>
    ⟨execSfNew_eq false s, _, execSfNew_eq true s, Memory.writeList_storedAt s.sfb 0 _⟩⟩

/-! ### SF_APPEND (44_fragment_codec.md R157) -/

section SfAppend

variable {s : State} {n : BitVec 3}

theorem execSfAppend_stateError (hn : countLegal n) (hs : s.sfState ≠ .filling) :
    exec (.sfAppend n) s = .next (s.finish (some .stateError)) := by
  change endCommand s (sfAppendBody n s) = _
  rw [sfAppendBody, byteCount_legal hn, ok_bind, require_neg hs, raise_bind, endCommand_raise]

theorem execSfAppend_oversizedPayload (hn : countLegal n) (hs : s.sfState = .filling)
    (hlt : 448 < s.sfWp.toNat + n.toNat) :
    exec (.sfAppend n) s = .next (s.finish (some .oversizedPayload)) := by
  change endCommand s (sfAppendBody n s) = _
  rw [sfAppendBody, byteCount_legal hn, ok_bind, require_pos hs, ok_bind, Config.sfbSize,
    require_neg (by omega), raise_bind, endCommand_raise]

theorem execSfAppend_of_le (hn : countLegal n) (hs : s.sfState = .filling)
    (hle : s.sfWp.toNat + n.toNat ≤ 448) :
    exec (.sfAppend n) s = .next ({ s with
      sfb := s.sfb.writeList s.sfWp.toNat (lowBytes s.arg1 n.toNat)
      sfWp := BitVec.ofNat 32 (s.sfWp.toNat + n.toNat) }.finish none) := by
  rw [← wordBytes_eq_lowBytes s.arg1 hn]
  exact endCommand_next_iff.2 (.inl ⟨_, sfAppendBody_ok_iff.2 ⟨hn, hs, hle, rfl⟩, rfl⟩)

end SfAppend

/-- Settles O29: the three outcomes above; the store is one list write. -/
theorem sfAppendAddsPayload : Obligations.SfAppendAddsPayload := fun n hn =>
  ⟨decode_ofNat_count (i := .sfAppend n) (opc := 0x29#8) (decide_eq_true hn) rfl, fun s =>
    ⟨execSfAppend_stateError hn, execSfAppend_oversizedPayload hn, fun hs hle =>
      ⟨_, execSfAppend_of_le hn hs hle, Memory.writeList_storedAt s.sfb _ _⟩⟩⟩

/-! ### SF_EMIT (44_fragment_codec.md R158) -/

section SfEmit

variable {s : State}

theorem execSfEmit_stateError (hs : s.sfState ≠ .filling ∨ s.spState ≠ .filling) :
    exec .sfEmit s = .next (s.finish (some .stateError)) := by
  change endCommand s (sfEmitBody s) = _
  rw [sfEmitBody, require_neg (not_and_or.2 hs), raise_bind, endCommand_raise]

theorem execSfEmit_oversizedPayload (hsf : s.sfState = .filling) (hsp : s.spState = .filling)
    (hlt : 448 < s.spWp.toNat + s.sfTotal) :
    exec .sfEmit s = .next (s.finish (some .oversizedPayload)) := by
  change endCommand s (sfEmitBody s) = _
  rw [sfEmitBody, require_pos ⟨hsf, hsp⟩, ok_bind, Config.maxDataSize, require_neg (by omega),
    raise_bind, endCommand_raise]

/-- What TX holds afterwards is named, so that its writes are never unfolded. -/
theorem execSfEmit_of_holds {payload : List Byte} (hsf : s.sfState = .filling)
    (hsp : s.spState = .filling) (hle : s.spWp.toNat + s.sfTotal ≤ 448)
    (hlen : payload.length = s.sfWp.toNat) (hb : s.sfb.holds 0 payload) :
    ∃ m, exec .sfEmit s = .next ({ s with
        tx := m, spWp := BitVec.ofNat 32 (s.spWp.toNat + s.sfTotal)
        sfHdr := s.emitted, sfState := .empty, sfWp := 0#32 }.finish none)
      ∧ s.tx.storedAt m (20 + s.spWp.toNat) (fragmentBytes s.emitted ++ payload) :=
  ⟨_, endCommand_next_iff.2 (.inl
      ⟨_, sfEmitBody_ok_iff.2 ⟨hsf, hsp, hle, payload, Memory.bytes_of_holds hlen hb, rfl⟩, rfl⟩),
    Memory.writeList_storedAt s.tx _ _⟩

end SfEmit

/-- Settles O30: the three outcomes above. -/
theorem sfEmitAppendsTheFragment : Obligations.SfEmitAppendsTheFragment :=
  ⟨decode_encode (i := .sfEmit) rfl, fun _ => ⟨execSfEmit_stateError, execSfEmit_oversizedPayload,
    fun _ hsf hsp hle hlen hb => execSfEmit_of_holds hsf hsp hle hlen hb⟩⟩

end Sys2Proof.Machine

/-! ## The packet assembler family (45_packet_assembler.md)

Each outcome of CP_DECODE, SP_NEW, SP_APPEND and SP_FINALIZE once, as an equation. Fragments laid out back
to back are then found again, and a receiver holds what a sender sent. -/

namespace Sys2Proof.Machine

open Sys2Proof

/-! ### The data region (45_packet_assembler.md R170) -/

section RegionParse

variable {P : Config.Params} {flags : Word} {data : List Byte} {n : Nat}

theorem regionFrags_of_blob {src : Source} {stop : Nat} (hb : has P flags .blobFragments = true) :
    regionFrags P flags src n stop = fragList src n stop := if_pos hb

theorem regionFrags_of_plain {src : Source} {stop : Nat} (hb : has P flags .blobFragments = false) :
    regionFrags P flags src n stop = .ok [] := if_neg (by simp [hb])

/-- A region with an optional part of `n` bytes is parsed as its fragments are. -/
theorem regionParse_of_optLen (hn : optLen P flags (listSource .cpd data) 0 data.length = .ok n) :
    regionParse P flags data = (regionFrags P flags (listSource .cpd data) n data.length >>= fun l =>
      .ok ⟨n, l⟩) := by
  rw [regionParse, hn, ok_bind]
  rfl

end RegionParse

/-- Settles O58: the optional part by itself, then the fragments under each value of BlobFragments. -/
theorem regionParseJoinsItsParts : Obligations.RegionParseJoinsItsParts := by
  intro P flags data src
  refine ⟨fun e he => ?optional, fun n hn => ?fragments⟩
  case optional => rw [regionParse, he, error_bind]
  case fragments =>
    rw [regionParse_of_optLen hn]
    refine ⟨fun hb => ?_, fun hb => ⟨fun e he => ?_, fun l hl => ?_⟩⟩
    · rw [regionFrags_of_plain hb, ok_bind]
    · rw [regionFrags_of_blob hb, he, error_bind]
    · rw [regionFrags_of_blob hb, hl, ok_bind]

/-! ### CP_DECODE (45_packet_assembler.md R171) -/

/-- A buffer that holds a packet header's bytes decodes to it. -/
theorem Memory.decodePH_of_holds {m : Memory} {sp : Space} {h : PacketHeader}
    (hb : m.holds 0 (packetBytes h h.checksum)) : decodePH (m.source sp) 0 = .ok h :=
  decodePH_of_packetBytes fun j hj => hb j hj

section CpDecode

variable {s : State} {h : PacketHeader} {data : List Byte}

theorem execCpDecode_noHeader (hlt : s.rxlen.toNat < 20) :
    exec .cpDecode s = .next (s.clientGone .truncatedInput) := by
  change endCommand s.clearClient (cpDecodeBody Config.params s) = _
  rw [cpDecodeBody, Config.phSize, require_neg (by omega), raise_bind, endCommand_raise]
  rfl

theorem execCpDecode_invalidFlags (hin : 20 ≤ s.rxlen.toNat)
    (hh : s.rx.holds 0 (packetBytes h h.checksum)) (hf : flagsValid Config.params h.flags = false) :
    exec .cpDecode s = .next (s.clientGone .invalidFlagCombination) := by
  change endCommand s.clearClient (cpDecodeBody Config.params s) = _
  rw [cpDecodeBody, Config.phSize, require_pos hin, ok_bind, State.rxSource,
    Memory.decodePH_of_holds hh, ok_bind, require_neg (by simp [hf]), raise_bind, endCommand_raise]
  rfl

theorem execCpDecode_truncatedData (hin : 20 ≤ s.rxlen.toNat)
    (hh : s.rx.holds 0 (packetBytes h h.checksum)) (hf : flagsValid Config.params h.flags = true)
    (hlt : s.rxlen.toNat < 20 + h.size.toNat) :
    exec .cpDecode s = .next (s.clientGone .truncatedInput) := by
  change endCommand s.clearClient (cpDecodeBody Config.params s) = _
  rw [cpDecodeBody, Config.phSize, require_pos hin, ok_bind, State.rxSource,
    Memory.decodePH_of_holds hh, ok_bind, require_pos hf, ok_bind, require_neg (by omega), raise_bind,
    endCommand_raise]
  rfl

theorem execCpDecode_regionError {e : Err} (hh : s.rx.holds 0 (packetBytes h h.checksum))
    (hf : flagsValid Config.params h.flags = true) (hlen : data.length = h.size.toNat)
    (hin : 20 + h.size.toNat ≤ s.rxlen.toNat) (hd : s.rx.holds 20 data)
    (hr : regionParse Config.params h.flags data = .error (.err e)) :
    exec .cpDecode s = .next (s.clientGone e) := by
  change endCommand s.clearClient (cpDecodeBody Config.params s) = _
  rw [cpDecodeBody, Config.phSize, require_pos (by omega), ok_bind, State.rxSource,
    Memory.decodePH_of_holds hh, ok_bind, require_pos hf, ok_bind, require_pos (by omega), ok_bind,
    Memory.bytes_of_holds hlen hd, ok_bind, hr, error_bind, endCommand_err]
  rfl

/-- What CPD holds afterwards is named, so that its writes are never unfolded. -/
theorem execCpDecode_of_regionParse {r : Region} (hh : s.rx.holds 0 (packetBytes h h.checksum))
    (hf : flagsValid Config.params h.flags = true) (hlen : data.length = h.size.toNat)
    (hin : 20 + h.size.toNat ≤ s.rxlen.toNat) (hd : s.rx.holds 20 data)
    (hr : regionParse Config.params h.flags data = .ok r) :
    ∃ m, exec .cpDecode s = .next ({ s with
        cpd := m, cpHdr := h, cpOptlen := BitVec.ofNat 32 r.optLen
        frags := r.entries, cpFsel := 0#32, cpValid := true }.finish none)
      ∧ s.cpd.storedAt m 0 data :=
  ⟨_, endCommand_next_iff.2 (.inl ⟨_, cpDecodeBody_ok_iff.2
      ⟨by omega, h, Memory.decodePH_of_holds hh, hf, hin, data, Memory.bytes_of_holds hlen hd, r, hr,
        rfl⟩, rfl⟩),
    Memory.writeList_storedAt s.cpd 0 data⟩

end CpDecode

/-- Settles O19: the five outcomes above. -/
theorem cpDecodeHoldsOrClearsThePacket : Obligations.CpDecodeHoldsOrClearsThePacket :=
  ⟨decode_encode (i := .cpDecode) rfl, fun _ => ⟨execCpDecode_noHeader, fun _ hin hh =>
    ⟨execCpDecode_invalidFlags hin hh, execCpDecode_truncatedData hin hh, fun _ hf hlen hin hd =>
      ⟨fun _ => execCpDecode_regionError hh hf hlen hin hd,
        fun _ => execCpDecode_of_regionParse hh hf hlen hin hd⟩⟩⟩⟩

/-! ### Fragments laid out back to back (45_packet_assembler.md R172) -/

/-- A buffer holds two byte lists joined exactly when it holds each where it lies. -/
theorem Memory.holds_append_iff {m : Memory} {a : Nat} {bs cs : List Byte} :
    m.holds a (bs ++ cs) ↔ m.holds a bs ∧ m.holds (a + bs.length) cs := by
  constructor
  · refine fun h => ⟨fun j hj => ?_, fun j hj => ?_⟩
    · rw [h j (by rw [List.length_append]; omega), List.getElem?_append_left hj]
    · rw [Nat.add_assoc, h (bs.length + j) (by rw [List.length_append]; omega),
        List.getElem?_append_right (Nat.le_add_right ..), Nat.add_sub_cancel_left]
  · rintro ⟨hb, hc⟩ j hj
    rw [List.length_append] at hj
    rcases Nat.lt_or_ge j bs.length with hlt | hge
    · rw [hb j hlt, List.getElem?_append_left hlt]
    · obtain ⟨k, rfl⟩ := Nat.exists_eq_add_of_le hge
      rw [← Nat.add_assoc, hc k (by omega), List.getElem?_append_right hge, Nat.add_sub_cancel_left]

/-- The bytes of fragments back to back: each its header and its payload. -/
def wireBytes (parts : List (FragmentHeader × List Byte)) : List Byte :=
  parts.flatMap (fun p => fragmentBytes p.1 ++ p.2)

/-- The fragments with their offsets, laid out back to back from `p` on. -/
def layOut (p : Nat) : List (FragmentHeader × List Byte) → List (Nat × FragmentHeader)
  | []      => []
  | q :: qs => (p, q.1) :: layOut (p + q.1.size.toNat) qs

section LayOut

variable {p : Nat} {parts : List (FragmentHeader × List Byte)}

theorem wireBytes_cons (q : FragmentHeader × List Byte) (qs : List (FragmentHeader × List Byte)) :
    wireBytes (q :: qs) = fragmentBytes q.1 ++ (q.2 ++ wireBytes qs) := by
  rw [wireBytes, List.flatMap_cons, List.append_assoc]
  rfl

/-- Sizes that count header and payload sum to the bytes on the wire. -/
theorem wireBytes_length (hsize : ∀ q ∈ parts, q.1.size.toNat = 16 + q.2.length) :
    (wireBytes parts).length = (parts.map (fun q => q.1.size.toNat)).sum := by
  have hpart : ∀ q ∈ parts, (fragmentBytes q.1 ++ q.2).length = q.1.size.toNat := fun q hq =>
    List.length_append.trans (hsize q hq).symm
  rw [wireBytes, List.length_flatMap, List.map_congr_left hpart]

theorem layOut_length : (layOut p parts).length = parts.length := by
  induction parts generalizing p with
  | nil => rfl
  | cons q qs ih => exact congrArg (· + 1) ih

/-- Each fragment lies where the sizes before it end. -/
theorem layOut_getElem? {i : Nat} {q : FragmentHeader × List Byte} (hq : parts[i]? = some q) :
    (layOut p parts)[i]? = some (p + ((parts.take i).map (fun q => q.1.size.toNat)).sum, q.1) := by
  induction parts generalizing p i with
  | nil => cases hq
  | cons q' qs ih =>
    cases i with
    | zero =>
      obtain rfl : q' = q := Option.some.inj hq
      rfl
    | succ i =>
      rw [layOut, List.getElem?_cons_succ, ih hq, List.take_succ_cons, List.map_cons, List.sum_cons,
        Nat.add_assoc]

/-- Where a source has the bytes of fragments back to back, the fragments tile their span. -/
theorem fragsOf_layOut {src : Source} (hsize : ∀ q ∈ parts, q.1.size.toNat = 16 + q.2.length)
    (hb : ∀ j, j < (wireBytes parts).length → src.get (p + j) = (wireBytes parts)[j]?) :
    fragsOf src (p + (wireBytes parts).length) p (layOut p parts) := by
  induction parts generalizing p with
  | nil => rfl
  | cons q qs ih =>
    obtain ⟨hq, hqs⟩ := List.forall_mem_cons.1 hsize
    have hlen : (wireBytes (q :: qs)).length = q.1.size.toNat + (wireBytes qs).length := by
      rw [wireBytes_cons, List.length_append, List.length_append, hq, ← Nat.add_assoc]
      rfl
    have hheader : decodeFH src p = .ok q.1 := decodeFH_of_fragmentBytes fun j hj => by
      rw [hb j (by omega), wireBytes_cons]
      exact List.getElem?_append_left hj
    have hrest : ∀ j, j < (wireBytes qs).length →
        src.get (p + q.1.size.toNat + j) = (wireBytes qs)[j]? := fun j hj => by
      rw [Nat.add_assoc, hb _ (by omega), wireBytes_cons, ← List.append_assoc,
        List.getElem?_append_right (by rw [List.length_append, hq]; exact Nat.le_add_right ..),
        List.length_append, hq]
      exact congrArg _ (Nat.add_sub_cancel_left ..)
    have htail := ih hqs hrest
    rw [Nat.add_assoc, ← hlen] at htail
    refine ⟨rfl, by omega, ?_, htail⟩
    rw [fragDecode_of_decodeFH (by omega) hheader, if_neg (by omega), if_neg (by omega)]

/-- A data region that is fragments back to back parses to them, with no optional part. -/
theorem regionParse_wireBytes {P : Config.Params} {flags : Word}
    (hb : has P flags .blobFragments = true) (hopt : noOptions P flags)
    (hsize : ∀ q ∈ parts, q.1.size.toNat = 16 + q.2.length) :
    regionParse P flags (wireBytes parts) = .ok ⟨0, layOut 0 parts⟩ := by
  have hnone : optLen P flags (listSource .cpd (wireBytes parts)) 0 (wireBytes parts).length
      = .ok 0 := by
    rw [optLen, optWalk_none hopt, ok_bind, pure_eq_ok]
  have htile := fragsOf_layOut (p := 0) (src := listSource .cpd (wireBytes parts)) hsize fun j _ => by
    rw [listSource_get, Nat.zero_add]
  rw [Nat.zero_add] at htile
  rw [regionParse_of_optLen hnone, regionFrags_of_blob hb, (fragList_ok_iff (Nat.zero_le _)).2 htile,
    ok_bind]

end LayOut

/-- Settles O20: `regionParse_wireBytes` gives the region CP_DECODE holds, `layOut_getElem?` its
entries. -/
theorem fragmentReassembly : Obligations.FragmentReassembly := by
  intro s h parts hb hopt hf hsize hsum hin hrx
  obtain ⟨hh, hd⟩ := Memory.holds_append_iff.1 hrx
  have hlen : (wireBytes parts).length = h.size.toNat := (wireBytes_length hsize).trans hsum.symm
  obtain ⟨m, hm, -⟩ :=
    execCpDecode_of_regionParse hh hf hlen hin hd (regionParse_wireBytes hb hopt hsize)
  refine ⟨_, hm, rfl, rfl, rfl, rfl, ?count, fun i q hq =>
    ⟨⟨_, q.1, 0⟩, ?entry, rfl, rfl, rfl, ?payload⟩⟩
  case count => exact (List.length_map _).trans layOut_length
  case entry =>
    show (Region.entries ⟨0, layOut 0 parts⟩)[i]? = _
    rw [Region.entries, List.getElem?_map, layOut_getElem? hq, Nat.zero_add]
    rfl
  case payload =>
    have := hsize q (List.mem_of_getElem? hq)
    show q.1.size.toNat - 16 = _
    omega

/-! ### SP_NEW (45_packet_assembler.md R175) -/

/-- The header SP_NEW gives a packet: its id is the low half of ARG0. -/
theorem newPacket_eq (s : State) :
    { PacketHeader.zero with flags := s.arg1, id := s.arg0Half } =
      ⟨0#32, s.arg1, 0#32, s.arg0.extractLsb' 0 16, 0#16, 0#16, 0#16⟩ := by
  rw [State.arg0Half, BitVec.setWidth_eq_extractLsb' (by decide)]
  rfl

section SpNew

variable {s : State}

theorem execSpNew_invalidFlags (hf : flagsValid Config.params s.arg1 = false) :
    exec .spNew s = .next (s.finish (some .invalidFlagCombination)) := by
  change endCommand s (spNewBody Config.params s) = _
  rw [spNewBody, require_neg (by simp [hf]), raise_bind, endCommand_raise]

theorem execSpNew_of_flagsValid (hf : flagsValid Config.params s.arg1 = true) :
    exec .spNew s = .next ({ s with
      spHdr := ⟨0#32, s.arg1, 0#32, s.arg0.extractLsb' 0 16, 0#16, 0#16, 0#16⟩
      spWp := 0#32, txLen := 0#32, spState := .filling }.finish none) := by
  rw [← newPacket_eq]
  exact endCommand_next_iff.2 (.inl ⟨_, spNewBody_ok_iff.2 ⟨hf, rfl⟩, rfl⟩)

end SpNew

/-- Settles O25: the two outcomes above. -/
theorem spNewStartsAPacket : Obligations.SpNewStartsAPacket :=
  ⟨decode_encode (i := .spNew) rfl, fun _ => ⟨execSpNew_invalidFlags, execSpNew_of_flagsValid⟩⟩

/-! ### SP_APPEND (45_packet_assembler.md R177) -/

section SpAppend

variable {s : State} {n : BitVec 3}

theorem execSpAppend_stateError (hn : countLegal n) (hs : s.spState ≠ .filling) :
    exec (.spAppend n) s = .next (s.finish (some .stateError)) := by
  change endCommand s (spAppendBody n s) = _
  rw [spAppendBody, byteCount_legal hn, ok_bind, require_neg hs, raise_bind, endCommand_raise]

theorem execSpAppend_oversizedPayload (hn : countLegal n) (hs : s.spState = .filling)
    (hlt : 448 < s.spWp.toNat + n.toNat) :
    exec (.spAppend n) s = .next (s.finish (some .oversizedPayload)) := by
  change endCommand s (spAppendBody n s) = _
  rw [spAppendBody, byteCount_legal hn, ok_bind, require_pos hs, ok_bind, Config.maxDataSize,
    require_neg (by omega), raise_bind, endCommand_raise]

theorem execSpAppend_of_le (hn : countLegal n) (hs : s.spState = .filling)
    (hle : s.spWp.toNat + n.toNat ≤ 448) :
    exec (.spAppend n) s = .next ({ s with
      tx := s.tx.writeList (20 + s.spWp.toNat) (lowBytes s.arg1 n.toNat)
      spWp := BitVec.ofNat 32 (s.spWp.toNat + n.toNat) }.finish none) := by
  rw [← wordBytes_eq_lowBytes s.arg1 hn]
  exact endCommand_next_iff.2 (.inl ⟨_, spAppendBody_ok_iff.2 ⟨hn, hs, hle, rfl⟩, rfl⟩)

end SpAppend

/-- Settles O26: the three outcomes above; the store is one list write. -/
theorem spAppendAddsPayload : Obligations.SpAppendAddsPayload := fun n hn =>
  ⟨decode_ofNat_count (i := .spAppend n) (opc := 0x21#8) (decide_eq_true hn) rfl, fun s =>
    ⟨execSpAppend_stateError hn, execSpAppend_oversizedPayload hn, fun hs hle =>
      ⟨_, execSpAppend_of_le hn hs hle, Memory.writeList_storedAt s.tx _ _⟩⟩⟩

/-! ### SP_FINALIZE (45_packet_assembler.md R178) -/

/-- The offset and size of each fragment of a region. -/
def Region.spans (r : Region) : List (Nat × Nat) := r.frags.map (fun f => (f.1, f.2.size.toNat))

section SpFinalize

variable {s : State} {data : List Byte} {r : Region}

/-- The size SP_FINALIZE puts into the header: the low half of SP_WP. -/
theorem sizedHeader_eq (s : State) :
    s.sizedHeader = { s.spHdr with size := s.spWp.extractLsb' 0 16 } := by
  rw [State.sizedHeader, BitVec.setWidth_eq_extractLsb' (by decide)]

/-- The header written is the sized one with the checksum of 46_checksum.md R191. -/
theorem finalHeader_eq (s : State) (data : List Byte) (r : Region) :
    s.finalHeader Config.params data r = { s.sizedHeader with
      checksum := checksumFormula s.sizedHeader data r.optLen r.spans
        (maskIn s .server s.sizedHeader) } := by
  rw [State.finalHeader, drawMask_mask, packetChecksum_eq]
  rfl

/-- That checksum is the formula of the finished header too, in which the checksum field does not show. -/
theorem checksumFormula_finalHeader (s : State) (data : List Byte) (r : Region) :
    checksumFormula (s.finalHeader Config.params data r) data r.optLen r.spans
        (maskIn s .server (s.finalHeader Config.params data r))
      = (s.finalHeader Config.params data r).checksum := by
  rw [finalHeader_eq]
  rfl

theorem execSpFinalize_stateError (hs : s.spState ≠ .filling) :
    exec .spFinalize s = .next (s.finish (some .stateError)) := by
  change endCommand s (spFinalizeBody Config.params s) = _
  rw [spFinalizeBody, require_neg hs, raise_bind, endCommand_raise]

theorem execSpFinalize_regionError {e : Err} (hs : s.spState = .filling)
    (hlen : data.length = s.spWp.toNat) (hd : s.tx.holds 20 data)
    (hr : regionParse Config.params s.spHdr.flags data = .error (.err e)) :
    exec .spFinalize s = .next (s.finish (some e)) := by
  change endCommand s (spFinalizeBody Config.params s) = _
  have hr : regionParse Config.params s.sizedHeader.flags data = .error (.err e) := hr
  rw [spFinalizeBody, require_pos hs, ok_bind, Memory.bytes_of_holds hlen hd, ok_bind, hr, error_bind,
    endCommand_err]

/-- What TX holds afterwards is named, so that its writes are never unfolded. -/
theorem execSpFinalize_of_regionParse (hs : s.spState = .filling) (hlen : data.length = s.spWp.toNat)
    (hd : s.tx.holds 20 data) (hr : regionParse Config.params s.spHdr.flags data = .ok r) :
    ∃ m, exec .spFinalize s = .next ({ s with
        ksDraws := drawsAfter s s.sizedHeader, tx := m
        spHdr := s.finalHeader Config.params data r
        txLen := 20#32 + s.spWp, spState := .final }.finish none)
      ∧ s.tx.storedAt m 0 (encodePH (s.finalHeader Config.params data r)) :=
  ⟨_, endCommand_next_iff.2 (.inl ⟨_, spFinalizeBody_ok_iff.2 ⟨hs, data,
      Memory.bytes_of_holds hlen hd, r, hr, rfl⟩, by rw [drawMask_state]⟩),
    Memory.writeList_storedAt s.tx _ _⟩

/-- SP_FINALIZE's next states, with what TX holds named, so that its writes are never unfolded. -/
theorem execSpFinalize_stored {t : State} (h : exec .spFinalize s = .next t) :
    (∃ data r m, data.length = s.spWp.toNat ∧ s.tx.holds 20 data
      ∧ regionParse Config.params s.spHdr.flags data = .ok r
      ∧ s.tx.storedAt m 0 (encodePH (s.finalHeader Config.params data r))
      ∧ t = { s with
        ksDraws := drawsAfter s s.sizedHeader, tx := m
        spHdr := s.finalHeader Config.params data r
        txLen := 20#32 + s.spWp, spState := .final }.finish none) ∨
    ∃ e, t = s.finish (some e) :=
  (execSpFinalize_next h).imp_left fun ⟨_, data, r, hlen, hd, hr, ht⟩ =>
    ⟨data, r, _, hlen, hd, hr, Memory.writeList_storedAt s.tx 0 _, ht⟩

end SpFinalize

/-- Settles O27: the three outcomes above, the header written by `finalHeader_eq`. -/
theorem spFinalizeWritesTheHeader : Obligations.SpFinalizeWritesTheHeader := by
  refine ⟨decode_encode (i := .spFinalize) rfl, fun s => ⟨execSpFinalize_stateError,
    fun data hs hlen hd => ⟨fun e => execSpFinalize_regionError hs hlen hd, fun r hr => ?_⟩⟩⟩
  have hnext := execSpFinalize_of_regionParse hs hlen hd hr
  rw [finalHeader_eq, encodePH_eq, sizedHeader_eq] at hnext
  exact hnext

/-! ### What a receiver makes of a finished packet (45_packet_assembler.md R179) -/

/-- Every command keeps the invariant. -/
theorem State.Inv.of_exec {s t : State} {i : Instr} (hs : s.Inv Config.params)
    (h : exec i s = .next t) : t.Inv Config.params := by
  obtain ⟨u, e, hu, rfl⟩ := exec_next h
  exact (hs.commits hu).finish e

/-- Bytes that another buffer repeats, it holds too. -/
theorem Memory.holds.copy {m m' : Memory} {a n : Nat} {bs : List Byte} (h : m.holds a bs)
    (hn : a + bs.length ≤ n) (hcopy : ∀ x, x < n → m'.read x = m.read x) : m'.holds a bs :=
  fun j hj => (hcopy _ (by omega)).trans (h j hj)

/-- What SP_FINALIZE leaves in TX when it succeeds: the header, then a payload that parses, with the
checksum of both in the header. -/
theorem execSpFinalize_sent {s t : State} (h : exec .spFinalize s = .next t) (herr : t.err = none) :
    t.spState = .final ∧ ∃ data r, data.length = t.spWp.toNat
      ∧ t.tx.holds 0 (packetBytes t.spHdr t.spHdr.checksum ++ data)
      ∧ regionParse Config.params t.spHdr.flags data = .ok r
      ∧ checksumFormula t.spHdr data r.optLen r.spans (maskIn s .server t.spHdr)
        = t.spHdr.checksum := by
  rcases execSpFinalize_stored h with ⟨data, r, m, hlen, hd, hr, hst, rfl⟩ | ⟨e, rfl⟩
  · have hdata : m.holds 20 data := fun j hj =>
      (hst.read_of_le (encodePH_length _) (Nat.le_add_right 20 j)).trans (hd j hj)
    exact ⟨rfl, data, r, hlen, Memory.holds_append_iff.2 ⟨hst.1, hdata⟩, hr,
      checksumFormula_finalHeader s data r⟩
  · cases herr

/-- CP_VERIFY where the data has values: RES takes the checksum, and the comparison decides. -/
theorem execCpVerify_of_holds {s : State} {data : List Byte} {c : Word} (hv : s.cpValid = true)
    (hlen : data.length = s.cpHdr.size.toNat) (hd : s.cpd.holds 0 data)
    (hc : checksumFormula s.cpHdr data s.cpOptlen.toNat s.fragSpans (maskIn s .client s.cpHdr) = c) :
    exec .cpVerify s = .next ({ s with ksDraws := drawsAfter s s.cpHdr, res := c }.finish
      (if c = s.cpHdr.checksum then none else some .checksumMismatch)) := by
  change runCpVerify Config.params s = _
  rw [runCpVerify, clientChecksum_of_holds hv hlen hd, hc]
  dsimp only
  split_ifs <;> rfl

/-- The fragment table of a parsed region has the region's spans. -/
theorem fragSpans_entries (r : Region) :
    r.entries.map (fun f => (f.off, f.hdr.size.toNat)) = r.spans := by
  rw [Region.entries, List.map_map]
  rfl

/-- A packet with valid flags and a region that parses is held by CP_DECODE, and CP_VERIFY then confirms the
checksum in its header if that is the packet's under the mask the receiver draws. -/
theorem execCpDecode_execCpVerify {s : State} {h : PacketHeader} {data : List Byte} {r : Region}
    (hrx : s.rx.holds 0 (packetBytes h h.checksum ++ data))
    (hf : flagsValid Config.params h.flags = true)
    (hlen : data.length = h.size.toNat) (hin : 20 + h.size.toNat ≤ s.rxlen.toNat)
    (hr : regionParse Config.params h.flags data = .ok r) :
    ∃ t, exec .cpDecode s = .next t ∧ t.err = none ∧ t.cpValid = true ∧ t.cpHdr = h
      ∧ (checksumFormula h data r.optLen r.spans (maskIn t .client h) = h.checksum →
        ∃ u, exec .cpVerify t = .next u ∧ u.err = none ∧ u.res = h.checksum) := by
  obtain ⟨hh, hd⟩ := Memory.holds_append_iff.1 hrx
  obtain ⟨m, hm, hst, -⟩ := execCpDecode_of_regionParse hh hf hlen hin hd hr
  refine ⟨_, hm, rfl, rfl, rfl, fun hc => ?_⟩
  obtain ⟨hopt, -⟩ := regionParse_optLen hr hlen
  rw [← fragSpans_entries, ← hopt] at hc
  refine ⟨_, execCpVerify_of_holds rfl hlen hst hc, ?_, rfl⟩
  exact if_pos rfl

/-- Both sides fold in the same mask when both draws, if they are made, return the same value. -/
theorem maskIn_eq_of_draws {s t : State} {d d' : Direction} {h : PacketHeader}
    (hdraw : has Config.params h.flags .encryptedChecksum = true →
      Config.keystreamDraw d h.sequence s.ksDraws = Config.keystreamDraw d' h.sequence t.ksDraws) :
    maskIn s d h = maskIn t d' h := by
  unfold maskIn
  split_ifs with he
  · exact hdraw he
  · rfl

/-- Settles O31: the sender's packet by `execSpFinalize_sent`, its sizes by the invariant, and the
receiver's two commands by `execCpDecode_execCpVerify`. -/
theorem receiverAgreesWithSender : Obligations.ReceiverAgreesWithSender := by
  intro s t u hs hfin herr hrxlen hcopy
  obtain ⟨hfinal, data, r, hlen, htx, hr, hsum⟩ := execSpFinalize_sent hfin herr
  have ht := hs.of_exec hfin
  have hsize := ht.r56.final_size hfinal
  have htxLen := ht.r56.final_txLen hfinal
  have hbytes : (packetBytes t.spHdr t.spHdr.checksum ++ data).length = t.txLen.toNat := by
    rw [List.length_append, packetBytes_length, hlen, htxLen]
  obtain ⟨v, hv, hverr, hvalid, hhdr, hverify⟩ := execCpDecode_execCpVerify
    (htx.copy (by omega) fun x hx => (hcopy x hx).2) (ht.sp_flags (by rw [hfinal]; nofun))
    (hlen.trans hsize.symm) (by rw [hrxlen]; omega) hr
  exact ⟨v, hv, hverr, hvalid, hhdr, fun hdraw => hverify (by rw [maskIn_eq_of_draws hdraw, hsum])⟩

/-! ### Commands that store to TX -/

/-- Settles O57: each next state by what the command can do, the bytes by what a list write leaves. -/
theorem frameOfTransmitStores : Obligations.FrameOfTransmitStores := by
  intro s t
  refine ⟨fun n h => ?spAppend, fun h => ?sfEmit, fun h => ?spFinalize⟩
  case spAppend =>
    rcases execSpAppend_next h with ⟨-, -, -, rfl⟩ | ⟨e, rfl⟩
    · refine ⟨rfl, fun x hx => (Memory.writeList_storedAt s.tx (20 + s.spWp.toNat) _).2 x ?_⟩
      rwa [wordBytes_length]
    · exact ⟨rfl, fun _ _ => rfl⟩
  case sfEmit =>
    rcases execSfEmit_next h with ⟨-, -, -, payload, hlen, -, rfl⟩ | ⟨e, rfl⟩
    · have hst := Memory.writeList_storedAt s.tx (20 + s.spWp.toNat) (encodeFH s.emitted ++ payload)
      -- What TX holds is named, so that its writes are never unfolded.
      generalize s.tx.writeList _ _ = m at *
      refine ⟨rfl, fun x hx => hst.2 x ?_⟩
      rwa [List.length_append, encodeFH_length, hlen]
    · exact ⟨rfl, fun _ _ => rfl⟩
  case spFinalize =>
    rcases execSpFinalize_stored h with ⟨data, r, m, -, -, -, hst, rfl⟩ | ⟨e, rfl⟩
    · exact ⟨rfl, fun _ => hst.read_of_le (encodePH_length _)⟩
    · exact ⟨rfl, fun _ _ => rfl⟩

end Sys2Proof.Machine

/-! ## The checksum family (46_checksum.md)

Each outcome of CP_CHECKSUM and CP_VERIFY as an equation, from the client packet's checksum they share. -/

namespace Sys2Proof.Machine

open Sys2Proof

section ClientChecksum

variable {s : State}

/-- With no client packet held there is no checksum, under any configuration. -/
theorem clientChecksum_stateError (P : Config.Params) (hv : s.cpValid = false) :
    clientChecksum P s = raise .stateError := by
  rw [clientChecksum, require_neg (by simp [hv]), raise_bind]

/-! ### CP_CHECKSUM (46_checksum.md R192) -/

theorem execCpChecksum_stateError (hv : s.cpValid = false) :
    exec .cpChecksum s = .next (s.finish (some .stateError)) := by
  change endCommand s (cpChecksumBody Config.params s) = _
  rw [cpChecksumBody, clientChecksum_stateError _ hv, raise_bind, endCommand_raise]

/-- CP_CHECKSUM where the data has values: RES takes the checksum, under the mask the query draws. -/
theorem execCpChecksum_of_holds {data : List Byte} (hv : s.cpValid = true)
    (hlen : data.length = s.cpHdr.size.toNat) (hd : s.cpd.holds 0 data) :
    exec .cpChecksum s = .next ({ s with
      ksDraws := drawsAfter s s.cpHdr
      res := checksumFormula s.cpHdr data s.cpOptlen.toNat s.fragSpans
        (maskIn s .client s.cpHdr) }.finish none) := by
  change endCommand s (cpChecksumBody Config.params s) = _
  rw [cpChecksumBody, clientChecksum_of_holds hv hlen hd, ok_bind, pure_eq_ok, endCommand_ok]

/-! ### CP_VERIFY (46_checksum.md R193) -/

theorem execCpVerify_stateError (hv : s.cpValid = false) :
    exec .cpVerify s = .next (s.finish (some .stateError)) := by
  change runCpVerify Config.params s = _
  rw [runCpVerify, clientChecksum_stateError _ hv]
  exact endCommand_raise s .stateError

end ClientChecksum

/-- Settles O23: the two outcomes above. -/
theorem cpChecksumFollowsTheFormula : Obligations.CpChecksumFollowsTheFormula :=
  ⟨decode_encode (i := .cpChecksum) rfl, fun _ =>
    ⟨execCpChecksum_stateError, fun _ => execCpChecksum_of_holds⟩⟩

/-- Settles O24: the two outcomes above and in `execCpVerify_of_holds`; ending with the code that the
comparison gives is comparing and then ending with OK or with ChecksumMismatch. -/
theorem cpVerifyComparesTheChecksum : Obligations.CpVerifyComparesTheChecksum :=
  ⟨decode_encode (i := .cpVerify) rfl, fun s =>
    ⟨execCpVerify_stateError, fun data hv hlen hd => by
      intro c t
      have hexec : exec .cpVerify s = .next
          (t.finish (if c = s.cpHdr.checksum then none else some .checksumMismatch)) :=
        execCpVerify_of_holds hv hlen hd rfl
      rw [hexec, apply_ite t.finish]
      rfl⟩⟩

end Sys2Proof.Machine

/-! ## The exceptions family (60_exceptions.md)

Which error codes each command can end with, and in which state: both are said once, by `State.Fails` and
`exec_fails`, and the statements are read off it. -/

namespace Sys2Proof.Machine

open Sys2Proof

/-! ### The codes a body raises (60_exceptions.md R200) -/

/-- `e` is a code that command `i` can end with: one R200 lists for it, or IllegalCommand for an operand that
no legal word has (log entry 13). -/
def Err.endsWith (e : Err) (i : Instr) : Prop := e.raisedBy i ∨ e = .illegalCommand ∧ ¬i.WellFormed

/-- If the body `x` stops with an error code, then with one that command `i` can end with. Where a step of
a command's body raises a code by name, the lemmas below look it up in `Err.raisedBy`. -/
def RaisesFor {α : Type} (i : Instr) (x : Except Stop α) : Prop :=
  ∀ e, x = .error (.err e) → e.endsWith i

section Bodies

variable {α β : Type} {i : Instr} {s : State} {src : Source} {P : Config.Params} {n : BitVec 3}

theorem raisesFor_ok (a : α) : RaisesFor i (.ok a) := nofun

theorem raisesFor_raise {e : Err} (he : e.raisedBy i := by simp [Err.raisedBy]) :
    RaisesFor i (raise e : Except Stop α) := by
  rintro e' ⟨⟩
  exact .inl he

theorem raisesFor_require {c : Prop} [Decidable c] {e : Err}
    (he : e.raisedBy i := by simp [Err.raisedBy]) : RaisesFor i (require c e) := by
  intro e' h
  obtain ⟨-, ⟨⟩⟩ := require_error_iff.1 h
  exact .inl he

/-- A body raises what its steps raise. -/
theorem RaisesFor.bind {x : Except Stop α} {f : α → Except Stop β} (hx : RaisesFor i x)
    (hf : ∀ a, x = .ok a → RaisesFor i (f a)) : RaisesFor i (x >>= f) := by
  intro e h
  rcases bind_error_iff.1 h with h | ⟨a, ha, h⟩
  · exact hx e h
  · exact hf a ha e h

/-- Reading bytes raises nothing: it can only stop at a byte without a value. -/
theorem raisesFor_bytes (a k : Nat) : RaisesFor i (src.bytes a k) := by
  intro e h
  obtain ⟨_, -, -, -, ⟨⟩⟩ := Source.bytes_error h

theorem raisesFor_decodePH (o : Nat) : RaisesFor i (decodePH src o) := by
  intro e h
  obtain ⟨_, -, -, -, ⟨⟩⟩ := decodePH_error h

theorem raisesFor_decodeFH (o : Nat) : RaisesFor i (decodeFH src o) := by
  intro e h
  obtain ⟨_, -, -, -, ⟨⟩⟩ := decodeFH_error h

theorem raisesFor_checkRxSpan {o k : Nat} (hr : Err.outOfRange.raisedBy i := by simp [Err.raisedBy])
    (ht : Err.truncatedInput.raisedBy i := by simp [Err.raisedBy]) : RaisesFor i (checkRxSpan s o k) :=
  (raisesFor_require hr).bind fun _ _ => raisesFor_require ht

theorem raisesFor_byteCount (hi : i.WellFormed → countLegal n) : RaisesFor i (byteCount n) := by
  intro e h
  obtain ⟨hn, ⟨⟩⟩ := byteCount_error h
  exact .inr ⟨rfl, mt hi hn⟩

theorem raisesFor_optLen {flags : Word} {start stop : Nat} (hle : start ≤ stop)
    (ht : Err.truncatedInput.raisedBy i := by simp [Err.raisedBy]) :
    RaisesFor i (optLen P flags src start stop) := by
  intro e h
  rcases optLen_error hle h with h | ⟨_, -, -, -, h⟩ <;> cases h
  exact .inl ht

theorem raisesFor_regionParse {flags : Word} {data : List Byte}
    (ht : Err.truncatedInput.raisedBy i := by simp [Err.raisedBy])
    (hz : Err.invalidFragmentSize.raisedBy i := by simp [Err.raisedBy]) :
    RaisesFor i (regionParse P flags data) := by
  intro e h
  rcases regionParse_error h with rfl | rfl
  · exact .inl ht
  · exact .inl hz

theorem hdrLoadBody_raises : RaisesFor .hdrLoad (hdrLoadBody s) :=
  .bind raisesFor_checkRxSpan fun _ _ =>
    .bind (raisesFor_decodePH _) fun _ _ => raisesFor_ok _

theorem fhdrLoadBody_raises : RaisesFor .fhdrLoad (fhdrLoadBody s) :=
  .bind raisesFor_checkRxSpan fun _ _ =>
    .bind (raisesFor_decodeFH _) fun _ _ => raisesFor_ok _

theorem optDecodeBody_raises : RaisesFor .optDecode (optDecodeBody P s) :=
  .bind raisesFor_require fun _ h =>
    .bind (raisesFor_optLen (require_ok_iff.1 h)) fun _ _ => raisesFor_ok _

theorem cpDecodeBody_raises : RaisesFor .cpDecode (cpDecodeBody P s) :=
  .bind raisesFor_require fun _ _ =>
    .bind (raisesFor_decodePH _) fun _ _ =>
    .bind raisesFor_require fun _ _ =>
    .bind raisesFor_require fun _ _ =>
    .bind (raisesFor_bytes _ _) fun _ _ =>
    .bind raisesFor_regionParse fun _ _ =>
    raisesFor_ok _

theorem cpFragSelectBody_raises : RaisesFor .cpFragSelect (cpFragSelectBody s) := by
  refine .bind raisesFor_require fun _ _ => ?_
  split
  · exact raisesFor_raise
  · exact raisesFor_ok _

theorem cpFragReadBody_raises : RaisesFor (.cpFragRead n) (cpFragReadBody n s) := by
  refine .bind (raisesFor_byteCount of_decide_eq_true) fun _ _ =>
    .bind raisesFor_require fun _ _ => ?_
  split
  · exact raisesFor_raise
  · exact .bind raisesFor_require fun _ _ =>
      .bind (raisesFor_bytes _ _) fun _ _ => raisesFor_ok _

theorem cpChecksumBody_raises : RaisesFor .cpChecksum (cpChecksumBody P s) :=
  .bind (.bind raisesFor_require fun _ _ => .bind (raisesFor_bytes _ _) fun _ _ => raisesFor_ok _)
    fun _ _ => raisesFor_ok _

theorem spNewBody_raises : RaisesFor .spNew (spNewBody P s) :=
  .bind raisesFor_require fun _ _ => raisesFor_ok _

theorem spAppendBody_raises : RaisesFor (.spAppend n) (spAppendBody n s) :=
  .bind (raisesFor_byteCount of_decide_eq_true) fun _ _ =>
    .bind raisesFor_require fun _ _ =>
    .bind raisesFor_require fun _ _ => raisesFor_ok _

theorem spFinalizeBody_raises : RaisesFor .spFinalize (spFinalizeBody P s) :=
  .bind raisesFor_require fun _ _ =>
    .bind (raisesFor_bytes _ _) fun _ _ =>
    .bind raisesFor_regionParse fun _ _ =>
    raisesFor_ok _

theorem sfAppendBody_raises : RaisesFor (.sfAppend n) (sfAppendBody n s) :=
  .bind (raisesFor_byteCount of_decide_eq_true) fun _ _ =>
    .bind raisesFor_require fun _ _ =>
    .bind raisesFor_require fun _ _ => raisesFor_ok _

theorem sfEmitBody_raises : RaisesFor .sfEmit (sfEmitBody s) :=
  .bind raisesFor_require fun _ _ =>
    .bind raisesFor_require fun _ _ =>
    .bind (raisesFor_bytes _ _) fun _ _ => raisesFor_ok _

end Bodies

/-! ### How a command fails (60_exceptions.md R205) -/

/-- `s.Fails i e t`: command `i`, run in `s`, may end in `t` with error code `e`. -/
inductive State.Fails (s : State) : Instr → Err → State → Prop
  /-- An error keeps no write. -/
  | kept {i : Instr} {e : Err} (raised : e.endsWith i) (hi : i ≠ .cpDecode)
    (hv : i = .cpVerify → e ≠ .checksumMismatch) : s.Fails i e (s.failed e)
  /-- CP_DECODE clears the client packet (45_packet_assembler.md R171). -/
  | cleared {e : Err} (raised : e.endsWith .cpDecode) : s.Fails .cpDecode e (s.clientGone e)
  /-- CP_VERIFY keeps RES, and the query it made (46_checksum.md R193, log entry 14). -/
  | mismatch (v : Word) : s.Fails .cpVerify .checksumMismatch
    { s.failed .checksumMismatch with res := v, ksDraws := drawsAfter s s.cpHdr }

section Fails

variable {s t : State} {i : Instr} {e : Err}

/-- A command that ends with a code raised it. -/
theorem endCommand_raised {r : State} {b : Except Stop State} (h : endCommand r b = .next t)
    (he : t.err = some e) : b = .error (.err e) ∧ t = r.finish (some e) := by
  rcases endCommand_next_iff.1 h with ⟨u, -, rfl⟩ | ⟨e', hb, rfl⟩
  · cases he
  · cases he
    exact ⟨hb, rfl⟩

/-- A command that discards every write of a body that raised. -/
theorem State.Fails.of_endCommand {b : Except Stop State} (h : endCommand s b = .next t)
    (he : t.err = some e) (hb : RaisesFor i b) (hi : i ≠ .cpDecode) (hv : i ≠ .cpVerify) :
    s.Fails i e t := by
  obtain ⟨hraised, rfl⟩ := endCommand_raised h he
  exact .kept (hb e hraised) hi fun h => absurd h hv

theorem execCpDecode_fails (h : exec .cpDecode s = .next t) (he : t.err = some e) :
    s.Fails .cpDecode e t := by
  obtain ⟨hraised, rfl⟩ := endCommand_raised (b := cpDecodeBody Config.params s) h he
  exact .cleared (cpDecodeBody_raises e hraised)

/-- CP_VERIFY fails before the comparison, with StateError, or by it. -/
theorem execCpVerify_fails (h : exec .cpVerify s = .next t) (he : t.err = some e) :
    s.Fails .cpVerify e t := by
  simp only [exec, execCpVerify, runCpVerify] at h
  split at h
  · next x hx =>
    obtain ⟨⟨⟩, rfl⟩ := endCommand_raised h he
    rcases clientChecksum_error hx with hx | ⟨_, -, -, -, hx⟩ <;> cases hx
    exact .kept (.inl (by simp [Err.raisedBy])) nofun nofun
  · next c hc =>
    obtain ⟨-, data, -, rfl⟩ := clientChecksum_ok_iff.1 hc
    obtain ⟨hraised, rfl⟩ := endCommand_raised h he
    split_ifs at hraised
    cases hraised
    rw [drawMask_state]
    exact .mismatch _

/-- Every command that ends with an error code fails in one of these ways. -/
theorem exec_fails (h : exec i s = .next t) (he : t.err = some e) : s.Fails i e t := by
  cases i with
  | nop | hdrStore | hdrHash | fhdrStore | sfNew =>
    exact .of_endCommand (b := .ok _) h he (raisesFor_ok _) nofun nofun
  | hdrLoad => exact .of_endCommand h he hdrLoadBody_raises nofun nofun
  | fhdrLoad => exact .of_endCommand h he fhdrLoadBody_raises nofun nofun
  | optDecode => exact .of_endCommand h he optDecodeBody_raises nofun nofun
  | cpDecode => exact execCpDecode_fails h he
  | cpFragSelect => exact .of_endCommand h he cpFragSelectBody_raises nofun nofun
  | cpFragRead n => exact .of_endCommand h he cpFragReadBody_raises nofun nofun
  | cpChecksum => exact .of_endCommand h he cpChecksumBody_raises nofun nofun
  | cpVerify => exact execCpVerify_fails h he
  | spNew => exact .of_endCommand h he spNewBody_raises nofun nofun
  | spAppend n => exact .of_endCommand h he spAppendBody_raises nofun nofun
  | spFinalize => exact .of_endCommand h he spFinalizeBody_raises nofun nofun
  | sfAppend n => exact .of_endCommand h he sfAppendBody_raises nofun nofun
  | sfEmit => exact .of_endCommand h he sfEmitBody_raises nofun nofun

theorem State.Fails.endsWith (h : s.Fails i e t) : e.endsWith i := by
  cases h with
  | kept raised => exact raised
  | cleared raised => exact raised
  | mismatch v => exact .inl rfl

end Fails

/-! ### The statements -/

theorem flagsValid_eq_false_iff (P : Config.Params) (f : Word) : flagsValid P f = false ↔
    P.enforceExcl = true ∧ f &&& P.flagMask .encryptedChecksum ≠ 0#32 ∧ f &&& P.exclMask ≠ 0#32 := by
  simp [flagsValid, has, and_assoc]

/-- Settles O32: the two commands' outcomes, and `exec_fails` for the others. -/
theorem flagCheckIsTheConjunction : Obligations.FlagCheckIsTheConjunction := by
  refine ⟨flagsValid_eq_false_iff, fun _ => execSpNew_invalidFlags,
    fun _ _ => execCpDecode_invalidFlags, fun i s t h he => ?_⟩
  rcases (exec_fails h he).endsWith with hraised | ⟨⟨⟩, -⟩
  exact hraised

/-- Settles O33: `exec_fails`, where a well-formed command leaves R200's codes only. -/
theorem errorsComeFromTheirCommands : Obligations.ErrorsComeFromTheirCommands := by
  refine ⟨⟨rfl, rfl, rfl, rfl, rfl, rfl, rfl, rfl⟩, fun s t i e hi h he => ?_, fun s w rest hs hw => ?_⟩
  · rcases (exec_fails h he).endsWith with hraised | ⟨-, hbad⟩
    · exact hraised
    · exact absurd hi hbad
  · exact ⟨_, illegalWordChangesNothingElse.1 s w rest hs hw, rfl⟩

/-- Settles O34: OK notes nothing in ERRSEEN, and each way to fail is one clause of the statement. -/
theorem failingCommandCommitsNothing : Obligations.FailingCommandCommitsNothing := by
  intro i s t h
  refine ⟨fun hok => ?_, fun e he => ?_⟩
  · obtain ⟨u, e, hu, rfl⟩ := exec_next h
    rw [finish_err] at hok
    rw [finish_errseen, hok, noteError_none, hu.errseen_eq]
  · cases exec_fails h he with
    | kept raised hi hv =>
      exact ⟨rfl, fun h => absurd h hi, fun h hm => absurd hm (hv h), fun _ _ => rfl⟩
    | cleared raised => exact ⟨rfl, fun _ => rfl, nofun, fun h => absurd rfl h⟩
    | mismatch v => exact ⟨rfl, nofun, fun _ _ => rfl, fun _ h => absurd rfl (h rfl)⟩

/-- Settles O6: a step takes the next action, and there is none. -/
theorem idleStepHoldsState : Obligations.IdleStepHoldsState := by
  intro s hs
  rw [step, takeAction, hs]

end Sys2Proof.Machine

/-! ## The reset and hazards family (70_reset_and_hazards.md)

The proofs of the statements about reset and about the fragment cursors. A reset from any state is said
once, of `State.resetEngine`; `State.reset` is the reset of itself. What a command can do to the fragment
table comes from what it can commit (`State.Commits`). -/

namespace Sys2Proof.Machine

open Sys2Proof

/-! ### Cursors (R235) -/

section Cursors

variable {P : Config.Params} {s u : State} {i : Instr}

/-- A command other than CP_DECODE keeps the fragment table, or moves one cursor of it forward. -/
theorem State.Commits.frags_eq_or_advance (h : s.Commits P i u) (hi : i ≠ .cpDecode) :
    u.frags = s.frags ∨ ∃ (j : Nat) (f : FragEntry) (n : Nat), s.frags[j]? = some f
      ∧ u.frags = s.frags.set j { f with cur := f.cur + n } := by
  cases h with
  | cpFragRead n f v hf => exact .inr ⟨_, f, n.toNat, hf, rfl⟩
  | cpClear | cpDecode => exact absurd rfl hi
  | _ => exact .inl rfl

/-- Moving one cursor forward changes no fragment otherwise. -/
theorem getElem?_set_advance {fs : List FragEntry} {j k : Nat} {f f' : FragEntry}
    (hj : fs[j]? = some f) (hk : fs[k]? = some f') (n : Nat) :
    ∃ g, (fs.set j { f with cur := f.cur + n })[k]? = some g
      ∧ g.off = f'.off ∧ g.hdr = f'.hdr ∧ f'.cur ≤ g.cur := by
  by_cases hjk : j = k
  · subst hjk
    obtain rfl : f = f' := Option.some.inj (hj.symm.trans hk)
    refine ⟨{ f with cur := f.cur + n }, ?_, rfl, rfl, Nat.le_add_right ..⟩
    rw [List.getElem?_set_self', hj]; rfl
  · exact ⟨f', (List.getElem?_set_ne hjk).trans hk, rfl, rfl, Nat.le_refl _⟩

end Cursors

/-- Settles O41: a command commits the same table, or the table with one cursor moved forward. -/
theorem cursorsOnlyMoveForward : Obligations.CursorsOnlyMoveForward := by
  intro i s t hi h
  obtain ⟨u, e, hu, rfl⟩ := exec_next h
  rw [State.cpNfrag, State.cpNfrag, finish_frags]
  rcases hu.frags_eq_or_advance hi with hfrags | ⟨j, f, n, hj, hfrags⟩ <;> rw [hfrags]
  · exact ⟨rfl, fun k f hk => ⟨f, hk, rfl, rfl, Nat.le_refl _⟩⟩
  · exact ⟨List.length_set, fun k f' hk => getElem?_set_advance hj hk n⟩

/-! ### Reset (R230) -/

/-- Every field of STATUS is 0 at reset (10_state.md R25). -/
theorem reset_statusWord : State.reset.statusWord = 0#32 := by decide

/-- After a reset every register reads 0. -/
theorem resetEngine_readReg (s : State) (r : Reg) : s.resetEngine.readReg r = 0#32 := by
  cases r with
  | status => exact reset_statusWord
  | hdr f | cpHdr f | spHdr f => cases f <;> rfl
  | fh f | sf f => cases f <;> rfl
  | _ => rfl

/-- After a reset no byte of a buffer has a value. -/
theorem resetEngine_buffer_read (s : State) (sp : Space) (a : Nat) :
    (s.resetEngine.buffer sp).read a = none := by cases sp <;> rfl

/-- The reset state is what a reset makes of itself. -/
theorem reset_resetEngine : State.reset.resetEngine = State.reset := rfl

/-- The host's reset resets the engine and takes nothing else from the action list. -/
theorem step_reset {s : State} {rest : List HostAction} (hs : s.host = .reset :: rest) :
    step s = .next { s with host := rest }.resetEngine := by
  rw [step, takeAction, hs]; rfl

/-- Settles O53: the host's reset is `State.resetEngine`, and so is `State.reset`. -/
theorem resetClearsTheEngine : Obligations.ResetClearsTheEngine := by
  refine ⟨?_, fun s rest hs => ?_⟩
  · rw [← reset_resetEngine]
    exact ⟨resetEngine_readReg _, resetEngine_buffer_read _⟩
  · exact ⟨_, step_reset hs, resetEngine_readReg _, resetEngine_buffer_read _, rfl, rfl, rfl, rfl⟩

/-- Settles O36: the invariant holds after a reset from any state, so from `State.reset` itself. -/
theorem resetMeetsTheInvariant : Obligations.ResetMeetsTheInvariant := by
  unfold Obligations.ResetMeetsTheInvariant
  rw [← reset_resetEngine]
  exact resetEngine_inv Config.params State.reset

end Sys2Proof.Machine
